-- ==== Sys2Proof/Word.lean ====
section
/-! DEFINITION. The word types of the register bus core. Every quantity of the block is an unsigned
integer (R9): bytes, 16-bit halves (command word, address field, info-area fields, space-6 words)
and the 32-bit words of the register bus. Byte order helpers live in Machine/Units.lean. -/

namespace Sys2Proof

/-- u8: one byte of the register file, of a memory space, of a payload or of a reply. -/
abbrev Byte := BitVec 8

/-- u16: a command word, an address field, an info-area field, a word of memory space 6. -/
abbrev Half := BitVec 16

/-- u32: one word of the register bus (R63, R65). -/
abbrev Word := BitVec 32

end Sys2Proof
end

