-- ==== Sys2Proof/Syntax.lean ====
section
/-! DEFINITION. The commands of the wire protocol: the decoded command word (R28, R80) and `Instr`,
one constructor per row of spec/opcode_table.json (R86). An instruction carries the whole command:
the address field (`none` when A = 0), the operands Z, N, C that its row leaves open, and for a
write its data bytes (R81). -/

namespace Sys2Proof

/-- `transfer_size_code` (R80, R83): units of 8, 16, 32 or 64 bits. -/
inductive UnitSize where
  | u8
  | u16
  | u32
  | u64
  deriving DecidableEq, Repr

/-- `memory_space` (R80): the memory space selector 0..7. -/
inductive Space where
  | s0
  | s1
  | s2
  | s3
  | s4
  | s5
  | s6
  | s7
  deriving DecidableEq, Repr

/-- The decoded command (R28): the seven fields of the command word. `transfer_bytes` and
`transfer_bits` are computed from `size` (Machine/Units.lean). -/
structure Command where
  write    : Bool
  hasAddr  : Bool
  infoArea : Bool
  space    : Space
  size     : UnitSize
  incr     : Bool
  count    : BitVec 7
  deriving DecidableEq, Repr

/-- A whole command of a payload (R81), by its class (R86). `addr` is the address field, `incr` is
N, `count` is C and `data` the write's data bytes. -/
inductive Instr where
  /-- BADCOUNT (R162): C = 0; it has no data bytes. -/
  | badCount (write infoArea : Bool) (space : Space) (addr : Option Half) (size : UnitSize)
      (incr : Bool)
  /-- RSV5 (R161): S = 5, any I and W. -/
  | rsv5 (write infoArea : Bool) (addr : Option Half) (size : UnitSize) (incr : Bool)
      (count : BitVec 7) (data : List Byte)
  /-- IA_BADWIDTH (R191), the row with Z = 0. -/
  | iaBadWidth8 (write : Bool) (space : Space) (addr : Option Half) (incr : Bool)
      (count : BitVec 7) (data : List Byte)
  /-- IA_BADWIDTH (R191), the row with Z = 2. -/
  | iaBadWidth32 (write : Bool) (space : Space) (addr : Option Half) (incr : Bool)
      (count : BitVec 7) (data : List Byte)
  /-- IA_BADWIDTH (R191), the row with Z = 3. -/
  | iaBadWidth64 (write : Bool) (space : Space) (addr : Option Half) (incr : Bool)
      (count : BitVec 7) (data : List Byte)
  /-- IARD (R194): info-area read, 16-bit units. -/
  | iard (space : Space) (addr : Option Half) (incr : Bool) (count : BitVec 7)
  /-- IAWR (R195): info-area write, 16-bit units. -/
  | iawr (space : Space) (addr : Option Half) (incr : Bool) (count : BitVec 7) (data : List Byte)
  /-- RD0 (R150): read memory space 0, the register bus. -/
  | rd0 (addr : Option Half) (size : UnitSize) (incr : Bool) (count : BitVec 7)
  /-- WR0 (R151): write memory space 0. -/
  | wr0 (addr : Option Half) (size : UnitSize) (incr : Bool) (count : BitVec 7) (data : List Byte)
  /-- DATAX (R160), the row with S = 1. -/
  | datax1 (write : Bool) (addr : Option Half) (size : UnitSize) (incr : Bool) (count : BitVec 7)
      (data : List Byte)
  /-- DATAX (R160), the row with S = 3. -/
  | datax3 (write : Bool) (addr : Option Half) (size : UnitSize) (incr : Bool) (count : BitVec 7)
      (data : List Byte)
  /-- RD2 (R152): read memory space 2, the identity image. -/
  | rd2 (addr : Option Half) (size : UnitSize) (incr : Bool) (count : BitVec 7)
  /-- WR2 (R153): write memory space 2, which is read-only. -/
  | wr2 (addr : Option Half) (size : UnitSize) (incr : Bool) (count : BitVec 7) (data : List Byte)
  /-- RD4 (R154): read memory space 4, the scratch block. -/
  | rd4 (addr : Option Half) (size : UnitSize) (incr : Bool) (count : BitVec 7)
  /-- WR4 (R155): write memory space 4. -/
  | wr4 (addr : Option Half) (size : UnitSize) (incr : Bool) (count : BitVec 7) (data : List Byte)
  /-- RD6 (R156): read memory space 6, statistics and control. -/
  | rd6 (addr : Option Half) (size : UnitSize) (incr : Bool) (count : BitVec 7)
  /-- WR6 (R157): write memory space 6. -/
  | wr6 (addr : Option Half) (size : UnitSize) (incr : Bool) (count : BitVec 7) (data : List Byte)
  /-- RD7 (R158): read memory space 7, the board identity. -/
  | rd7 (addr : Option Half) (size : UnitSize) (incr : Bool) (count : BitVec 7)
  /-- WR7 (R159): write memory space 7, which is read-only. -/
  | wr7 (addr : Option Half) (size : UnitSize) (incr : Bool) (count : BitVec 7) (data : List Byte)
  deriving DecidableEq, Repr

end Sys2Proof
end

