-- ==== Sys2Proof/Machine/Units.lean ====
section
/-! DEFINITION. Unit sizes and the byte order of the block: how many bytes a unit has (R83), and the
little-endian assembly and splitting of 16- and 32-bit values (R10, R60). -/

namespace Sys2Proof

/-- `transfer_bytes = 2^Z` (R83). -/
def UnitSize.bytes : UnitSize → Nat
  | .u8 => 1
  | .u16 => 2
  | .u32 => 4
  | .u64 => 8

/-- `transfer_bits = 8 * transfer_bytes` (R83). -/
def UnitSize.bits (z : UnitSize) : Nat := 8 * z.bytes

namespace Machine

/-- `le16(b0, b1) = b0 + 256*b1` (R10). -/
def le16 (b0 b1 : Byte) : Half := b1 ++ b0

/-- `le32(b0, b1, b2, b3)` (R10). -/
def le32 (b0 b1 b2 b3 : Byte) : Word := (b3 ++ b2) ++ (b1 ++ b0)

/-- Byte k of a value, `v[8k+7:8k]` (R10). -/
def byteOf {n : Nat} (v : BitVec n) (k : Nat) : Byte := v.extractLsb' (8 * k) 8

/-- `bytes_le(v, 2)` (R10). -/
def halfBytes (v : Half) : List Byte := [byteOf v 0, byteOf v 1]

/-- `bytes_le(v, 4)` (R10). -/
def wordBytes (v : Word) : List Byte := [byteOf v 0, byteOf v 1, byteOf v 2, byteOf v 3]

/-- `words_bytes`: the bytes of each word in turn (R165). -/
def wordsBytes (ws : List Word) : List Byte := ws.flatMap wordBytes

/-- Word k of a byte run is `le32` of its bytes 4k to 4k+3 (R63); bytes past the last whole word
make no word. -/
def wordsOf : List Byte → List Word
  | b0 :: b1 :: b2 :: b3 :: rest => le32 b0 b1 b2 b3 :: wordsOf rest
  | _ => []

end Machine

end Sys2Proof
end

