-- ==== Sys2Proof/WellFormed.lean ====
section
/-! DEFINITION. Which instructions are commands of a payload: the count is in 1..127 except for
BADCOUNT (R85, R162), space 5 is RSV5 alone (R86), and a write carries exactly its C*B data bytes
while a read carries none (R81). -/

namespace Sys2Proof

/-- How many data bytes a command with fields W, C and unit size B carries: W*C*B (R81, R82). -/
def dataBytes (write : Bool) (count : BitVec 7) (size : UnitSize) : Nat :=
  if write then count.toNat * size.bytes else 0

/-- C is in 1..127 (R85). -/
def countOk (count : BitVec 7) : Bool := count != 0#7

/-- The space is one whose info area may be selected: any but 5 (R192). -/
def infoSpaceOk (space : Space) : Bool := space != .s5

/-- The instruction is a command that a payload can hold, in the class its constructor names. -/
def Instr.wf : Instr → Bool
  | .badCount _ _ _ _ _ _ => true
  | .rsv5 w _ _ z _ c d => countOk c && d.length == dataBytes w c z
  | .iaBadWidth8 w s _ _ c d => countOk c && infoSpaceOk s && d.length == dataBytes w c .u8
  | .iaBadWidth32 w s _ _ c d => countOk c && infoSpaceOk s && d.length == dataBytes w c .u32
  | .iaBadWidth64 w s _ _ c d => countOk c && infoSpaceOk s && d.length == dataBytes w c .u64
  | .iard s _ _ c => countOk c && infoSpaceOk s
  | .iawr s _ _ c d => countOk c && infoSpaceOk s && d.length == dataBytes true c .u16
  | .rd0 _ _ _ c => countOk c
  | .wr0 _ z _ c d => countOk c && d.length == dataBytes true c z
  | .datax1 w _ z _ c d => countOk c && d.length == dataBytes w c z
  | .datax3 w _ z _ c d => countOk c && d.length == dataBytes w c z
  | .rd2 _ _ _ c => countOk c
  | .wr2 _ z _ c d => countOk c && d.length == dataBytes true c z
  | .rd4 _ _ _ c => countOk c
  | .wr4 _ z _ c d => countOk c && d.length == dataBytes true c z
  | .rd6 _ _ _ c => countOk c
  | .wr6 _ z _ c d => countOk c && d.length == dataBytes true c z
  | .rd7 _ _ _ c => countOk c
  | .wr7 _ z _ c d => countOk c && d.length == dataBytes true c z

end Sys2Proof
end

