-- ==== Sys2Proof/Decode.lean ====
section
/-! DEFINITION. The decoder: from the bytes at the payload cursor to a command and its length, or a
framing error by name (R130, R141, R86), and the encoder written from the same field table (R80,
R81). Decoding is total. -/

namespace Sys2Proof

open Machine

/-! ### Field codes (R80) -/

/-- The unit size of `transfer_size_code` Z (R80). -/
def UnitSize.ofCode (z : BitVec 2) : UnitSize :=
  match z.toNat with
  | 0 => .u8
  | 1 => .u16
  | 2 => .u32
  | _ => .u64

/-- `transfer_size_code` Z of a unit size (R80). -/
def UnitSize.code : UnitSize → BitVec 2
  | .u8 => 0#2
  | .u16 => 1#2
  | .u32 => 2#2
  | .u64 => 3#2

/-- The memory space of selector S (R80). -/
def Space.ofCode (s : BitVec 3) : Space :=
  match s.toNat with
  | 0 => .s0
  | 1 => .s1
  | 2 => .s2
  | 3 => .s3
  | 4 => .s4
  | 5 => .s5
  | 6 => .s6
  | _ => .s7

/-- The selector S of a memory space (R80). -/
def Space.code : Space → BitVec 3
  | .s0 => 0#3
  | .s1 => 1#3
  | .s2 => 2#3
  | .s3 => 3#3
  | .s4 => 4#3
  | .s5 => 5#3
  | .s6 => 6#3
  | .s7 => 7#3

/-! ### The command word (R130) -/

/-- `decode(raw)` of R130: the fields of the command word. Pure and total (R131). -/
def decodeWord (raw : Half) : Command where
  write    := raw.getLsbD 15
  hasAddr  := raw.getLsbD 14
  infoArea := raw.getLsbD 13
  space    := Space.ofCode (raw.extractLsb' 10 3)
  size     := UnitSize.ofCode (raw.extractLsb' 8 2)
  incr     := raw.getLsbD 7
  count    := raw.extractLsb' 0 7

/-- The command word with the given fields (R80): W A I S Z N C from bit 15 down. -/
def encodeWord (c : Command) : Half :=
  BitVec.ofBool c.write ++ (BitVec.ofBool c.hasAddr ++ (BitVec.ofBool c.infoArea ++
    (c.space.code ++ (c.size.code ++ (BitVec.ofBool c.incr ++ c.count)))))

/-- The number of data bytes that follow, `dlen` of R141. -/
def Command.dataLength (c : Command) : Nat := dataBytes c.write c.count c.size

/-- The number of bytes before the data, `hdr` of R141. -/
def Command.headerLength (c : Command) : Nat := if c.hasAddr then 4 else 2

/-- The command's length L = 2 + 2*A + W*C*B (R82). -/
def Command.length (c : Command) : Nat := c.headerLength + c.dataLength

/-! ### The opcode map (R86) -/

/-- The class of a command and its operands, in the order of R86 (first match wins). -/
def classify (c : Command) (addr : Option Half) (data : List Byte) : Instr :=
  if c.count = 0#7 then .badCount c.write c.infoArea c.space addr c.size c.incr
  else if c.space = .s5 then .rsv5 c.write c.infoArea addr c.size c.incr c.count data
  else if c.infoArea then
    match c.size with
    | .u8 => .iaBadWidth8 c.write c.space addr c.incr c.count data
    | .u32 => .iaBadWidth32 c.write c.space addr c.incr c.count data
    | .u64 => .iaBadWidth64 c.write c.space addr c.incr c.count data
    | .u16 =>
      if c.write then .iawr c.space addr c.incr c.count data
      else .iard c.space addr c.incr c.count
  else
    match c.space with
    | .s0 =>
      if c.write then .wr0 addr c.size c.incr c.count data else .rd0 addr c.size c.incr c.count
    | .s1 => .datax1 c.write addr c.size c.incr c.count data
    | .s2 =>
      if c.write then .wr2 addr c.size c.incr c.count data else .rd2 addr c.size c.incr c.count
    | .s3 => .datax3 c.write addr c.size c.incr c.count data
    | .s4 =>
      if c.write then .wr4 addr c.size c.incr c.count data else .rd4 addr c.size c.incr c.count
    | .s5 => .rsv5 c.write c.infoArea addr c.size c.incr c.count data
    | .s6 =>
      if c.write then .wr6 addr c.size c.incr c.count data else .rd6 addr c.size c.incr c.count
    | .s7 =>
      if c.write then .wr7 addr c.size c.incr c.count data else .rd7 addr c.size c.incr c.count

/-! ### Decoding the bytes at the cursor (R141) -/

/-- Why no command can be taken from the bytes at the cursor. -/
inductive DecodeError where
  /-- There is no byte: the payload has ended (R140); not an error of the block. -/
  | noBytes
  /-- E4: one byte remains where a command word is needed. -/
  | trailingByte
  /-- E5: A = 1 and the address field is cut off. -/
  | truncatedAddress
  /-- E6: W = 1 and the data bytes are cut off. -/
  | truncatedData
  deriving DecidableEq, Repr

/-- The address field, when the command has one, and the bytes after it (R81, R141). -/
def takeAddress (hasAddr : Bool) (rest : List Byte) : Option (Option Half × List Byte) :=
  match hasAddr, rest with
  | false, _ => some (none, rest)
  | true, a0 :: a1 :: more => some (some (le16 a0 a1), more)
  | true, _ => none

/-- `take_command`'s framing (R141): the command at the start of the bytes and its length L, or the
framing error. No byte past the end is read. -/
def decode (bytes : List Byte) : Except DecodeError (Instr × Nat) :=
  match bytes with
  | [] => .error .noBytes
  | [_] => .error .trailingByte
  | b0 :: b1 :: rest =>
    let c := decodeWord (le16 b0 b1)
    match takeAddress c.hasAddr rest with
    | none => .error .truncatedAddress
    | some (addr, more) =>
      if more.length < c.dataLength then .error .truncatedData
      else .ok (classify c addr (more.take c.dataLength), c.length)

/-! ### Encoding (R80, R81) -/

/-- The address field of an instruction. -/
def Instr.addr : Instr → Option Half
  | .badCount _ _ _ a _ _ => a
  | .rsv5 _ _ a _ _ _ _ => a
  | .iaBadWidth8 _ _ a _ _ _ => a
  | .iaBadWidth32 _ _ a _ _ _ => a
  | .iaBadWidth64 _ _ a _ _ _ => a
  | .iard _ a _ _ => a
  | .iawr _ a _ _ _ => a
  | .rd0 a _ _ _ => a
  | .wr0 a _ _ _ _ => a
  | .datax1 _ a _ _ _ _ => a
  | .datax3 _ a _ _ _ _ => a
  | .rd2 a _ _ _ => a
  | .wr2 a _ _ _ _ => a
  | .rd4 a _ _ _ => a
  | .wr4 a _ _ _ _ => a
  | .rd6 a _ _ _ => a
  | .wr6 a _ _ _ _ => a
  | .rd7 a _ _ _ => a
  | .wr7 a _ _ _ _ => a

/-- The data bytes of an instruction. -/
def Instr.data : Instr → List Byte
  | .badCount _ _ _ _ _ _ => []
  | .rsv5 _ _ _ _ _ _ d => d
  | .iaBadWidth8 _ _ _ _ _ d => d
  | .iaBadWidth32 _ _ _ _ _ d => d
  | .iaBadWidth64 _ _ _ _ _ d => d
  | .iard _ _ _ _ => []
  | .iawr _ _ _ _ d => d
  | .rd0 _ _ _ _ => []
  | .wr0 _ _ _ _ d => d
  | .datax1 _ _ _ _ _ d => d
  | .datax3 _ _ _ _ _ d => d
  | .rd2 _ _ _ _ => []
  | .wr2 _ _ _ _ d => d
  | .rd4 _ _ _ _ => []
  | .wr4 _ _ _ _ d => d
  | .rd6 _ _ _ _ => []
  | .wr6 _ _ _ _ d => d
  | .rd7 _ _ _ _ => []
  | .wr7 _ _ _ _ d => d

/-- The fields of the command word of an instruction (R80, R86). -/
def Instr.command : Instr → Command
  | .badCount w i s a z n => ⟨w, a.isSome, i, s, z, n, 0#7⟩
  | .rsv5 w i a z n c _ => ⟨w, a.isSome, i, .s5, z, n, c⟩
  | .iaBadWidth8 w s a n c _ => ⟨w, a.isSome, true, s, .u8, n, c⟩
  | .iaBadWidth32 w s a n c _ => ⟨w, a.isSome, true, s, .u32, n, c⟩
  | .iaBadWidth64 w s a n c _ => ⟨w, a.isSome, true, s, .u64, n, c⟩
  | .iard s a n c => ⟨false, a.isSome, true, s, .u16, n, c⟩
  | .iawr s a n c _ => ⟨true, a.isSome, true, s, .u16, n, c⟩
  | .rd0 a z n c => ⟨false, a.isSome, false, .s0, z, n, c⟩
  | .wr0 a z n c _ => ⟨true, a.isSome, false, .s0, z, n, c⟩
  | .datax1 w a z n c _ => ⟨w, a.isSome, false, .s1, z, n, c⟩
  | .datax3 w a z n c _ => ⟨w, a.isSome, false, .s3, z, n, c⟩
  | .rd2 a z n c => ⟨false, a.isSome, false, .s2, z, n, c⟩
  | .wr2 a z n c _ => ⟨true, a.isSome, false, .s2, z, n, c⟩
  | .rd4 a z n c => ⟨false, a.isSome, false, .s4, z, n, c⟩
  | .wr4 a z n c _ => ⟨true, a.isSome, false, .s4, z, n, c⟩
  | .rd6 a z n c => ⟨false, a.isSome, false, .s6, z, n, c⟩
  | .wr6 a z n c _ => ⟨true, a.isSome, false, .s6, z, n, c⟩
  | .rd7 a z n c => ⟨false, a.isSome, false, .s7, z, n, c⟩
  | .wr7 a z n c _ => ⟨true, a.isSome, false, .s7, z, n, c⟩

/-- The bytes of an address field (R61). -/
def addressBytes : Option Half → List Byte
  | none => []
  | some a => halfBytes a

/-- The wire bytes of an instruction, `[cmd:u16][addr:u16 if has_addr][data bytes if write]`, low
byte first (R61, R81). -/
def encode (i : Instr) : List Byte :=
  halfBytes (encodeWord i.command) ++ (addressBytes i.addr ++ i.data)

/-- How many bytes an instruction occupies in a payload (R82). -/
def Instr.length (i : Instr) : Nat := i.command.headerLength + i.data.length

/-! ### Words of the opcode table -/

/-- The bytes of an instruction whose first `nbits` bits are `w` (bit 0 the least significant bit of
the first byte); every later byte, up to the command's own length, is 0. -/
def tableWordBytes (nbits w : Nat) : List Byte :=
  let bytes := (List.range (nbits / 8)).map fun k => BitVec.ofNat 8 (w / 2 ^ (8 * k))
  bytes ++ List.replicate ((decodeWord (BitVec.ofNat 16 w)).length - bytes.length) 0#8

/-- The instruction the decoder reads from a word of the opcode table. -/
def decodeTableWord (nbits w : Nat) : Option Instr :=
  match decode (tableWordBytes nbits w) with
  | .ok (i, _) => some i
  | .error _ => none

/-! ### The opcode table as data (spec/opcode_table.json) -/

/-- The mnemonics of the opcode table. -/
inductive Mnemonic where
  | BADCOUNT | RSV5 | IA_BADWIDTH | IARD | IAWR | RD0 | WR0 | DATAX | RD2 | WR2 | RD4 | WR4
  | RD6 | WR6 | RD7 | WR7
  deriving DecidableEq, Repr

/-- One row of the opcode table: the words with `word AND mask = pattern`. -/
structure OpcodeRow where
  mnemonic : Mnemonic
  mask     : Half
  pattern  : Half
  deriving DecidableEq, Repr

/-- The rows of spec/opcode_table.json, in ascending order of their "order" (R86: the first match
wins). -/
def opcodeTable : List OpcodeRow :=
  [⟨.BADCOUNT, 0x007F, 0x0000⟩, ⟨.RSV5, 0x1C00, 0x1400⟩, ⟨.IA_BADWIDTH, 0x2300, 0x2000⟩,
    ⟨.IA_BADWIDTH, 0x2300, 0x2200⟩, ⟨.IA_BADWIDTH, 0x2300, 0x2300⟩, ⟨.IARD, 0xA300, 0x2100⟩,
    ⟨.IAWR, 0xA300, 0xA100⟩, ⟨.RD0, 0xBC00, 0x0000⟩, ⟨.WR0, 0xBC00, 0x8000⟩,
    ⟨.DATAX, 0x3C00, 0x0400⟩] ++
  [⟨.DATAX, 0x3C00, 0x0C00⟩, ⟨.RD2, 0xBC00, 0x0800⟩, ⟨.WR2, 0xBC00, 0x8800⟩,
    ⟨.RD4, 0xBC00, 0x1000⟩, ⟨.WR4, 0xBC00, 0x9000⟩, ⟨.RD6, 0xBC00, 0x1800⟩,
    ⟨.WR6, 0xBC00, 0x9800⟩, ⟨.RD7, 0xBC00, 0x1C00⟩, ⟨.WR7, 0xBC00, 0x9C00⟩]

/-- The mnemonic of the first row a command word matches. -/
def tableMnemonic (w : Half) : Option Mnemonic :=
  (opcodeTable.find? fun row => (w &&& row.mask) == row.pattern).map (·.mnemonic)

/-- The mnemonic of an instruction's row. -/
def Instr.mnemonic : Instr → Mnemonic
  | .badCount _ _ _ _ _ _ => .BADCOUNT
  | .rsv5 _ _ _ _ _ _ _ => .RSV5
  | .iaBadWidth8 _ _ _ _ _ _ => .IA_BADWIDTH
  | .iaBadWidth32 _ _ _ _ _ _ => .IA_BADWIDTH
  | .iaBadWidth64 _ _ _ _ _ _ => .IA_BADWIDTH
  | .iard _ _ _ _ => .IARD
  | .iawr _ _ _ _ _ => .IAWR
  | .rd0 _ _ _ _ => .RD0
  | .wr0 _ _ _ _ _ => .WR0
  | .datax1 _ _ _ _ _ _ => .DATAX
  | .datax3 _ _ _ _ _ _ => .DATAX
  | .rd2 _ _ _ _ => .RD2
  | .wr2 _ _ _ _ _ => .WR2
  | .rd4 _ _ _ _ => .RD4
  | .wr4 _ _ _ _ _ => .WR4
  | .rd6 _ _ _ _ => .RD6
  | .wr6 _ _ _ _ _ => .WR6
  | .rd7 _ _ _ _ => .RD7
  | .wr7 _ _ _ _ _ => .WR7

end Sys2Proof
end

