-- ==== Sys2Proof/Config.lean ====
section
/-! DEFINITION. What an implementation fixes: the constants of R7, the boot parameters of R8
(`BootParams`) and the free values (`Env`: handler and hook behaviour, transport counters, and how
far the update context moves between two accesses of the request context). The boot parameters and
the free values are opaque constants without a body: nothing can be proved about them. -/

namespace Sys2Proof

/-- The register file's cells: address and byte. What an unlisted address reads as is said by
`Machine.Memory.read` (0x00, R21). -/
abbrev Memory := List Host.Cell

/-! ### Constants the source fixes (R7) -/

/-- `RF_SIZE`: the register file has 65536 bytes, addresses 0x0000 to 0xFFFF (R7, R21). -/
def Config.rfSize : Nat := 65536

/-- `MAX_REGIONS` (R7, R24). -/
def Config.maxRegions : Nat := 8

/-- `MAX_PINS`: at most 144 pins (R7, R44, R68). -/
def Config.maxPins : Nat := 144

/-- The byte size of memory space 6: 16 words of 16 bits (R40, R42). -/
def Config.statsSize : Nat := 32

/-- The byte size of one info-area record (R30, R42). -/
def Config.infoSize : Nat := 16

/-- `LEGACY_STRICT_END`, default false (R8, R105): the machine after reset uses the inclusive,
normative end test of R104. State carries the value, so the other one is covered as well. -/
def Config.legacyStrictEnd : Bool := false

/-! ### The parameters fixed at boot (R8) -/

/-- A region (R23). The three handlers are present or absent; what a present one does is `Env`.
`name` has no effect on any rule. -/
structure Region where
  name   : String
  base   : BitVec 16
  size   : BitVec 32
  update : Bool
  write  : Bool
  read   : Bool
  deriving DecidableEq, Repr, Inhabited

/-- One entry of `REGIONS` (R8, D33): the region a subsystem registers at boot, and the state its
owner keeps for itself when the machine starts (R47, part of `HANDLERS`). -/
structure RegionDecl where
  region : Region
  owned  : List Byte
  deriving DecidableEq, Repr, Inhabited

/-- `INFO_INIT[s]` (R8, R30): the static fields of one info-area record. -/
structure InfoInit where
  cookie    : Half
  memsizes  : Half
  memranges : Half
  name      : Vector Byte 8
  deriving DecidableEq, Repr, Inhabited

/-- `BOARD` (R8, R212): the IDROM constants. -/
structure Board where
  name            : Vector Byte 8
  fpgaSize        : Word
  fpgaPins        : Word
  ioPorts         : Word
  ioWidth         : Word
  portWidth       : Word
  clockLow        : Word
  clockHigh       : Word
  instanceStride0 : Word
  instanceStride1 : Word
  registerStride0 : Word
  registerStride1 : Word
  deriving DecidableEq, Repr, Inhabited

/-- One entry of `MODULES`, in the layout of R217. -/
structure ModuleDesc where
  gtag      : Byte
  version   : Byte
  clockTag  : Byte
  instances : Byte
  base      : Half
  registers : Byte
  strides   : Byte
  multRegs  : Word
  deriving DecidableEq, Repr, Inhabited

/-- One entry of `PINS`, in the layout of R221. -/
structure PinDesc where
  secondaryPin  : Byte
  secondaryTag  : Byte
  secondaryUnit : Byte
  primaryTag    : Byte
  deriving DecidableEq, Repr, Inhabited

/-- The parameters of R8 that are fixed before boot. `SIZE_2` and `SIZE_7` are the lengths of
`image2` and `ident7`. -/
structure BootParams where
  regions : List RegionDecl
  info    : Vector InfoInit 8
  image2  : List Byte
  size4   : Nat
  ident7  : List Byte
  board   : Board
  modules : List ModuleDesc
  pins    : List PinDesc
  strictEnd : Bool
  deriving DecidableEq, Repr, Inhabited

/-! ### What comes from outside the block -/

/-- One access of an owner: a byte of its slice, read or written (R102; offsets count from the region's
base), or the state it keeps for itself, looked at or replaced (R47). -/
inductive SliceAct where
  | read  (offset : Nat)
  | write (offset : Nat) (value : Byte)
  | look
  | keep  (owned : List Byte)
  deriving DecidableEq, Repr, Inhabited

/-- What an invocation of a handler or hook does next: one more access; return, with a result of type `α`
and a status; or never return and do nothing more (R114). -/
inductive OwnerMove (α : Type) where
  | act    (a : SliceAct)
  | finish (value : α) (status : Nat)
  | stuck
  deriving DecidableEq, Repr, Inhabited

/-- What an invocation does, move by move: its next move, given the bytes each of its accesses so far has
given it, oldest first. So a byte it reads can decide everything it does afterwards (R114). -/
abbrev OwnerCode (α : Type) := List (List Byte) → OwnerMove α

/-- The block's environment. Every handler takes a fresh draw number (so that two calls are never tied
to each other), the index of its region and the call's operands; what it learns of the machine it learns
through its accesses (R102, R114). -/
structure Env where
  /-- A region's read handler, called with (offset, word count): R107, R109. -/
  readHandler  : (draw region offset n : Nat) → OwnerCode (Vector Word n)
  /-- A region's write handler, called with (offset, words): R108, R109. -/
  writeHandler : (draw region offset : Nat) → List Word → OwnerCode Unit
  /-- How many accesses a handler call makes at most; one that has not returned by then never returns
  (R114: a hang). -/
  handlerLimit : (draw : Nat) → Nat
  /-- A region's update hook: R113, R240. Its status is not looked at (R242). -/
  updateHook   : (draw region : Nat) → OwnerCode Unit
  /-- `TRANSPORT_COUNTERS` (R166): the byte a read of space-6 offset `offset` draws. -/
  transportByte : (draw offset : Nat) → Byte
  /-- How many steps the update context takes at an interleaving point of its own accord (R72, R243). -/
  updateSteps  : (point : Nat) → Nat
  /-- How many interleaving points the update context may let pass, from this one on, before it must take
  a step (weak fairness, R245). -/
  updatePatience : (point : Nat) → Nat
  deriving Inhabited

/-- Free: the read handlers' behaviour (`HANDLERS`, R8, R114). Log entry 3. -/
opaque Config.readHandler : (draw region offset n : Nat) → OwnerCode (Vector Word n)

/-- Free: the write handlers' behaviour (`HANDLERS`, R8, R114). Log entry 3. -/
opaque Config.writeHandler : (draw region offset : Nat) → List Word → OwnerCode Unit

/-- Free: how many accesses a handler call makes at most (`HANDLERS`, R8, R114). Log entry 3. -/
opaque Config.handlerLimit : (draw : Nat) → Nat

/-- Free: the update hooks' behaviour (`HANDLERS`, R8, R114). Log entry 3. -/
opaque Config.updateHook : (draw region : Nat) → OwnerCode Unit

/-- Free: `TRANSPORT_COUNTERS` (R8, R166). Log entry 5. -/
opaque Config.transportByte : (draw offset : Nat) → Byte

/-- Free: the interleaving of the two contexts (R72: any interleaving is allowed). Log entry 2. -/
opaque Config.updateSteps : (point : Nat) → Nat

/-- Free: how long the update context may stand still (R245: not for ever). Log entry 2. -/
opaque Config.updatePatience : (point : Nat) → Nat

/-- Free: the parameters of R8 for this machine. Log entry 1. -/
opaque Config.bootParams : BootParams

/-- The environment the machine runs in. -/
def Config.env : Env where
  readHandler    := Config.readHandler
  writeHandler   := Config.writeHandler
  handlerLimit   := Config.handlerLimit
  updateHook     := Config.updateHook
  transportByte  := Config.transportByte
  updateSteps    := Config.updateSteps
  updatePatience := Config.updatePatience

end Sys2Proof
end

