-- ==== Sys2Proof/Machine/Memory.lean ====
section
/-! DEFINITION. The register file as plain data (R21): a list of (address, byte) cells in one
canonical form, addresses strictly rising, none of value 0x00 (what an unlisted address reads as)
and none outside 0x0000..0xFFFF. -/

namespace Sys2Proof.Machine

/-- The byte at an address: the listed one, else 0x00 (R21, D3). -/
def Memory.read : Memory → Nat → Byte
  | [], _ => 0#8
  | (b, v) :: m, a => if b = a then v else Memory.read m a

/-- One single-byte write (R11). Writing 0x00 removes the cell. -/
def Memory.write : Memory → Nat → Byte → Memory
  | [], a, v => if v = 0#8 then [] else [(a, v)]
  | (b, w) :: m, a, v =>
    if a < b then (if v = 0#8 then (b, w) :: m else (a, v) :: (b, w) :: m)
    else if b = a then (if v = 0#8 then m else (a, v) :: m)
    else (b, w) :: Memory.write m a v

/-- Single-byte writes, one after another. -/
def Memory.writeAll (m : Memory) (cells : List Host.Cell) : Memory :=
  cells.foldl (fun m c => Memory.write m c.1 c.2) m

/-- The canonical form, from a lower bound on the addresses. -/
def Memory.wfFrom : Nat → Memory → Bool
  | _, [] => true
  | lo, (a, v) :: m =>
    decide (lo ≤ a) && decide (a < Config.rfSize) && (v != 0#8) && Memory.wfFrom (a + 1) m

/-- The canonical form of the register file. -/
def Memory.wf (m : Memory) : Bool := Memory.wfFrom 0 m

/-- The consecutive addresses a, a+1, .., a+n-1. -/
def addressRun (a n : Nat) : List Nat := (List.range n).map (a + ·)

end Sys2Proof.Machine
end

