-- ==== Sys2Proof/Machine/Descriptors.lean ====
section
/-! DEFINITION. The descriptor ROM builder (R210 to R224): the bytes it writes into the register
file at boot, and the checks of a configuration (R280 step 5). -/

namespace Sys2Proof.Machine

/-- Consecutive bytes placed from an address on. -/
def place (a : Nat) (bytes : List Byte) : List Host.Cell :=
  bytes.zipIdx.map fun p => (a + p.2, p.1)

/-- The 8 bytes of the firmware name "HOSTMOT2" (R211). -/
def firmwareName : List Byte :=
  [0x48#8, 0x4F#8, 0x53#8, 0x54#8, 0x4D#8, 0x4F#8, 0x54#8, 0x32#8]

/-- The ID block's 16 bytes: cookie, firmware name, IDROM pointer (R211). -/
def idBlockBytes : List Byte :=
  wordBytes 0x55AACAFE#32 ++ (firmwareName ++ wordBytes 0x00000400#32)

/-- The IDROM header's 64 bytes (R212 to R215). -/
def idromBytes (b : Board) : List Byte :=
  wordBytes 2#32 ++ wordBytes 0x40#32 ++ wordBytes 0x200#32 ++ b.name.toList ++
    wordBytes b.fpgaSize ++ wordBytes b.fpgaPins ++ wordBytes b.ioPorts ++ wordBytes b.ioWidth ++
    wordBytes b.portWidth ++ wordBytes b.clockLow ++ wordBytes b.clockHigh ++
    wordBytes b.instanceStride0 ++ wordBytes b.instanceStride1 ++
    wordBytes b.registerStride0 ++ wordBytes b.registerStride1

/-- A module descriptor's 12 bytes (R217). -/
def moduleBytes (m : ModuleDesc) : List Byte :=
  [m.gtag, m.version, m.clockTag, m.instances] ++ halfBytes m.base ++ [m.registers, m.strides] ++
    wordBytes m.multRegs

/-- A pin descriptor's 4 bytes (R221). -/
def pinBytes (p : PinDesc) : List Byte :=
  [p.secondaryPin, p.secondaryTag, p.secondaryUnit, p.primaryTag]

/-- The module descriptor array's bytes: the modules in order, then the all-zero sentinel (R216,
R218). -/
def moduleArrayBytes (ms : List ModuleDesc) : List Byte :=
  ms.flatMap moduleBytes ++ List.replicate 12 0#8

/-- Everything the builder writes, in its order (R210, R280 step 4). -/
def descriptorCells (c : BootParams) : List Host.Cell :=
  place 0x0100 idBlockBytes ++ place 0x0400 (idromBytes c.board) ++
    place 0x0440 (moduleArrayBytes c.modules) ++ place 0x0600 (c.pins.flatMap pinBytes)

/-- The register file after boot: 0x00 everywhere, then the builder's bytes (R21, R210). A cell that
would lie past 0xFFFF is in no register file and is left out. -/
def bootRegisterFile (c : BootParams) : Memory :=
  Memory.writeAll [] ((descriptorCells c).filter fun p => decide (p.1 < Config.rfSize))

/-- R280 step 5: at most 36 modules (R219), none with GTag 0 (R218), as many pins as
`BOARD.io_width` (R222), and `SIZE_7` at least 16 (R41); and at most `MAX_PINS` pins (R7, R68, R224). -/
def bootChecksPass (c : BootParams) : Bool :=
  decide (c.modules.length ≤ 36) && c.modules.all (fun m => m.gtag != 0#8) &&
    decide (c.pins.length = c.board.ioWidth.toNat) &&
    decide (c.pins.length ≤ Config.maxPins) && decide (16 ≤ c.ident7.length)

end Sys2Proof.Machine
end

