-- ==== Sys2Proof/Machine/Registration.lean ====
section
/-! DEFINITION. Region registration at boot (R100, R101, R280 step 3). -/

namespace Sys2Proof.Machine

/-- `register` (R100): the region joins the table at its end; with `MAX_REGIONS` regions in it the
call fails with RegistrationFull (E1, `none`). Nothing else is checked (R103). -/
def registerRegion (table : List Region) (r : Region) : Option (List Region) :=
  if table.length = Config.maxRegions then none else some (table ++ [r])

/-- Boot's registrations, each subsystem in turn; one that fails changes nothing and boot goes on
(R101, R255). The result also keeps what each registered owner starts with. -/
def registerAll : List RegionDecl → List Region → List (List Byte) → List Region × List (List Byte)
  | [], table, owners => (table, owners)
  | d :: ds, table, owners =>
    match registerRegion table d.region with
    | none => registerAll ds table owners
    | some table' => registerAll ds table' (owners ++ [d.owned])

end Sys2Proof.Machine
end

