-- ==== Sys2Proof/Machine/State.lean ====
section
/-! DEFINITION. The block's state as plain data (R20): the register file and the update context
(`Bus`, what both contexts touch), the region table, the info areas, memory spaces 2, 4, 6 and 7,
the request context, the ports, and the state after boot (R280, R281). -/

namespace Sys2Proof.Machine

/-- One info-area record (R30). Its 16 bytes are computed by `InfoRecord.bytes`. -/
structure InfoRecord where
  cookie    : Half
  memsizes  : Half
  memranges : Half
  pointer   : Half
  name      : Vector Byte 8
  deriving DecidableEq, Repr

/-- A hook that is running (R45: "that hook's own progress"): the number of its draw, and the bytes each
of its accesses so far has given it, oldest first. -/
structure HookProgress where
  draw : Nat
  seen : List (List Byte)
  deriving DecidableEq, Repr

/-- The update context (R45): the index of the region whose hook runs or is next, and the running
hook's progress. -/
structure UpdateContext where
  index : Nat
  hook  : Option HookProgress
  deriving DecidableEq, Repr

/-- A call the block makes through the owner port (R6, R109, R113): a read handler with (offset,
word count), a write handler with (offset, words), an update hook; with the region's index. -/
inductive OwnerCall where
  | read   (region offset count : Nat)
  | write  (region offset : Nat) (words : List Word)
  | update (region : Nat)
  deriving DecidableEq, Repr

/-- What both contexts touch (R265): the register file, the owners' own state and the update context; and,
the model's own fields, the calls made through the owner port so far (oldest first), the number of the
next call's draw, the number of the next interleaving point, and how many steps the update context has
taken. -/
structure Bus where
  rf     : Memory
  update : UpdateContext
  owners : List (List Byte)
  calls  : List OwnerCall
  fresh  : Nat
  points : Nat
  turns  : Nat
  deriving DecidableEq, Repr

/-- The request context (R46). -/
inductive RequestMode where
  /-- Boot refused the configuration (R280 step 5); neither context runs. -/
  | unbooted
  /-- Awaiting a payload. -/
  | idle
  /-- Processing a payload. -/
  | busy
  /-- A region handler never returned (R114): the context is stuck. -/
  | hung
  deriving DecidableEq, Repr

/-- The whole state (R20). `inbox` and `outbox` are the host port (R6): payloads delivered and not
yet taken, and reply frames sent, both oldest first. -/
structure State where
  /-- The register file, the update context and the owners. -/
  bus            : Bus
  /-- The region table, in registration order (R24). -/
  regions        : List Region
  /-- `LEGACY_STRICT_END` (R8, R105), fixed at boot. -/
  strictEnd      : Bool
  /-- The info-area table IA[0..7] (R30). -/
  info           : Vector InfoRecord 8
  /-- Memory space 2, the identity image, `SIZE_2` bytes (R38). -/
  space2         : List Byte
  /-- Memory space 4, the scratch block, `SIZE_4` bytes (R39). -/
  space4         : List Byte
  /-- Memory space 6, statistics and control, 32 bytes (R40). -/
  stats          : Vector Byte 32
  /-- Memory space 7, the board identity, `SIZE_7` bytes (R41). -/
  space7         : List Byte
  /-- Whether the request context is idle, processing, stuck or never started (R46). -/
  request        : RequestMode
  /-- The payload being processed; empty between payloads (R46). -/
  payload        : List Byte
  /-- The payload cursor `cur` (R26); 0 between payloads. -/
  cursor         : Nat
  /-- The reply accumulator (R27); empty between payloads. -/
  reply          : List Byte
  /-- The reset-request output (R48). -/
  resetRequested : Bool
  /-- Host port, in: payloads delivered and not yet taken. -/
  inbox          : List (List Byte)
  /-- Host port, out: the reply frames sent. -/
  outbox         : List (List Byte)
  /-- The number of the next draw of a transport counter (R166; the model's own field). -/
  draws          : Nat
  deriving DecidableEq, Repr

/-- Why the machine stops with a fault. The block itself has no fatal error (R250). -/
inductive Fault where
  /-- Raised by `step` when the cursor lies past the end of the payload being processed, which R26
  rules out ("a natural number no greater than len(P)"); no run from boot gets there. Safe. -/
  | cursorPastPayload
  deriving DecidableEq, Repr

/-- Why a step is refused. -/
inductive Refusal where
  /-- An instruction that has no meaning yet; raised by exec's arms only. Safe. -/
  | notModelled (mnemonic : String)
  /-- Raised by `step` when boot refused the configuration (R280 step 5; more than `MAX_PINS` pins, R7, log
  entry 16): the model has no run from an ill-formed configuration. Safe. -/
  | illFormedConfiguration
  deriving DecidableEq, Repr

/-- The record of an info area at boot: `INFO_INIT[s]`, pointer 0 (R30). -/
def InfoRecord.boot (i : InfoInit) : InfoRecord :=
  { cookie := i.cookie, memsizes := i.memsizes, memranges := i.memranges, pointer := 0#16,
    name := i.name }

/-- The state after the boot sequence of R280 with the given parameters (R281). -/
def State.boot (c : BootParams) : State where
  bus :=
    { rf     := bootRegisterFile c
      update := { index := 0, hook := none }
      owners := (registerAll c.regions [] []).2
      calls  := []
      fresh  := 0
      points := 0
      turns  := 0 }
  regions        := (registerAll c.regions [] []).1
  strictEnd      := c.strictEnd
  info           := c.info.map InfoRecord.boot
  space2         := c.image2
  space4         := List.replicate c.size4 0#8
  stats          := Vector.replicate 32 0#8
  space7         := c.ident7
  request        := if bootChecksPass c then .idle else .unbooted
  payload        := []
  cursor         := 0
  reply          := []
  resetRequested := false
  inbox          := []
  outbox         := []
  draws          := 0

/-- The machine right after reset: booted with this machine's parameters (R8), the end test the
normative one (R104, `LEGACY_STRICT_END` default false). -/
def State.reset : State :=
  State.boot { Config.bootParams with strictEnd := Config.legacyStrictEnd }

end Sys2Proof.Machine
end

