-- ==== Sys2Proof/Machine/Flags.lean ====
section
/-! DEFINITION. The block has no flags and no condition codes (R29); what takes their place is the
error taxonomy (R251) and the three error counters in words 0 to 2 of memory space 6 (R40, R254). -/

namespace Sys2Proof.Machine

/-- The error codes E1 to E13 (R251). -/
inductive ErrorCode where
  | registrationFull  -- E1
  | busUnmapped       -- E2
  | busNoHandler      -- E3
  | trailingByte      -- E4
  | truncatedAddress  -- E5
  | truncatedData     -- E6
  | badCount          -- E7
  | unsupportedSpace  -- E8
  | reservedSpace5    -- E9
  | infoAreaWidth     -- E10
  | readOnlySpace     -- E11
  | outOfRange        -- E12
  | handlerStatus     -- E13
  deriving DecidableEq, Repr

/-- The counter an error increments, as a word number of memory space 6: 0 parse-error, 1
memory-access-error, 2 write-error (R251). -/
def ErrorCode.counter : ErrorCode → Option Nat
  | .registrationFull => none
  | .busUnmapped => none
  | .busNoHandler => none
  | .trailingByte => some 0
  | .truncatedAddress => some 0
  | .truncatedData => some 0
  | .badCount => some 0
  | .unsupportedSpace => some 1
  | .reservedSpace5 => some 0
  | .infoAreaWidth => some 0
  | .readOnlySpace => some 2
  | .outOfRange => some 1
  | .handlerStatus => some 1

/-- Byte `a` of memory space 6. -/
def statsByte (m : Vector Byte 32) (a : Nat) : Byte := m.toList.getD a 0#8

/-- Word k of memory space 6, the little-endian u16 at byte offset 2k (R40). -/
def statsWord (m : Vector Byte 32) (k : Nat) : Half :=
  le16 (statsByte m (2 * k)) (statsByte m (2 * k + 1))

/-- Stores word k of memory space 6, bytes in ascending order. -/
def setStatsWord (m : Vector Byte 32) (k : Nat) (v : Half) : Vector Byte 32 :=
  (m.setIfInBounds (2 * k) (byteOf v 0)).setIfInBounds (2 * k + 1) (byteOf v 1)

/-- `count(E)` on memory space 6: the error's counter plus 1 modulo 2^16 (R254). -/
def bumpCounter (m : Vector Byte 32) (e : ErrorCode) : Vector Byte 32 :=
  match e.counter with
  | none => m
  | some k => setStatsWord m k (statsWord m k + 1#16)

/-- `count(E)` (R254). -/
def State.count (s : State) (e : ErrorCode) : State := { s with stats := bumpCounter s.stats e }

end Sys2Proof.Machine
end

