-- ==== Sys2Proof/Machine/Operands.lean ====
section
/-! DEFINITION. The operand forms: the start address from the address field or from the info-area
pointer (R84, R146), the unit addresses with and without increment (R147), the span, and the sizes
of the range check (R42, R148). -/

namespace Sys2Proof.Machine

/-- The place of a space's record in the info-area table (R30, R190). -/
def spaceIndex : Space → Fin 8
  | .s0 => 0
  | .s1 => 1
  | .s2 => 2
  | .s3 => 3
  | .s4 => 4
  | .s5 => 5
  | .s6 => 6
  | .s7 => 7

/-- `IA[S]` (R30). -/
def State.infoRecord (s : State) (sp : Space) : InfoRecord := s.info.get (spaceIndex sp)

/-- `start_address` (R146): the address field, zero-extended, or `IA[S].address_pointer` when A = 0.
The pointer is read, never written. -/
def State.startAddress (s : State) (sp : Space) (addr : Option Half) : Nat :=
  match addr with
  | some a => a.toNat
  | none => (s.infoRecord sp).pointer.toNat

/-- `span(d)`: the number of bytes from the start address that the command covers (R147). -/
def span (size : UnitSize) (incr : Bool) (count : BitVec 7) : Nat :=
  if incr then count.toNat * size.bytes else size.bytes

/-- The unit address `w_i` (R147). -/
def unitAddress (a : Nat) (size : UnitSize) (incr : Bool) (i : Nat) : Nat :=
  a + if incr then i * size.bytes else 0

/-- Every byte address the command touches, in the order of the accesses: the units in increasing i,
each unit's bytes ascending (R62, R147, R164). -/
def touched (a : Nat) (size : UnitSize) (incr : Bool) (count : BitVec 7) : List Nat :=
  (List.range count.toNat).flatMap fun i => addressRun (unitAddress a size incr i) size.bytes

/-- The range check of R148, in unbounded integers: every touched byte is inside a space of `limit`
bytes. -/
def inRange (a : Nat) (size : UnitSize) (incr : Bool) (count : BitVec 7) (limit : Nat) : Bool :=
  decide (a + span size incr count ≤ limit)

end Sys2Proof.Machine
end

