-- ==== Sys2Proof/Machine/Update.lean ====
section
/-! DEFINITION. The update context (R113, R240 to R245) and the interleaving of the two contexts
(R66, R72): the update context moves in single-byte steps, and a free number of them happens before
each single-byte access the request context or one of its handlers makes. -/

namespace Sys2Proof

/-- The byte at an offset of a region's slice is one the owner can reach: inside the region and inside the
register file (R102). -/
def Region.reaches (r : Region) (off : Nat) : Bool :=
  decide (off < r.size.toNat) && decide (r.base.toNat + off < Config.rfSize)

namespace Machine

/-- What one access gives its owner: a byte read is the byte the register file holds now (R72, R102); an
offset outside the slice reaches nothing. -/
def Bus.observe (idx : Nat) (r : Region) (b : Bus) : SliceAct → List Byte
  | .read off => if r.reaches off then [Memory.read b.rf (r.base.toNat + off)] else []
  | .write _ _ => []
  | .look => b.owners.getD idx []
  | .keep _ => []

/-- What one access of a region's owner changes (R102): a byte of its slice `rf[base .. base+size-1]`; a
write outside the slice, or past 0xFFFF, reaches nothing. The owner's own state may change (R47). -/
def Bus.act (idx : Nat) (r : Region) (b : Bus) : SliceAct → Bus
  | .read _ => b
  | .write off v =>
    if r.reaches off then { b with rf := Memory.write b.rf (r.base.toNat + off) v } else b
  | .look => b
  | .keep p => { b with owners := b.owners.set idx p }

/-- Calls the update hook of region `idx`: its accesses are the following steps (R241). -/
def Bus.startHook (idx : Nat) (b : Bus) : Bus :=
  { b with
    update := { index := idx, hook := some { draw := b.fresh, seen := [] } }
    calls  := b.calls ++ [.update idx]
    fresh  := b.fresh + 1 }

/-- The next region's turn (R113). -/
def Bus.nextRegion (b : Bus) : Bus :=
  { b with update := { index := b.update.index + 1, hook := none } }

/-- A new pass: `yield()` changes no other state (R240, R244). -/
def Bus.newPass (b : Bus) : Bus := { b with update := { index := 0, hook := none } }

/-- One step of a running hook of region `idx`, as its code says after what it has seen: its next access,
whose byte it sees at this step (R72, R241); its return; or nothing, for good (R114). -/
def Bus.hookStep (E : Env) (idx : Nat) (r : Region) (h : HookProgress) (b : Bus) : Bus :=
  match E.updateHook h.draw idx h.seen with
  | .act a =>
    { b.act idx r a with
      update := { index := idx
                  hook := some { draw := h.draw, seen := h.seen ++ [b.observe idx r a] } } }
  | .finish _ _ => b.nextRegion
  | .stuck => b

/-- What a step of the update context does (R113, R240): a running hook's next move; else the next region's
hook is called, or skipped when absent; after the last region a new pass begins. -/
def Bus.updateMove (E : Env) (regions : List Region) (b : Bus) : Bus :=
  match regions[b.update.index]?, b.update.hook with
  | none, _ => b.newPass
  | some r, some h => b.hookStep E b.update.index r h
  | some r, none => if r.update then b.startHook b.update.index else b.nextRegion

/-- One step of the update context, counted. -/
def Bus.updateStep (E : Env) (regions : List Region) (b : Bus) : Bus :=
  { b.updateMove E regions with turns := b.turns + 1 }

/-- k steps of the update context. -/
def Bus.updateRun (E : Env) (regions : List Region) : Nat → Bus → Bus
  | 0, b => b
  | k + 1, b => Bus.updateRun E regions k (b.updateStep E regions)

/-- How many interleaving points, from point d on, the update context may still let pass without a step:
its patience, drawn anew after each point at which it moves (R245). -/
def patienceLeft (E : Env) : Nat → Nat
  | 0 => E.updatePatience 0
  | d + 1 =>
    if E.updateSteps d = 0 ∧ 0 < patienceLeft E d then patienceLeft E d - 1
    else E.updatePatience (d + 1)

/-- How many steps the update context takes at interleaving point d: a free number (R72, R243), and at least
one when its patience has run out (weak fairness, R245). -/
def stepsAt (E : Env) (d : Nat) : Nat :=
  if E.updateSteps d = 0 ∧ patienceLeft E d = 0 then 1 else E.updateSteps d

/-- An interleaving point: the update context takes the point's number of steps (R72, R243). -/
def Bus.interleave (E : Env) (regions : List Region) (b : Bus) : Bus :=
  Bus.updateRun E regions (stepsAt E b.points) { b with points := b.points + 1 }

/-- The request context reads bytes of the register file, one single-byte access at a time, in the
order given (R11, R66). -/
def Bus.readBytes (E : Env) (regions : List Region) : List Nat → Bus → List Byte × Bus
  | [], b => ([], b)
  | a :: as, b =>
    let b' := b.interleave E regions
    let rest := Bus.readBytes E regions as b'
    (Memory.read b'.rf a :: rest.1, rest.2)

/-- The request context writes bytes of the register file, one single-byte access at a time, in the
order given (R11, R66). -/
def Bus.writeBytes (E : Env) (regions : List Region) : List Host.Cell → Bus → Bus
  | [], b => b
  | (a, v) :: rest, b =>
    let b' := b.interleave E regions
    Bus.writeBytes E regions rest { b' with rf := Memory.write b'.rf a v }

/-- A handler of region `idx` runs in the request context, each access one step of it (R102, R109): `limit`
is how many accesses it still makes at most, `seen` what its accesses so far have given it. The result is
what it returns, or `none` when it never does (R114). -/
def Bus.runCode {α : Type} (E : Env) (regions : List Region) (idx : Nat) (r : Region)
    (code : OwnerCode α) : (limit : Nat) → (seen : List (List Byte)) → Bus → Option (α × Nat) × Bus
  | 0, seen, b =>
    match code seen with
    | .act _ => (none, b)
    | .finish v st => (some (v, st), b)
    | .stuck => (none, b)
  | k + 1, seen, b =>
    match code seen with
    | .act a =>
      let b' := b.interleave E regions
      Bus.runCode E regions idx r code k (seen ++ [b'.observe idx r a]) (b'.act idx r a)
    | .finish v st => (some (v, st), b)
    | .stuck => (none, b)

/-- A run of region `idx`'s read handler on the given draw: called with (offset, word count). -/
def Bus.runRead (E : Env) (regions : List Region) (idx : Nat) (r : Region) (draw off n : Nat)
    (b : Bus) : Option (Vector Word n × Nat) × Bus :=
  Bus.runCode E regions idx r (E.readHandler draw idx off n) (E.handlerLimit draw) [] b

/-- A run of region `idx`'s write handler on the given draw: called with (offset, words). -/
def Bus.runWrite (E : Env) (regions : List Region) (idx : Nat) (r : Region) (draw off : Nat)
    (words : List Word) (b : Bus) : Option (Unit × Nat) × Bus :=
  Bus.runCode E regions idx r (E.writeHandler draw idx off words) (E.handlerLimit draw) [] b

/-- The owner port when a handler is called (R6, R109): the call, and the draw its behaviour is taken
from. -/
def Bus.called (b : Bus) (c : OwnerCall) : Bus :=
  { b with fresh := b.fresh + 1, calls := b.calls ++ [c] }

end Machine

end Sys2Proof
end

