-- ==== Sys2Proof/Machine/Ops.lean ====
section
/-! DEFINITION. The operations the meanings share: emitting reply bytes (R163), a Reject and a Stop
(R252, R253: what the block has in place of taking an exception) and the way back from them (R260),
space and info-area storage (R12), and direct access to the register file (R110, R165). -/

namespace Sys2Proof.Machine

/-! ### Reply, cursor and the end of a payload -/

/-- `emit(bytes)` (R13, R163). -/
def State.emit (s : State) (bytes : List Byte) : State := { s with reply := s.reply ++ bytes }

/-- `cur <- cur + k` (R13, R144). -/
def State.advance (s : State) (k : Nat) : State := { s with cursor := s.cursor + k }

/-- The request context becomes idle and holds no payload, cursor or reply (R26, R46). -/
def State.leavePayload (s : State) : State :=
  { s with request := .idle, payload := [], cursor := 0, reply := [] }

/-- The end of a payload (R163): one reply frame if the reply is non-empty, none if it is empty. -/
def State.finishPayload (s : State) : State :=
  match s.reply with
  | [] => s.leavePayload
  | _ :: _ => { s.leavePayload with outbox := s.outbox ++ [s.reply] }

/-- The request context takes a payload (R140): cursor 0, reply empty. -/
def State.takePayload (s : State) (p : List Byte) (rest : List (List Byte)) : State :=
  { s with request := .busy, payload := p, cursor := 0, reply := [], inbox := rest }

/-- `deliver` seen from outside (R6, R140): payloads arrive at the host port, behind those waiting. -/
def State.deliver (s : State) (payloads : List (List Byte)) : State :=
  { s with inbox := s.inbox ++ payloads }

/-! ### Errors: what takes the place of taking an exception and returning from one -/

/-- `raise Reject(E)` (R252): the error's counter, and nothing else. Processing resumes with the next
command (R260), whose place the cursor already holds (R144). -/
def State.reject (s : State) (e : ErrorCode) : State := s.count e

/-- `raise Stop(E)` (R253): the error's counter; the rest of the payload is not interpreted and its
reply frame is sent (R145, R163). Processing resumes with the next payload (R260). -/
def State.stop (s : State) (e : ErrorCode) : State := (s.count e).finishPayload

/-- The error code of a framing failure (R141). `noBytes` is the end of a payload, not an error;
`step` never asks for its code. -/
def framingError : DecodeError → ErrorCode
  | .noBytes => .trailingByte
  | .trailingByte => .trailingByte
  | .truncatedAddress => .truncatedAddress
  | .truncatedData => .truncatedData

/-- A nonzero handler status counts E13 once; status 0 is success (R109, R257). -/
def State.countStatus (s : State) (status : Nat) : State :=
  if status = 0 then s else s.count .handlerStatus

/-- The request context is stuck: a handler never returned (R114). -/
def State.hang (s : State) : State := { s with request := .hung }

/-! ### The update context between two accesses -/

/-- An interleaving point of the two contexts (R72). -/
def State.interleave (E : Env) (s : State) : State :=
  { s with bus := s.bus.interleave E s.regions }

/-- One step of the update context alone (R240). -/
def State.updateStep (E : Env) (s : State) : State :=
  { s with bus := s.bus.updateStep E s.regions }

/-! ### Storage of memory spaces and info areas (R12) -/

/-- The bytes a read of a space's storage gives, at the touched offsets in order (R62). -/
def spaceBytes (storage : List Byte) (offsets : List Nat) : List Byte :=
  offsets.map fun a => storage.getD a 0#8

/-- Stores data bytes at the touched offsets in order (R62). -/
def storeBytes (storage : List Byte) (cells : List Host.Cell) : List Byte :=
  cells.foldl (fun m c => m.set c.1 c.2) storage

/-- The 16 bytes of an info-area record (R30). -/
def InfoRecord.bytes (r : InfoRecord) : List Byte :=
  halfBytes r.cookie ++ (halfBytes r.memsizes ++ (halfBytes r.memranges ++
    (halfBytes r.pointer ++ r.name.toList)))

/-- An info-area write of one byte (R195): offsets 6 and 7 are the low and high byte of
`address_pointer`; any other byte of the record is left unchanged. -/
def InfoRecord.storeByte (r : InfoRecord) (c : Host.Cell) : InfoRecord :=
  if c.1 = 6 then { r with pointer := le16 c.2 (byteOf r.pointer 1) }
  else if c.1 = 7 then { r with pointer := le16 (byteOf r.pointer 0) c.2 }
  else r

/-- An info-area write of data bytes at the touched offsets in order (R195). -/
def InfoRecord.storeBytes (r : InfoRecord) (cells : List Host.Cell) : InfoRecord :=
  cells.foldl InfoRecord.storeByte r

/-- Stores data bytes in memory space 6 at the touched offsets in order (R157). -/
def statsStore (m : Vector Byte 32) (cells : List Host.Cell) : Vector Byte 32 :=
  cells.foldl (fun m c => m.setIfInBounds c.1 c.2) m

/-- A byte of words 3 to 8 of memory space 6, offsets 0x06 to 0x11 (R40, R166). -/
def isTransportByte (a : Nat) : Bool := decide (6 ≤ a) && decide (a ≤ 0x11)

/-- Reads bytes of memory space 6 (R156): a transport byte is a draw, numbered from `d`; any other
byte is the stored value. Returns the bytes and the number of the next draw. -/
def statsRead (E : Env) (m : Vector Byte 32) : List Nat → Nat → List Byte × Nat
  | [], d => ([], d)
  | a :: as, d =>
    if isTransportByte a then
      let rest := statsRead E m as (d + 1)
      (E.transportByte d a :: rest.1, rest.2)
    else
      let rest := statsRead E m as d
      (statsByte m a :: rest.1, rest.2)

/-- After a write to memory space 6 (R157): when word 14, reset-trigger, is nonzero the reset request
is raised and the request context stops, sending no reply frame. -/
def State.checkResetTrigger (s : State) : State :=
  if statsWord s.stats 14 = 0#16 then s else { s.leavePayload with resetRequested := true }

/-! ### Direct access to the register file (R110, R165) -/

/-- A direct read whose bytes go to the reply. -/
def State.directRead (E : Env) (s : State) (addrs : List Nat) : State :=
  let r := s.bus.readBytes E s.regions addrs
  { s with bus := r.2, reply := s.reply ++ r.1 }

/-- A direct write. -/
def State.directWrite (E : Env) (s : State) (cells : List Host.Cell) : State :=
  { s with bus := s.bus.writeBytes E s.regions cells }

end Sys2Proof.Machine
end

