-- ==== Sys2Proof/Machine/InfoArea.lean ====
section
/-! DEFINITION. The info-area subsystem (R190 to R197): IA_BADWIDTH, IARD and IAWR. -/

namespace Sys2Proof.Machine

/-- IA_BADWIDTH with 8-bit units (R191): Reject E10. -/
def execIaBadWidth8 (_write : Bool) (_space : Space) (_addr : Option Half) (_incr : Bool)
    (_count : BitVec 7) (_data : List Byte) (s : State) : Host.Outcome State Fault Refusal :=
  .next (s.reject .infoAreaWidth)

/-- IA_BADWIDTH with 32-bit units (R191): Reject E10. -/
def execIaBadWidth32 (_write : Bool) (_space : Space) (_addr : Option Half) (_incr : Bool)
    (_count : BitVec 7) (_data : List Byte) (s : State) : Host.Outcome State Fault Refusal :=
  .next (s.reject .infoAreaWidth)

/-- IA_BADWIDTH with 64-bit units (R191): Reject E10. -/
def execIaBadWidth64 (_write : Bool) (_space : Space) (_addr : Option Half) (_incr : Bool)
    (_count : BitVec 7) (_data : List Byte) (s : State) : Host.Outcome State Fault Refusal :=
  .next (s.reject .infoAreaWidth)

/-- Writes a record back into the info-area table. -/
def State.setInfoRecord (s : State) (sp : Space) (r : InfoRecord) : State :=
  { s with info := s.info.set (spaceIndex sp) r }

/-- The effect of IARD (R194) with the range check against the 16-byte record (R193). -/
def State.infoRead (s : State) (sp : Space) (addr : Option Half) (incr : Bool)
    (count : BitVec 7) : State :=
  let a := s.startAddress sp addr
  if inRange a .u16 incr count Config.infoSize then
    s.emit (spaceBytes (s.infoRecord sp).bytes (touched a .u16 incr count))
  else s.reject .outOfRange

/-- The effect of IAWR (R195): only the address pointer's bytes change. -/
def State.infoWrite (s : State) (sp : Space) (addr : Option Half) (incr : Bool)
    (count : BitVec 7) (data : List Byte) : State :=
  let a := s.startAddress sp addr
  if inRange a .u16 incr count Config.infoSize then
    s.setInfoRecord sp ((s.infoRecord sp).storeBytes ((touched a .u16 incr count).zip data))
  else s.reject .outOfRange

/-- IARD (R194). -/
def execIard (space : Space) (addr : Option Half) (incr : Bool) (count : BitVec 7) (s : State) :
    Host.Outcome State Fault Refusal :=
  .next (s.infoRead space addr incr count)

/-- IAWR (R195). -/
def execIawr (space : Space) (addr : Option Half) (incr : Bool) (count : BitVec 7)
    (data : List Byte) (s : State) : Host.Outcome State Fault Refusal :=
  .next (s.infoWrite space addr incr count data)

end Sys2Proof.Machine
end

