-- ==== Sys2Proof/Machine/Bus.lean ====
section
/-! DEFINITION. The register bus (R104 to R112): containment, resolution, `bus_read`, `bus_write`, and
the dispatcher's access to memory space 0 over them with the direct fallback (R165). -/

namespace Sys2Proof

/-- Containment of a transfer of n words at byte address a (R104), in unbounded integers; with
`LEGACY_STRICT_END` the end test is strict (R105). -/
def Region.contains (strictEnd : Bool) (r : Region) (a n : Nat) : Bool :=
  decide (r.base.toNat ≤ a) &&
    (if strictEnd then decide (a + 4 * n < r.base.toNat + r.size.toNat)
     else decide (a + 4 * n ≤ r.base.toNat + r.size.toNat))

namespace Machine

/-- `resolve` (R106): the first region, in registration order, that contains the whole transfer, with
its index. -/
def resolve (strictEnd : Bool) (regions : List Region) (a n : Nat) : Option (Region × Nat) :=
  regions.zipIdx.find? fun p => Region.contains strictEnd p.1 a n

/-- What a bus operation gives: `Unmapped` (E2), `NoHandler` (E3), the handler's result and status,
or nothing ever (the handler hangs). -/
inductive BusReply (α : Type) where
  | unmapped
  | noHandler
  | returned (value : α) (status : Nat)
  | hung
  deriving DecidableEq, Repr

/-- What the bus hands back when a handler was called. -/
def BusReply.ofResult {α β : Type} (f : α → β) : Option (α × Nat) → BusReply β
  | none => .hung
  | some (x, st) => .returned (f x) st

/-- Calls region `idx`'s read handler with (addr - base, n) and runs it to completion (R107, R109). -/
def State.callRead (E : Env) (s : State) (r : Region) (idx a n : Nat) :
    BusReply (List Word) × State :=
  let b := s.bus.interleave E s.regions
  let off := a - r.base.toNat
  let run := Bus.runRead E s.regions idx r b.fresh off n (b.called (.read idx off n))
  (BusReply.ofResult Vector.toList run.1, { s with bus := run.2 })

/-- Calls region `idx`'s write handler with (addr - base, words) and runs it to completion (R108,
R109). -/
def State.callWrite (E : Env) (s : State) (r : Region) (idx a : Nat) (words : List Word) :
    BusReply Unit × State :=
  let b := s.bus.interleave E s.regions
  let off := a - r.base.toNat
  let run := Bus.runWrite E s.regions idx r b.fresh off words (b.called (.write idx off words))
  (BusReply.ofResult id run.1, { s with bus := run.2 })

/-- `bus_read` (R107). -/
def State.busRead (E : Env) (s : State) (a n : Nat) : BusReply (List Word) × State :=
  match resolve s.strictEnd s.regions a n with
  | none => (.unmapped, s)
  | some (r, idx) => if r.read then s.callRead E r idx a n else (.noHandler, s)

/-- `bus_write` (R108). -/
def State.busWrite (E : Env) (s : State) (a : Nat) (words : List Word) : BusReply Unit × State :=
  match resolve s.strictEnd s.regions a words.length with
  | none => (.unmapped, s)
  | some (r, idx) => if r.write then s.callWrite E r idx a words else (.noHandler, s)

/-- `emit(words_bytes(read_words(a, n)))` (R165): one bus call; on `Unmapped` or `NoHandler` the words
are read directly (R110). -/
def State.readTransfer (E : Env) (s : State) (a n : Nat) : State :=
  match s.busRead E a n with
  | (.returned words st, t) => (t.countStatus st).emit (wordsBytes words)
  | (.hung, t) => t.hang
  | (.unmapped, t) =>
    let r := t.bus.readBytes E t.regions (addressRun a (4 * n))
    State.emit { t with bus := r.2 } (wordsBytes (wordsOf r.1))
  | (.noHandler, t) =>
    let r := t.bus.readBytes E t.regions (addressRun a (4 * n))
    State.emit { t with bus := r.2 } (wordsBytes (wordsOf r.1))

/-- `write_words(a, E)` (R165): one bus call with the words of the data; on `Unmapped` or `NoHandler`
they are written directly (R110). -/
def State.writeTransfer (E : Env) (s : State) (a : Nat) (data : List Byte) : State :=
  let words := wordsOf data
  match s.busWrite E a words with
  | (.returned _ st, t) => t.countStatus st
  | (.hung, t) => t.hang
  | (.unmapped, t) =>
    t.directWrite E ((addressRun a (4 * words.length)).zip (wordsBytes words))
  | (.noHandler, t) =>
    t.directWrite E ((addressRun a (4 * words.length)).zip (wordsBytes words))

/-- C transfers of n words at one address, one bus call per unit (R164, R165); a handler that hangs
ends them. -/
def State.readTransfers (E : Env) (a n : Nat) : Nat → State → State
  | 0, s => s
  | k + 1, s =>
    let t := s.readTransfer E a n
    if t.request = .hung then t else State.readTransfers E a n k t

/-- One write transfer per unit of B bytes of the data, at one address (R164, R165); a handler that
hangs ends them. -/
def State.writeTransfers (E : Env) (a B : Nat) : Nat → List Byte → State → State
  | 0, _, s => s
  | k + 1, data, s =>
    let t := s.writeTransfer E a (data.take B)
    if t.request = .hung then t else State.writeTransfers E a B k (data.drop B) t

/-- The unit is a whole number of bus words: 4 or 8 bytes (R65, R165). -/
def busUnit : UnitSize → Bool
  | .u8 => false
  | .u16 => false
  | .u32 => true
  | .u64 => true

/-- `space0_read` (R165). -/
def State.space0Read (E : Env) (s : State) (a : Nat) (size : UnitSize) (incr : Bool)
    (count : BitVec 7) : State :=
  if busUnit size then
    if incr then s.readTransfer E a (count.toNat * size.bytes / 4)
    else State.readTransfers E a (size.bytes / 4) count.toNat s
  else s.directRead E (touched a size incr count)

/-- `space0_write` (R165). -/
def State.space0Write (E : Env) (s : State) (a : Nat) (size : UnitSize) (incr : Bool)
    (count : BitVec 7) (data : List Byte) : State :=
  if busUnit size then
    if incr then s.writeTransfer E a data
    else State.writeTransfers E a size.bytes count.toNat data s
  else s.directWrite E ((touched a size incr count).zip data)

end Machine

end Sys2Proof
end

