-- ==== Sys2Proof/Machine/RegisterBus.lean ====
section
/-! DEFINITION. Memory space 0, the register bus: RD0 (R150) and WR0 (R151). -/

namespace Sys2Proof.Machine

/-- The effect of RD0 (R150): the range check (R148), then `space0_read` (R165). -/
def State.read0 (E : Env) (s : State) (addr : Option Half) (size : UnitSize) (incr : Bool)
    (count : BitVec 7) : State :=
  let a := s.startAddress .s0 addr
  if inRange a size incr count Config.rfSize then s.space0Read E a size incr count
  else s.reject .outOfRange

/-- The effect of WR0 (R151): the range check (R148), then `space0_write` (R165). -/
def State.write0 (E : Env) (s : State) (addr : Option Half) (size : UnitSize) (incr : Bool)
    (count : BitVec 7) (data : List Byte) : State :=
  let a := s.startAddress .s0 addr
  if inRange a size incr count Config.rfSize then s.space0Write E a size incr count data
  else s.reject .outOfRange

/-- RD0 (R150). -/
def execRd0 (addr : Option Half) (size : UnitSize) (incr : Bool) (count : BitVec 7) (s : State) :
    Host.Outcome State Fault Refusal :=
  .next (s.read0 Config.env addr size incr count)

/-- WR0 (R151). -/
def execWr0 (addr : Option Half) (size : UnitSize) (incr : Bool) (count : BitVec 7)
    (data : List Byte) (s : State) : Host.Outcome State Fault Refusal :=
  .next (s.write0 Config.env addr size incr count data)

end Sys2Proof.Machine
end

