-- ==== Sys2Proof/Machine/Reserved.lean ====
section
/-! DEFINITION. The classes that the command word alone rejects: BADCOUNT (R162) and RSV5 (R161). -/

namespace Sys2Proof.Machine

/-- BADCOUNT (R162): Reject E7; the parse-error counter counts it. -/
def execBadCount (_write _infoArea : Bool) (_space : Space) (_addr : Option Half)
    (_size : UnitSize) (_incr : Bool) (s : State) : Host.Outcome State Fault Refusal :=
  .next (s.reject .badCount)

/-- RSV5 (R161, R192): Reject E9; the parse-error counter counts it. -/
def execRsv5 (_write _infoArea : Bool) (_addr : Option Half) (_size : UnitSize) (_incr : Bool)
    (_count : BitVec 7) (_data : List Byte) (s : State) : Host.Outcome State Fault Refusal :=
  .next (s.reject .reservedSpace5)

end Sys2Proof.Machine
end

