-- ==== Sys2Proof/Machine/Spaces.lean ====
section
/-! DEFINITION. The memory spaces with plain storage: RD2 and WR2 (R152, R153), RD4 and WR4 (R154,
R155), RD7 and WR7 (R158, R159), and DATAX, the spaces without data (R160). -/

namespace Sys2Proof.Machine

/-- A read of a space's storage (R152, R154, R158): the range check against its size (R42, R148), then
the bytes of every unit in order go to the reply. -/
def State.spaceRead (s : State) (sp : Space) (storage : List Byte) (addr : Option Half)
    (size : UnitSize) (incr : Bool) (count : BitVec 7) : State :=
  let a := s.startAddress sp addr
  if inRange a size incr count storage.length then
    s.emit (spaceBytes storage (touched a size incr count))
  else s.reject .outOfRange

/-- The effect of WR4 (R155). -/
def State.write4 (s : State) (addr : Option Half) (size : UnitSize) (incr : Bool)
    (count : BitVec 7) (data : List Byte) : State :=
  let a := s.startAddress .s4 addr
  if inRange a size incr count s.space4.length then
    { s with space4 := storeBytes s.space4 ((touched a size incr count).zip data) }
  else s.reject .outOfRange

/-- RD2 (R152). -/
def execRd2 (addr : Option Half) (size : UnitSize) (incr : Bool) (count : BitVec 7) (s : State) :
    Host.Outcome State Fault Refusal :=
  .next (s.spaceRead .s2 s.space2 addr size incr count)

/-- WR2 (R153): Reject E11, whatever the EEPROM-write-enable word holds (R38). -/
def execWr2 (_addr : Option Half) (_size : UnitSize) (_incr : Bool) (_count : BitVec 7)
    (_data : List Byte) (s : State) : Host.Outcome State Fault Refusal :=
  .next (s.reject .readOnlySpace)

/-- RD4 (R154). -/
def execRd4 (addr : Option Half) (size : UnitSize) (incr : Bool) (count : BitVec 7) (s : State) :
    Host.Outcome State Fault Refusal :=
  .next (s.spaceRead .s4 s.space4 addr size incr count)

/-- WR4 (R155). -/
def execWr4 (addr : Option Half) (size : UnitSize) (incr : Bool) (count : BitVec 7)
    (data : List Byte) (s : State) : Host.Outcome State Fault Refusal :=
  .next (s.write4 addr size incr count data)

/-- RD7 (R158). -/
def execRd7 (addr : Option Half) (size : UnitSize) (incr : Bool) (count : BitVec 7) (s : State) :
    Host.Outcome State Fault Refusal :=
  .next (s.spaceRead .s7 s.space7 addr size incr count)

/-- WR7 (R159): Reject E11. -/
def execWr7 (_addr : Option Half) (_size : UnitSize) (_incr : Bool) (_count : BitVec 7)
    (_data : List Byte) (s : State) : Host.Outcome State Fault Refusal :=
  .next (s.reject .readOnlySpace)

/-- DATAX, memory space 1 (R160): Reject E8. -/
def execDatax1 (_write : Bool) (_addr : Option Half) (_size : UnitSize) (_incr : Bool)
    (_count : BitVec 7) (_data : List Byte) (s : State) : Host.Outcome State Fault Refusal :=
  .next (s.reject .unsupportedSpace)

/-- DATAX, memory space 3 (R160): Reject E8. -/
def execDatax3 (_write : Bool) (_addr : Option Half) (_size : UnitSize) (_incr : Bool)
    (_count : BitVec 7) (_data : List Byte) (s : State) : Host.Outcome State Fault Refusal :=
  .next (s.reject .unsupportedSpace)

end Sys2Proof.Machine
end

