-- ==== Sys2Proof/Machine/Stats.lean ====
section
/-! DEFINITION. Memory space 6, statistics and control: RD6 (R156) and WR6 (R157). -/

namespace Sys2Proof.Machine

/-- The effect of RD6 (R156). -/
def State.read6 (E : Env) (s : State) (addr : Option Half) (size : UnitSize) (incr : Bool)
    (count : BitVec 7) : State :=
  let a := s.startAddress .s6 addr
  if inRange a size incr count Config.statsSize then
    let r := statsRead E s.stats (touched a size incr count) s.draws
    { s with reply := s.reply ++ r.1, draws := r.2 }
  else s.reject .outOfRange

/-- The effect of WR6 (R157): the units are stored, then the reset-trigger word is looked at. -/
def State.write6 (s : State) (addr : Option Half) (size : UnitSize) (incr : Bool)
    (count : BitVec 7) (data : List Byte) : State :=
  let a := s.startAddress .s6 addr
  if inRange a size incr count Config.statsSize then
    State.checkResetTrigger
      { s with stats := statsStore s.stats ((touched a size incr count).zip data) }
  else s.reject .outOfRange

/-- RD6 (R156). -/
def execRd6 (addr : Option Half) (size : UnitSize) (incr : Bool) (count : BitVec 7) (s : State) :
    Host.Outcome State Fault Refusal :=
  .next (s.read6 Config.env addr size incr count)

/-- WR6 (R157). -/
def execWr6 (addr : Option Half) (size : UnitSize) (incr : Bool) (count : BitVec 7)
    (data : List Byte) (s : State) : Host.Outcome State Fault Refusal :=
  .next (s.write6 addr size incr count data)

end Sys2Proof.Machine
end

