-- ==== Sys2Proof/Machine/Dispatch.lean ====
section
/-! DEFINITION. One arm per constructor of Instr: the class rule that executes or rejects the command
(R86, R142). -/

namespace Sys2Proof.Machine

def exec (i : Instr) (s : State) : Host.Outcome State Fault Refusal :=
  match i with
  | .badCount w ia sp a z n => Sys2Proof.Machine.execBadCount w ia sp a z n s
  | .rsv5 w ia a z n c d => Sys2Proof.Machine.execRsv5 w ia a z n c d s
  | .iaBadWidth8 w sp a n c d => Sys2Proof.Machine.execIaBadWidth8 w sp a n c d s
  | .iaBadWidth32 w sp a n c d => Sys2Proof.Machine.execIaBadWidth32 w sp a n c d s
  | .iaBadWidth64 w sp a n c d => Sys2Proof.Machine.execIaBadWidth64 w sp a n c d s
  | .iard sp a n c => Sys2Proof.Machine.execIard sp a n c s
  | .iawr sp a n c d => Sys2Proof.Machine.execIawr sp a n c d s
  | .rd0 a z n c => Sys2Proof.Machine.execRd0 a z n c s
  | .wr0 a z n c d => Sys2Proof.Machine.execWr0 a z n c d s
  | .datax1 w a z n c d => Sys2Proof.Machine.execDatax1 w a z n c d s
  | .datax3 w a z n c d => Sys2Proof.Machine.execDatax3 w a z n c d s
  | .rd2 a z n c => Sys2Proof.Machine.execRd2 a z n c s
  | .wr2 a z n c d => Sys2Proof.Machine.execWr2 a z n c d s
  | .rd4 a z n c => Sys2Proof.Machine.execRd4 a z n c s
  | .wr4 a z n c d => Sys2Proof.Machine.execWr4 a z n c d s
  | .rd6 a z n c => Sys2Proof.Machine.execRd6 a z n c s
  | .wr6 a z n c d => Sys2Proof.Machine.execWr6 a z n c d s
  | .rd7 a z n c => Sys2Proof.Machine.execRd7 a z n c s
  | .wr7 a z n c d => Sys2Proof.Machine.execWr7 a z n c d s

end Sys2Proof.Machine
end

