-- ==== Sys2Proof/Machine/Step.lean ====
section
/-! DEFINITION. One step of the block (R140 to R145, R240): the request context takes a payload, or one
command of the payload it is processing, or ends it; the update context takes a free number of
steps first. When the request context has nothing to do, or has stopped, the update context takes
one step. -/

namespace Sys2Proof.Machine

/-- One command, or the end, of the payload being processed (R140, R141). -/
def requestStep (s : State) : Host.Outcome State Fault Refusal :=
  if s.payload.length < s.cursor then .fault .cursorPastPayload
  else
    match decode (s.payload.drop s.cursor) with
    | .error .noBytes => .next (s.interleave Config.env).finishPayload
    | .error e => .next ((s.interleave Config.env).stop (framingError e))
    | .ok (i, len) => exec i ((s.interleave Config.env).advance len)

/-- One step. After a reset request the request context takes no step (R140, R283). -/
def step (s : State) : Host.Outcome State Fault Refusal :=
  match s.request with
  | .unbooted => .refused .illFormedConfiguration
  | .hung => .next (s.updateStep Config.env)
  | .idle =>
    if s.resetRequested then .next (s.updateStep Config.env)
    else
      match s.inbox with
      | [] => .next (s.updateStep Config.env)
      | p :: rest => .next ((s.interleave Config.env).takePayload p rest)
  | .busy => if s.resetRequested then .next (s.updateStep Config.env) else requestStep s

/-- The state with an instruction placed where the next step takes its command: the payload's bytes
from the cursor on become the instruction's bytes, and the request context is processing. -/
def State.withFetchWord (s : State) (nbits w : Nat) : State :=
  { s with
    request := .busy
    payload := s.payload.take s.cursor ++ tableWordBytes nbits w
    cursor  := (s.payload.take s.cursor).length
    resetRequested := false }

end Sys2Proof.Machine
end

