-- ==== Sys2Proof/Safety.lean ====
section
/-! DEFINITION. The terms the statements use: the invariant of a booted machine, which bytes the update
context or an owner may touch, and when a command of memory space 0 reaches no handler. -/

namespace Sys2Proof

/-- The byte addresses a region covers (R23). -/
abbrev Region.covers (r : Region) (x : Nat) : Prop :=
  r.base.toNat ≤ x ∧ x < r.base.toNat + r.size.toNat

namespace Machine

/-- Byte x of the register file (R11). -/
def State.rfByte (s : State) (x : Nat) : Byte := Memory.read s.bus.rf x

/-- The place, in a write's data, of the byte that ends up at offset x of the touched range: with
increment the one x - a bytes in, without it the one in the last unit (R62, R147, R164). -/
def finalIndex (a : Nat) (size : UnitSize) (incr : Bool) (count : BitVec 7) (x : Nat) : Nat :=
  if incr then x - a else (count.toNat - 1) * size.bytes + (x - a)

/-- The byte offset x holds after a command's data is stored from start address a on, where it held
`before`: the last data byte that goes to it, or what it held. -/
def afterStore (a : Nat) (size : UnitSize) (incr : Bool) (count : BitVec 7) (data : List Byte)
    (x : Nat) (before : Byte) : Byte :=
  if a ≤ x ∧ x < a + span size incr count then data.getD (finalIndex a size incr count x) 0#8
  else before

/-- `bytes` are what a read of C units of B bytes from start address a replies, where `byte` is the
space read: unit i gives the bytes at `w_i` to `w_i + B - 1` in ascending order (R62, R147). -/
def repliesUnits (a : Nat) (size : UnitSize) (incr : Bool) (count : BitVec 7) (byte : Nat → Byte)
    (bytes : List Byte) : Prop :=
  bytes.length = count.toNat * size.bytes ∧
    ∀ i < count.toNat, ∀ j < size.bytes,
      bytes[i * size.bytes + j]? = some (byte (a + (if incr then i * size.bytes else 0) + j))

/-- From s to t nothing changes but word k of memory space 6, which counts one error more, modulo
2^16 (R252, R254). -/
def State.onlyCounts (s t : State) (k : Nat) : Prop :=
  t = { s with stats := t.stats } ∧ statsWord t.stats k = statsWord s.stats k + 1#16 ∧
    ∀ j < 32, j ≠ 2 * k → j ≠ 2 * k + 1 → statsByte t.stats j = statsByte s.stats j

/-- No region covers the byte: neither a hook nor a handler reaches it (R22, R102). -/
abbrev State.unowned (s : State) (x : Nat) : Prop := ∀ r ∈ s.regions, ¬ r.covers x

/-- No update hook reaches the byte: no region with a hook covers it, nor does the region whose hook
is running. So no hook writes it, whatever the hooks do (`State.hookFree.hooksSpare`). -/
abbrev State.hookFree (s : State) (x : Nat) : Prop :=
  (∀ r ∈ s.regions, r.update = true → ¬ r.covers x) ∧
    (s.bus.update.hook.isSome = true →
      ∀ r ∈ s.regions[s.bus.update.index]?, ¬ r.covers x)

/-- No update hook writes the byte, whatever else it does: whenever the hook of a region that has one, or that
is running one, makes a write inside its slice, it writes another byte (R102, R113). -/
def Bus.hooksSpare (E : Env) (regions : List Region) (b : Bus) (x : Nat) : Prop :=
  ∀ (idx : Nat) (r : Region), regions[idx]? = some r →
    (r.update = true ∨ b.update.index = idx ∧ b.update.hook.isSome = true) →
    ∀ draw seen off v, E.updateHook draw idx seen = .act (.write off v) →
      ¬ (off < r.size.toNat ∧ r.base.toNat + off = x)

/-- No update hook writes byte x of the register file. -/
abbrev State.hooksSpare (E : Env) (s : State) (x : Nat) : Prop := s.bus.hooksSpare E s.regions x

/-- The transfer of n words at a reaches no handler of the wanted kind (R110): no region contains it,
or the first that does lacks the handler. -/
abbrev State.servedDirectly (s : State) (wants : Region → Bool) (a n : Nat) : Prop :=
  ∀ p ∈ resolve s.strictEnd s.regions a n, wants p.1 = false

/-- The number of words of one bus call of a command with 4- or 8-byte units (R165). -/
def callWords (size : UnitSize) (incr : Bool) (count : BitVec 7) : Nat :=
  if incr then count.toNat * size.bytes / 4 else size.bytes / 4

/-- A read of space 0 reaches no read handler: its units are bytes or halves, or its bus calls fall
back to direct access (R165). -/
abbrev State.readsDirectly (s : State) (a : Nat) (size : UnitSize) (incr : Bool)
    (count : BitVec 7) : Prop :=
  busUnit size = true → s.servedDirectly (·.read) a (callWords size incr count)

/-- A write of space 0 reaches no write handler (R165). -/
abbrev State.writesDirectly (s : State) (a : Nat) (size : UnitSize) (incr : Bool)
    (count : BitVec 7) : Prop :=
  busUnit size = true → s.servedDirectly (·.write) a (callWords size incr count)

/-- The handler calls among the calls of the owner port: a hook's call is none (R109, R113). -/
def handlerCalls (calls : List OwnerCall) : List OwnerCall :=
  calls.filter fun
    | .read _ _ _ => true
    | .write _ _ _ => true
    | .update _ => false

/-- The handler calls the block has made so far, oldest first. -/
def State.handlerCalls (s : State) : List OwnerCall := Machine.handlerCalls s.bus.calls

/-- The little-endian u32 at an address of the register file (R60). -/
def State.rfWord (s : State) (a : Nat) : Word :=
  le32 (s.rfByte a) (s.rfByte (a + 1)) (s.rfByte (a + 2)) (s.rfByte (a + 3))

/-- From s to t: the register file and what else both contexts touch may change, the reply may grow, the
memory-access counter may count, and the request context may hang; nothing else changes. -/
def State.onlyBusAndReply (s t : State) : Prop :=
  t = { s with bus := t.bus, reply := t.reply, stats := t.stats, request := t.request } ∧
    (t.request = s.request ∨ t.request = .hung) ∧ s.reply <+: t.reply ∧
    ∀ j < 32, j ≠ 2 → j ≠ 3 → statsByte t.stats j = statsByte s.stats j

/-- What a handler's status does to memory space 6, from m to m': status 0 nothing; any other counts one
memory-access error modulo 2^16, and changes no other byte (R109, R257). -/
def countsStatus (m m' : Vector Byte 32) (st : Nat) : Prop :=
  (st = 0 → m' = m) ∧
  (st ≠ 0 → statsWord m' 1 = statsWord m 1 + 1#16 ∧
    ∀ j < 32, j ≠ 2 → j ≠ 3 → statsByte m' j = statsByte m j)

/-- A read transfer of n words at a, served by region `idx`'s read handler, takes s to t (R107, R109, R165):
one call with the byte offset and the word count; if it returns, its words go to the reply, little-endian,
and its status is counted; if it never does, the request context is stuck. Nothing else changes but the
bus, which is as the handler's run leaves it. -/
def State.servedRead (E : Env) (r : Region) (idx a n : Nat) (s t : State) : Prop :=
  let off := a - r.base.toNat
  let b := s.bus.interleave E s.regions
  let run := Bus.runRead E s.regions idx r b.fresh off n (b.called (.read idx off n))
  t.bus = run.2 ∧ t.handlerCalls = s.handlerCalls ++ [.read idx off n] ∧
  (∀ words st, run.1 = some (words, st) →
    t = { s with bus := t.bus, reply := s.reply ++ wordsBytes words.toList, stats := t.stats } ∧
    countsStatus s.stats t.stats st) ∧
  (run.1 = none → t = { s with bus := t.bus, request := .hung })

/-- A write transfer of the data at a, served by region `idx`'s write handler, takes s to t (R108, R109,
R165): one call with the byte offset and the data's words; its status is counted; if it never returns, the
request context is stuck. Nothing else changes but the bus, which is as the handler's run leaves it: the
bus itself stores nothing. -/
def State.servedWrite (E : Env) (r : Region) (idx a : Nat) (data : List Byte) (s t : State) : Prop :=
  let off := a - r.base.toNat
  let b := s.bus.interleave E s.regions
  let run := Bus.runWrite E s.regions idx r b.fresh off (wordsOf data)
    (b.called (.write idx off (wordsOf data)))
  t.bus = run.2 ∧ t.handlerCalls = s.handlerCalls ++ [.write idx off (wordsOf data)] ∧
  (∀ st, run.1 = some ((), st) →
    t = { s with bus := t.bus, stats := t.stats } ∧ countsStatus s.stats t.stats st) ∧
  (run.1 = none → t = { s with bus := t.bus, request := .hung })

/-- One access of region `idx`'s owner takes the bus from b to b' and gives the owner the bytes `given` (R47,
R72, R102): a read of its slice gives the byte the register file holds; a write changes that byte and no
other; an offset outside the slice, or past 0xFFFF, gives and changes nothing; a look gives the region's own
private state, and a replacement changes that one alone. Nothing else changes. -/
def Bus.accessed (idx : Nat) (r : Region) (a : SliceAct) (given : List Byte) (b b' : Bus) : Prop :=
  let inSlice := fun off => off < r.size.toNat ∧ r.base.toNat + off < 65536
  match a with
  | .read off => b' = b ∧
      (inSlice off → given = [Memory.read b.rf (r.base.toNat + off)]) ∧ (¬ inSlice off → given = [])
  | .write off v => given = [] ∧ b' = { b with rf := b'.rf } ∧ Memory.wf b'.rf = true ∧
      ∀ x, Memory.read b'.rf x =
        if inSlice off ∧ x = r.base.toNat + off then v else Memory.read b.rf x
  | .look => b' = b ∧ given = b.owners.getD idx []
  | .keep p => given = [] ∧ b' = { b with owners := b'.owners } ∧
      ∀ j : Nat, b'.owners[j]? = if j = idx then b.owners[j]?.map fun _ => p else b.owners[j]?

/-- The hook's invocation comes to its end: it is never stuck, and after K accesses it returns, whatever
they have given it. -/
def OwnerCode.returns {α : Type} (code : OwnerCode α) : Prop :=
  ∃ K : Nat, ∀ seen : List (List Byte),
    code seen ≠ .stuck ∧ (K ≤ seen.length → ∃ v st, code seen = .finish v st)

/-- The handler's invocation makes no write of its region's bytes, whatever its accesses give it. -/
def OwnerCode.writesNothing {α : Type} (code : OwnerCode α) : Prop :=
  ∀ seen off v, code seen ≠ .act (.write off v)

/-- The machine's run: the state after k steps, where the payloads `arrive j` reach the host port before
step j; none when a step does not answer a next state. -/
def State.runFor (arrive : Nat → List (List Byte)) : Nat → State → Option State
  | 0, s => some s
  | k + 1, s =>
    match State.runFor arrive k s with
    | none => none
    | some t =>
      match step (t.deliver (arrive k)) with
      | .next u => some u
      | .fault _ => none
      | .refused _ => none

/-- What holds of the block from boot on: the register file is canonical (R21); at most 8 regions, each
with its owner (R24); the update context is at a region or at the end of a pass, and a hook runs only
where there is one (R45, R113); the cursor is inside the payload (R26); an idle context holds no
payload (R46); and the reset request is up exactly when the reset-trigger word is nonzero, with the
request context idle for good (R157, R268). -/
structure State.Inv (s : State) : Prop where
  canonical : Memory.wf s.bus.rf = true
  tableFits : s.regions.length ≤ Config.maxRegions
  owners    : s.bus.owners.length = s.regions.length
  position  : s.bus.update.index ≤ s.regions.length
  hookHere  : s.bus.update.hook.isSome = true →
    ∃ r ∈ s.regions[s.bus.update.index]?, r.update = true
  cursor    : s.cursor ≤ s.payload.length
  idleEmpty : s.request = .idle ∨ s.request = .unbooted →
    s.payload = [] ∧ s.cursor = 0 ∧ s.reply = []
  stopped   : s.resetRequested = true → s.request = .idle ∨ s.request = .unbooted
  trigger   : s.resetRequested = true ↔ statsWord s.stats 14 ≠ 0#16

end Machine

end Sys2Proof
end

