-- ==== Sys2Proof/Certificates/Slice0/Obligations.lean ====
section
/-! DEFINITION. The statements about the model. Each docstring names the rules of spec/ that a statement
follows. Where a rule is the spec's own choice or derivation and not its source's words, the docstring
names it as the spec does (D<n>, 92_eei_decisions.md; "derived"); where a clause rests on a choice of the
model, it names the log entry of notes/assumptions. -/

open Sys2Proof Sys2Proof.Machine

/-! ### Encoding -/

/-- Command words written out in 30_encoding.md and in the vectors of 95_test_vectors.md sections 3.1, 3.3 and
3.4 (IA1, IA3, IA9) decode to the class and the operands the spec gives them, one per class of R86. That the
wire's low byte comes first is D1, PRESUMED (log entry 10). -/
def Obligations.SpecWordsDecode : Prop :=
  decode [0x01, 0xC2, 0x00, 0x02, 0x01, 0x00, 0x00, 0x00] =
      .ok (.wr0 (some 0x0200) .u32 false 1 [0x01, 0x00, 0x00, 0x00], 8) ∧
    decode [0x84, 0x42, 0x00, 0x01] = .ok (.rd0 (some 0x0100) .u32 true 4, 4) ∧
    decode [0x00, 0xC2, 0x00, 0x04] = .ok (.badCount true false .s0 (some 0x0400) .u32 false, 4) ∧
    decode [0x01, 0x75, 0x00, 0x00] = .ok (.rsv5 false true (some 0) .u16 false 1 [], 4) ∧
    decode [0x01, 0x60, 0x00, 0x00] = .ok (.iaBadWidth8 false .s0 (some 0) false 1 [], 4) ∧
    decode [0x88, 0x61, 0x00, 0x00] = .ok (.iard .s0 (some 0) true 8, 4) ∧
    decode [0x01, 0xE1, 0x06, 0x00, 0x34, 0x12] =
      .ok (.iawr .s0 (some 6) false 1 [0x34, 0x12], 6) ∧
    decode [0x01, 0xCC, 0x00, 0x00, 0x00] = .ok (.datax3 true (some 0) .u8 false 1 [0x00], 5) ∧
    decode [0x82, 0x4A, 0x00, 0x00] = .ok (.rd2 (some 0) .u32 true 2, 4) ∧
    decode [0x82, 0xD1, 0x10, 0x00, 0xAA, 0xBB, 0xCC, 0xDD] =
      .ok (.wr4 (some 0x0010) .u16 true 2 [0xAA, 0xBB, 0xCC, 0xDD], 8) ∧
    decode [0x83, 0x59, 0x00, 0x00] = .ok (.rd6 (some 0) .u16 true 3, 4) ∧
    decode [0x88, 0x5D, 0x00, 0x00] = .ok (.rd7 (some 0) .u16 true 8, 4)

/-- R130, R83: the fields of a command word, as numbers: bit i of the word is `w / 2^i mod 2`. -/
def Obligations.CommandWordFields : Prop :=
  ∀ w : Half,
    ((decodeWord w).write = true ↔ w.toNat / 2 ^ 15 % 2 = 1) ∧
    ((decodeWord w).hasAddr = true ↔ w.toNat / 2 ^ 14 % 2 = 1) ∧
    ((decodeWord w).infoArea = true ↔ w.toNat / 2 ^ 13 % 2 = 1) ∧
    (spaceIndex (decodeWord w).space).val = w.toNat / 2 ^ 10 % 8 ∧
    (decodeWord w).size.bytes = 2 ^ (w.toNat / 2 ^ 8 % 4) ∧
    (decodeWord w).size.bits = 8 * 2 ^ (w.toNat / 2 ^ 8 % 4) ∧
    ((decodeWord w).incr = true ↔ w.toNat / 2 ^ 7 % 2 = 1) ∧
    (decodeWord w).count.toNat = w.toNat % 2 ^ 7

/-- R86 (the order of its first three rows is the spec's choice D11), R88 (derived): every command word belongs to exactly one class, the one the ordered conditions of R86
give it, which is that of the first row of the opcode table it matches; whatever the address field and
the data are. -/
def Obligations.OpcodeMapFirstMatch : Prop :=
  ∀ (w : Half) (addr : Option Half) (data : List Byte),
    tableMnemonic w = some (classify (decodeWord w) addr data).mnemonic ∧
    (classify (decodeWord w) addr data).mnemonic =
      (let c := w.toNat % 128
       let z := w.toNat / 256 % 4
       let s := w.toNat / 1024 % 8
       let i := w.toNat / 8192 % 2
       let wr := w.toNat / 32768
       if c = 0 then .BADCOUNT
       else if s = 5 then .RSV5
       else if i = 1 ∧ z ≠ 1 then .IA_BADWIDTH
       else if i = 1 ∧ wr = 0 then .IARD
       else if i = 1 then .IAWR
       else if s = 0 then (if wr = 0 then .RD0 else .WR0)
       else if s = 1 ∨ s = 3 then .DATAX
       else if s = 2 then (if wr = 0 then .RD2 else .WR2)
       else if s = 4 then (if wr = 0 then .RD4 else .WR4)
       else if s = 6 then (if wr = 0 then .RD6 else .WR6)
       else (if wr = 0 then .RD7 else .WR7))

/-- Decoding a well-formed instruction's encoding gives the instruction back, with every operand, whatever
bytes follow it, and its length is `2 + 2*A + W*C*B` (R82, derived; the byte order is D1, log entry 10). -/
def Obligations.DecodeOfEncode : Prop :=
  ∀ (i : Instr) (rest : List Byte), i.wf = true →
    decode (encode i ++ rest) = .ok (i, i.length) ∧
    i.length = 2 + (if i.command.hasAddr then 2 else 0) +
      (if i.command.write then i.command.count.toNat * i.command.size.bytes else 0)

/-- What is decoded is a well-formed instruction whose encoding is exactly the bytes it was decoded from,
and no byte past the end is taken (R141; byte order D1, log entry 10). -/
def Obligations.EncodeOfDecode : Prop :=
  ∀ (bytes : List Byte) (i : Instr) (len : Nat), decode bytes = .ok (i, len) →
    i.wf = true ∧ len = i.length ∧ len ≤ bytes.length ∧ encode i = bytes.take len

/-- The framing of R141 in its own order: the four ways the bytes at the cursor can be taken, by how many
remain against `hdr` and `hdr + dlen` (the order of the checks and the lone byte are D11 and D36); the
address field and the data lie where R81 puts them, low byte first (D1, log entry 10). -/
def Obligations.FramingByRemainingBytes : Prop :=
  decode [] = .error .noBytes ∧ (∀ b, decode [b] = .error .trailingByte) ∧
    ∀ (b0 b1 : Byte) (rest : List Byte),
      let c := decodeWord (BitVec.ofNat 16 (b0.toNat + 256 * b1.toNat))
      let bytes := b0 :: b1 :: rest
      let hdr := 2 + (if c.hasAddr then 2 else 0)
      let dlen := if c.write then c.count.toNat * c.size.bytes else 0
      (bytes.length < hdr → decode bytes = .error .truncatedAddress) ∧
      (hdr ≤ bytes.length → bytes.length < hdr + dlen → decode bytes = .error .truncatedData) ∧
      (hdr + dlen ≤ bytes.length →
        decode bytes = .ok (classify c
          (if c.hasAddr then
            some (BitVec.ofNat 16 ((bytes.getD 2 0#8).toNat + 256 * (bytes.getD 3 0#8).toNat))
           else none)
          ((bytes.drop hdr).take dlen), hdr + dlen))

/-! ### One step of the request context -/

/-- When the bytes at the payload cursor decode to an instruction, a step is `exec` of it: first the update
context takes its free number of steps, then the cursor moves past the command (R140, R141; log entry 2
for where the update context's steps fall). -/
def Obligations.StepRunsDecodedCommand : Prop :=
  ∀ (s : State) (i : Instr) (len : Nat),
    s.request = .busy → s.resetRequested = false → s.cursor ≤ s.payload.length →
    decode (s.payload.drop s.cursor) = .ok (i, len) →
    step s = exec i ((s.interleave Config.env).advance len)

/-- R145 (D11, D13): a framing failure counts one parse error and ends the payload; the remaining bytes are
not interpreted and the reply accumulated so far is sent (no frame if it is empty, R163). -/
def Obligations.FramingErrorEndsPayload : Prop :=
  ∀ (s : State) (e : DecodeError),
    s.request = .busy → s.resetRequested = false → s.cursor ≤ s.payload.length →
    decode (s.payload.drop s.cursor) = .error e → e ≠ .noBytes →
    ∃ t, step s = .next t ∧
      t = { s with
        bus := s.bus.interleave Config.env s.regions
        stats := t.stats, request := .idle, payload := [], cursor := 0, reply := []
        outbox := s.outbox ++ (if s.reply = [] then [] else [s.reply]) } ∧
      statsWord t.stats 0 = statsWord s.stats 0 + 1#16 ∧
      ∀ j < 32, 2 ≤ j → statsByte t.stats j = statsByte s.stats j

/-- The end of a payload whose bytes are all consumed: one reply frame if the reply is non-empty, none if
it is empty; nothing is counted and the request context is idle (R140, R163; one frame per payload is
D13). -/
def Obligations.EndOfPayloadSendsOneFrame : Prop :=
  ∀ s : State,
    s.request = .busy → s.resetRequested = false → s.cursor = s.payload.length →
    step s = .next { s with
      bus := s.bus.interleave Config.env s.regions
      request := .idle, payload := [], cursor := 0, reply := []
      outbox := s.outbox ++ (if s.reply = [] then [] else [s.reply]) }

/-- An idle request context takes the oldest delivered payload, with cursor 0 and an empty reply (R46,
R140; the queue of delivered payloads is the model's, log entry 17). -/
def Obligations.IdleTakesOldestPayload : Prop :=
  ∀ (s : State) (p : List Byte) (rest : List (List Byte)),
    s.request = .idle → s.resetRequested = false → s.inbox = p :: rest →
    step s = .next { s with
      bus := s.bus.interleave Config.env s.regions
      request := .busy, payload := p, cursor := 0, reply := [], inbox := rest }

/-- R283 (D18): after a reset request the request context takes no further step. In every booted state only
the bus changes, from then on as well: the update context runs on, which R283 allows (log entry 8). -/
def Obligations.ResetRequestStopsRequestContext : Prop :=
  ∀ s : State, s.Inv → s.request ≠ .unbooted → s.resetRequested = true →
    step s = .next { s with bus := s.bus.updateStep Config.env s.regions } ∧
    ∀ t, step s = .next t → t.resetRequested = true ∧ t.Inv

/-- R144 (D12): a command that passes framing is consumed whole, `2 + 2*A + W*C*B` bytes, whether it executes or is
rejected; the payload stays as it is. (A command that raises the reset request ends the payload, R157.) -/
def Obligations.CommandIsConsumedWhole : Prop :=
  ∀ (s t : State) (i : Instr) (len : Nat),
    s.request = .busy → s.resetRequested = false →
    decode (s.payload.drop s.cursor) = .ok (i, len) → step s = .next t →
    t.resetRequested = false →
    t.cursor = s.cursor + (2 + (if i.command.hasAddr then 2 else 0) +
      (if i.command.write then i.command.count.toNat * i.command.size.bytes else 0)) ∧
    t.cursor ≤ t.payload.length ∧ t.payload = s.payload

/-- R76 (derived): no write by a command, a handler or a hook changes the payload being processed or a later one. -/
def Obligations.EffectsNeverChangePayloads : Prop :=
  ∀ s t : State, step s = .next t →
    (s.request = .busy → t.request ≠ .idle → t.payload = s.payload) ∧
    (t.inbox = s.inbox ∨ ∃ p, s.inbox = p :: t.inbox ∧ t.payload = p ∧ t.cursor = 0)

/-- R250: there is no fatal runtime error. In every booted state the machine takes a step. -/
def Obligations.BootedMachineNeverStops : Prop :=
  ∀ s : State, s.Inv → s.request ≠ .unbooted → ∃ t, step s = .next t ∧ t.Inv ∧ t.request ≠ .unbooted

/-- With no payload to take, or stuck in a handler that never returned (R114, log entry 7), the request context
does nothing, and the update context never waits for it (R243). That such a step of the machine is exactly
one step of the update context is the model's choice (log entry 2). -/
def Obligations.WaitingStepMovesUpdateContextOnly : Prop :=
  ∀ s : State, s.request = .hung ∨ s.request = .idle ∧ s.inbox = [] →
    step s = .next { s with bus := s.bus.updateStep Config.env s.regions }

/-! ### Invariants and rules of the whole machine -/

/-- Every step keeps the invariant of a booted machine (`State.Inv`: R21, R24, R26, R45, R46, R113, R157,
R268). -/
def Obligations.StepKeepsInvariant : Prop :=
  ∀ s t : State, s.Inv → step s = .next t → t.Inv

/-- The state after boot meets the invariant, whatever the boot parameters are; so does the reset state. -/
def Obligations.BootMeetsInvariant : Prop :=
  (∀ c : BootParams, (State.boot c).Inv) ∧ State.reset.Inv

/-- R38 (D17 for the EEPROM-write-enable word): memory space 2 holds the constant `IMAGE_2`, `SIZE_2` bytes,
and no rule writes it, whatever the state is. The same holds of memory space 7 (R41), and the region
table is immutable after boot (R24). -/
def Obligations.ReadOnlyStateNeverChanges : Prop :=
  (∀ c : BootParams, (State.boot c).space2 = c.image2 ∧ (State.boot c).space7 = c.ident7) ∧
  (∀ s t : State, step s = .next t →
    t.space2 = s.space2 ∧ t.space7 = s.space7 ∧ t.regions = s.regions ∧ t.strictEnd = s.strictEnd)

/-- R37: every info-area record is static except for its address pointer, and the update context never
touches the table (the spec's derivation); the record of space 5 never changes at all (R36, the spec's
choice D25, log entry 14). -/
def Obligations.InfoRecordsAreStaticButThePointer : Prop :=
  (∀ s t : State, step s = .next t →
    (∀ sp, t.infoRecord sp = { s.infoRecord sp with pointer := (t.infoRecord sp).pointer }) ∧
    t.infoRecord .s5 = s.infoRecord .s5) ∧
  ∀ (E : Env) (s : State), (s.updateStep E).info = s.info

/-- R34, R146, R290 (D5; the reset value is D24): the address pointer is 0 at reset; a command without an address field starts at the
pointer of its space, exactly as if it carried that address; and only an info-area write of that space
changes it: no access advances it. -/
def Obligations.AddressPointerContract : Prop :=
  (∀ (c : BootParams) (sp : Space), ((State.boot c).infoRecord sp).pointer = 0#16) ∧
  (∀ (s : State) (sp : Space) (z : UnitSize) (n : Bool) (c : BitVec 7) (d : List Byte),
    let ptr := fun sp => some (s.infoRecord sp).pointer
    exec (.iard sp none n c) s = exec (.iard sp (ptr sp) n c) s ∧
    exec (.iawr sp none n c d) s = exec (.iawr sp (ptr sp) n c d) s ∧
    exec (.rd0 none z n c) s = exec (.rd0 (ptr .s0) z n c) s ∧
    exec (.wr0 none z n c d) s = exec (.wr0 (ptr .s0) z n c d) s ∧
    exec (.rd2 none z n c) s = exec (.rd2 (ptr .s2) z n c) s ∧
    exec (.rd4 none z n c) s = exec (.rd4 (ptr .s4) z n c) s ∧
    exec (.wr4 none z n c d) s = exec (.wr4 (ptr .s4) z n c d) s ∧
    exec (.rd6 none z n c) s = exec (.rd6 (ptr .s6) z n c) s ∧
    exec (.wr6 none z n c d) s = exec (.wr6 (ptr .s6) z n c d) s ∧
    exec (.rd7 none z n c) s = exec (.rd7 (ptr .s7) z n c) s) ∧
  (∀ (s t : State) (i : Instr) (sp : Space), exec i s = .next t →
    (∀ a n c d, i ≠ .iawr sp a n c d) → (t.infoRecord sp).pointer = (s.infoRecord sp).pointer)

/-- R39 (D19, D20): memory space 4 is `SIZE_4` bytes, all 0x00 at reset, and changes only when a command writes it
(WR4); its size never changes. -/
def Obligations.ScratchBlockChangesOnlyByCommand : Prop :=
  (∀ c : BootParams, (State.boot c).space4 = List.replicate c.size4 0#8) ∧
  (∀ (s t : State) (i : Instr), exec i s = .next t →
    t.space4.length = s.space4.length ∧
    ((∀ a z n c d, i ≠ .wr4 a z n c d) → t.space4 = s.space4)) ∧
  (∀ (E : Env) (s : State), (s.updateStep E).space4 = s.space4)

/-- R48 (D18): the reset request is 0 at reset, is raised by a write of memory space 6 only (R157), and is never
cleared by the block. -/
def Obligations.ResetRequestRaisedByWr6NeverCleared : Prop :=
  (∀ c : BootParams, (State.boot c).resetRequested = false) ∧
  (∀ s t : State, step s = .next t → s.resetRequested = true → t.resetRequested = true) ∧
  (∀ (s t : State) (i : Instr), exec i s = .next t → t.resetRequested = true →
    s.resetRequested = true ∨ ∃ a z n c d, i = .wr6 a z n c d)

/-- R22, for bytes no region covers: only a space-0 write changes them; no other command does, and no step
of the update context. That hooks and handlers leave such bytes alone rests on owners that keep to their
slice (R102, D47; DEDUCED, log entry 3). -/
def Obligations.UnownedBytesChangeByWr0Only : Prop :=
  (∀ (s t : State) (i : Instr) (x : Nat), exec i s = .next t → (∀ a z n c d, i ≠ .wr0 a z n c d) →
    s.unowned x → t.rfByte x = s.rfByte x) ∧
  (∀ (E : Env) (s : State) (x : Nat), s.unowned x → (s.updateStep E).rfByte x = s.rfByte x)

/-- Nothing but the bus records anything about a hook (R242): a step of the update context changes no counter,
no reply and no other field. It changes a byte of the register file only inside the slice of the region
whose hook is running (R102, the spec's choice D47; DEDUCED, log entry 3), and at the end of a pass nothing
but its own position (R244, D44) and the model's count of its steps (log entry 17). -/
def Obligations.UpdateContextStaysInItsSlice : Prop :=
  ∀ (E : Env) (s : State),
    s.updateStep E = { s with bus := (s.updateStep E).bus } ∧
    handlerCalls (s.updateStep E).bus.calls = handlerCalls s.bus.calls ∧
    (∀ x, (s.updateStep E).rfByte x ≠ s.rfByte x →
      ∃ r, s.regions[s.bus.update.index]? = some r ∧ r.covers x ∧ x < Config.rfSize ∧
        s.bus.update.hook.isSome = true) ∧
    (s.regions.length ≤ s.bus.update.index →
      s.updateStep E = { s with bus := { s.bus with
        update := { index := 0, hook := none }, turns := s.bus.turns + 1 } })

/-- R113: a pass over hooks that return calls every present update hook once, in registration order, skips
the absent ones, and comes back to the first region. -/
def Obligations.UpdatePassCallsEveryHookInOrder : Prop :=
  ∀ (E : Env) (regions : List Region) (b : Bus),
    (∀ draw region, OwnerCode.returns (E.updateHook draw region)) →
    b.update = { index := 0, hook := none } →
    ∃ k, (Bus.updateRun E regions k b).update = { index := 0, hook := none } ∧
      (Bus.updateRun E regions k b).calls = b.calls ++
        (regions.zipIdx.filter fun p => p.1.update).map fun p => OwnerCall.update p.2

/-! ### Rejected commands and the error counters -/

/-- R254 (D15), with the counters R251 gives the errors (D11): counting an error adds 1 modulo 2^16 to its u16
word of memory space 6 and changes no other byte of it, and nothing else: word 0 counts E4 to E7, E9 and
E10; word 1 counts E8, E12 and E13; word 2 counts E11. The update context counts nothing. -/
def Obligations.ErrorCountersWrap : Prop :=
  ∀ (s : State) (e : ErrorCode) (k : Nat),
    (k = 0 ∧ e ∈ [ErrorCode.trailingByte, .truncatedAddress, .truncatedData, .badCount,
        .reservedSpace5, .infoAreaWidth] ∨
      k = 1 ∧ e ∈ [ErrorCode.unsupportedSpace, .outOfRange, .handlerStatus] ∨
      k = 2 ∧ e = .readOnlySpace) →
    (statsWord (s.count e).stats k).toNat = ((statsWord s.stats k).toNat + 1) % 65536 ∧
    (∀ j < 32, j ≠ 2 * k → j ≠ 2 * k + 1 → statsByte (s.count e).stats j = statsByte s.stats j) ∧
    s.count e = { s with stats := (s.count e).stats } ∧
    ∀ E : Env, (s.updateStep E).stats = s.stats

/-- R87, R252 (the counters are D11): the classes that always reject. BADCOUNT, RSV5 and IA_BADWIDTH count one parse error, DATAX one
memory-access error, WR2 and WR7 one write error, in every form and every state; nothing else
changes. -/
def Obligations.AlwaysRejectedClassesOnlyCount : Prop :=
  ∀ (s : State) (w ia : Bool) (sp : Space) (a : Option Half) (z : UnitSize) (n : Bool)
    (c : BitVec 7) (d : List Byte),
    (∃ t, exec (.badCount w ia sp a z n) s = .next t ∧ s.onlyCounts t 0) ∧
    (∃ t, exec (.rsv5 w ia a z n c d) s = .next t ∧ s.onlyCounts t 0) ∧
    (∃ t, exec (.iaBadWidth8 w sp a n c d) s = .next t ∧ s.onlyCounts t 0) ∧
    (∃ t, exec (.iaBadWidth32 w sp a n c d) s = .next t ∧ s.onlyCounts t 0) ∧
    (∃ t, exec (.iaBadWidth64 w sp a n c d) s = .next t ∧ s.onlyCounts t 0) ∧
    (∃ t, exec (.datax1 w a z n c d) s = .next t ∧ s.onlyCounts t 1) ∧
    (∃ t, exec (.datax3 w a z n c d) s = .next t ∧ s.onlyCounts t 1) ∧
    (∃ t, exec (.wr2 a z n c d) s = .next t ∧ s.onlyCounts t 2) ∧
    (∃ t, exec (.wr7 a z n c d) s = .next t ∧ s.onlyCounts t 2)

/-- R148 (D9): a command whose span passes the end of its space (65536, `SIZE_2`, `SIZE_4`, 32, `SIZE_7`, or
16 for an info area, R42) is rejected with E12, and nothing else changes; that the memory-access counter
counts it is the spec's choice D11 (log entry 13). The results below say what one that stays inside does. -/
def Obligations.OutOfRangeCommandsOnlyCount : Prop :=
  ∀ (s : State) (sp : Space) (a : Option Half) (z : UnitSize) (n : Bool) (c : BitVec 7)
    (d : List Byte),
    let rejected := fun i : Instr => i.wf = true → ∃ t, exec i s = .next t ∧ s.onlyCounts t 1
    (16 < s.startAddress sp a + span .u16 n c →
      rejected (.iard sp a n c) ∧ rejected (.iawr sp a n c d)) ∧
    (65536 < s.startAddress .s0 a + span z n c →
      rejected (.rd0 a z n c) ∧ rejected (.wr0 a z n c d)) ∧
    (s.space2.length < s.startAddress .s2 a + span z n c → rejected (.rd2 a z n c)) ∧
    (s.space4.length < s.startAddress .s4 a + span z n c →
      rejected (.rd4 a z n c) ∧ rejected (.wr4 a z n c d)) ∧
    (32 < s.startAddress .s6 a + span z n c →
      rejected (.rd6 a z n c) ∧ rejected (.wr6 a z n c d)) ∧
    (s.space7.length < s.startAddress .s7 a + span z n c → rejected (.rd7 a z n c))

/-! ### The memory spaces with plain storage -/

/-- RD2, RD4 and RD7 (R152, R154, R158; sizes D19): a read inside its space appends the bytes of every unit, in order,
to the reply and changes nothing else. -/
def Obligations.SpaceReadsAppendUnits : Prop :=
  ∀ (s : State) (a : Option Half) (z : UnitSize) (n : Bool) (c : BitVec 7),
    (s.startAddress .s2 a + span z n c ≤ s.space2.length →
      ∃ bytes, exec (.rd2 a z n c) s = .next { s with reply := s.reply ++ bytes } ∧
        repliesUnits (s.startAddress .s2 a) z n c (fun x => s.space2.getD x 0#8) bytes) ∧
    (s.startAddress .s4 a + span z n c ≤ s.space4.length →
      ∃ bytes, exec (.rd4 a z n c) s = .next { s with reply := s.reply ++ bytes } ∧
        repliesUnits (s.startAddress .s4 a) z n c (fun x => s.space4.getD x 0#8) bytes) ∧
    (s.startAddress .s7 a + span z n c ≤ s.space7.length →
      ∃ bytes, exec (.rd7 a z n c) s = .next { s with reply := s.reply ++ bytes } ∧
        repliesUnits (s.startAddress .s7 a) z n c (fun x => s.space7.getD x 0#8) bytes)

/-- WR4 (R155, D20): a write inside the scratch block stores the data bytes of every unit, the last unit staying
where the address does not advance (R164); nothing else changes, and no byte outside the span. -/
def Obligations.Wr4StoresUnits : Prop :=
  ∀ (s : State) (a : Option Half) (z : UnitSize) (n : Bool) (c : BitVec 7) (d : List Byte),
    (Instr.wr4 a z n c d).wf = true →
    s.startAddress .s4 a + span z n c ≤ s.space4.length →
    ∃ t, exec (.wr4 a z n c d) s = .next t ∧ t = { s with space4 := t.space4 } ∧
      t.space4.length = s.space4.length ∧
      ∀ x, t.space4.getD x 0#8 =
        afterStore (s.startAddress .s4 a) z n c d x (s.space4.getD x 0#8)

/-- RD6 (R156, R166; D14, D16): every read inside memory space 6 completes. It replies the stored bytes, except
that every byte of words 3 to 8 is a draw of its own: the byte at position p of the reply takes the draw
whose number is the state's next one plus the transport bytes before p in this read (log entry 5), so no
two bytes share a draw, and the next read goes on behind them. Nothing else changes. -/
def Obligations.Rd6ReadsStoredBytesAndDraws : Prop :=
  ∀ (s : State) (a : Option Half) (z : UnitSize) (n : Bool) (c : BitVec 7),
    let addr := fun p => s.startAddress .s6 a + (if n then p else p % z.bytes)
    let drawn := fun p => ((List.range p).filter fun q => decide (6 ≤ addr q ∧ addr q ≤ 0x11)).length
    s.startAddress .s6 a + span z n c ≤ 32 →
    ∃ t bytes, exec (.rd6 a z n c) s = .next t ∧
      t = { s with reply := s.reply ++ bytes, draws := s.draws + drawn (c.toNat * z.bytes) } ∧
      bytes.length = c.toNat * z.bytes ∧
      ∀ p < c.toNat * z.bytes,
        bytes[p]? = some (if 6 ≤ addr p ∧ addr p ≤ 0x11 then
          Config.transportByte (s.draws + drawn p) (addr p) else statsByte s.stats (addr p))

/-- WR6 (R157, R268; D14, D17, D18): a write inside memory space 6 stores the data bytes of every unit. If word 14,
reset-trigger, is then zero, nothing else changes; if it is not, the reset request is raised and the
request context stops without a reply frame (log entry 8: it drops the payload and the reply). -/
def Obligations.Wr6StoresUnitsAndTriggersReset : Prop :=
  ∀ (s : State) (a : Option Half) (z : UnitSize) (n : Bool) (c : BitVec 7) (d : List Byte),
    (Instr.wr6 a z n c d).wf = true →
    s.startAddress .s6 a + span z n c ≤ 32 →
    ∃ t, exec (.wr6 a z n c d) s = .next t ∧
      (∀ x < 32, statsByte t.stats x =
        afterStore (s.startAddress .s6 a) z n c d x (statsByte s.stats x)) ∧
      (statsWord t.stats 14 = 0#16 → t = { s with stats := t.stats }) ∧
      (statsWord t.stats 14 ≠ 0#16 →
        t = { s with
          stats := t.stats, resetRequested := true, request := .idle, payload := [], cursor := 0
          reply := [] })

/-! ### Info areas -/

/-- The 16 bytes of an info-area record (R30, D22): cookie, memsizes, memranges and address pointer, low byte
first, then the 8 bytes of the name. -/
def Obligations.InfoRecordLayout : Prop :=
  ∀ r : InfoRecord,
    r.bytes.length = 16 ∧
    le16 (r.bytes.getD 0 0#8) (r.bytes.getD 1 0#8) = r.cookie ∧
    le16 (r.bytes.getD 2 0#8) (r.bytes.getD 3 0#8) = r.memsizes ∧
    le16 (r.bytes.getD 4 0#8) (r.bytes.getD 5 0#8) = r.memranges ∧
    le16 (r.bytes.getD 6 0#8) (r.bytes.getD 7 0#8) = r.pointer ∧
    ∀ k, (h : k < 8) → r.bytes.getD (8 + k) 0#8 = r.name[k]

/-- IARD (R194, D25, D41): an info-area read inside the record appends the bytes of every 16-bit unit to the
reply and changes nothing else, for every space but 5 (1 and 3 too, R36), whose info-area commands are RSV5
(R192). -/
def Obligations.IardAppendsRecordUnits : Prop :=
  ∀ (s : State) (sp : Space) (a : Option Half) (n : Bool) (c : BitVec 7),
    (Instr.iard sp a n c).wf = true →
    s.startAddress sp a + span .u16 n c ≤ 16 →
    ∃ bytes, exec (.iard sp a n c) s = .next { s with reply := s.reply ++ bytes } ∧
      repliesUnits (s.startAddress sp a) .u16 n c (fun x => (s.infoRecord sp).bytes.getD x 0#8) bytes

/-- IAWR (R195, D23): an info-area write inside the record stores the data bytes that fall on offsets 6 and 7, the
address pointer's, and no other byte; every other record and everything else stays as it is. -/
def Obligations.IawrStoresPointerBytesOnly : Prop :=
  ∀ (s : State) (sp : Space) (a : Option Half) (n : Bool) (c : BitVec 7) (d : List Byte),
    (Instr.iawr sp a n c d).wf = true →
    s.startAddress sp a + span .u16 n c ≤ 16 →
    ∃ t, exec (.iawr sp a n c d) s = .next t ∧ t = { s with info := t.info } ∧
      (∀ sp', sp' ≠ sp → t.infoRecord sp' = s.infoRecord sp') ∧
      t.infoRecord sp = { s.infoRecord sp with pointer := (t.infoRecord sp).pointer } ∧
      byteOf (t.infoRecord sp).pointer 0 =
        afterStore (s.startAddress sp a) .u16 n c d 6 (byteOf (s.infoRecord sp).pointer 0) ∧
      byteOf (t.infoRecord sp).pointer 1 =
        afterStore (s.startAddress sp a) .u16 n c d 7 (byteOf (s.infoRecord sp).pointer 1)

/-! ### The register bus and memory space 0 -/

/-- R104: a region contains a transfer of n words at a byte address when the transfer starts at or after the
base and ends at or before the region's end; with `LEGACY_STRICT_END` before it (R105, the spec's choice
D28, log entry 21). The two tests differ exactly on a transfer that ends at the region's end (R288). -/
def Obligations.ContainmentIsInclusive : Prop :=
  ∀ (r : Region) (a n : Nat),
    (r.contains false a n = true ↔ r.base.toNat ≤ a ∧ a + 4 * n ≤ r.base.toNat + r.size.toNat) ∧
    (r.contains true a n = true ↔ r.base.toNat ≤ a ∧ a + 4 * n < r.base.toNat + r.size.toNat) ∧
    (r.contains false a n ≠ r.contains true a n ↔
      r.base.toNat ≤ a ∧ a + 4 * n = r.base.toNat + r.size.toNat)

/-- R106 (and R112, derived from it): resolution gives the first region, in registration order, that contains the whole transfer,
whatever handlers it has, and nothing when none does. -/
def Obligations.ResolutionIsFirstMatch : Prop :=
  ∀ (strict : Bool) (regions : List Region) (a n : Nat),
    (∀ r i, resolve strict regions a n = some (r, i) ↔
      regions[i]? = some r ∧ r.contains strict a n = true ∧
        ∀ j < i, ∀ r' ∈ regions[j]?, r'.contains strict a n = false) ∧
    (resolve strict regions a n = none ↔ ∀ r ∈ regions, r.contains strict a n = false)

/-- R110, on the `Unmapped` and `NoHandler` of R107 and R108: a bus operation gives `Unmapped` when no region
contains the transfer and `NoHandler` when the first that does lacks the wanted handler, and then has no
effect at all; the caller then reads or writes the register file directly, and no counter changes (R256).
That the bytes are accessed from the address up is R11, the spec's choice D48 (log entry 2). -/
def Obligations.BusFallsBackWithoutEffect : Prop :=
  ∀ (E : Env) (s : State) (a n : Nat) (words : List Word),
    (resolve s.strictEnd s.regions a n = none → s.busRead E a n = (.unmapped, s)) ∧
    (∀ r i, resolve s.strictEnd s.regions a n = some (r, i) → r.read = false →
      s.busRead E a n = (.noHandler, s)) ∧
    (resolve s.strictEnd s.regions a words.length = none → s.busWrite E a words = (.unmapped, s)) ∧
    (∀ r i, resolve s.strictEnd s.regions a words.length = some (r, i) → r.write = false →
      s.busWrite E a words = (.noHandler, s)) ∧
    ((s.busRead E a n).1 = .unmapped ∨ (s.busRead E a n).1 = .noHandler →
      s.readTransfer E a n = s.directRead E (addressRun a (4 * n)) ∧
      (s.readTransfer E a n).stats = s.stats) ∧
    (∀ data : List Byte, data.length = 4 * n →
      (s.busWrite E a (wordsOf data)).1 = .unmapped ∨ (s.busWrite E a (wordsOf data)).1 = .noHandler →
      s.writeTransfer E a data = s.directWrite E ((addressRun a (4 * n)).zip data) ∧
      (s.writeTransfer E a data).stats = s.stats)

/-- RD0, every form (R150, R257, D8; a handler that hangs is log entry 7): inside the register file the command
completes. It appends C*B bytes to the reply, unless the request context hangs in a handler: then at most so
many. It changes no byte that no region covers (owners keep to their slice: R102, D47, log entry 3); beyond
the bus and the reply it can only count handler failures in the memory-access counter, and hang. -/
def Obligations.Rd0CompletesInEveryForm : Prop :=
  ∀ (s : State) (a : Option Half) (z : UnitSize) (n : Bool) (c : BitVec 7),
    s.startAddress .s0 a + span z n c ≤ 65536 →
    ∃ t, exec (.rd0 a z n c) s = .next t ∧ s.onlyBusAndReply t ∧
      (t.request ≠ .hung → t.reply.length = s.reply.length + c.toNat * z.bytes) ∧
      t.reply.length ≤ s.reply.length + c.toNat * z.bytes ∧
      ∀ x, s.unowned x → t.rfByte x = s.rfByte x

/-- RD0, direct (R110, R150, R165, D6), for any behaviour of hooks and handlers: a read that reaches no read
handler appends C*B bytes to the reply. Byte j of unit i is the register file's byte at `w_i + j` wherever no
hook writes that byte, whether or not a region with a hook covers it (R43, R44). The read calls no handler,
counts nothing, and changes no byte that no hook writes. A hook writes only bytes of its region (R102, D47,
log entry 3). -/
def Obligations.Rd0DirectAppendsRegisterFileBytes : Prop :=
  ∀ (E : Env) (s : State) (a : Option Half) (z : UnitSize) (n : Bool) (c : BitVec 7),
    let start := s.startAddress .s0 a
    let t := s.read0 E a z n c
    start + span z n c ≤ 65536 → s.request ≠ .hung → s.readsDirectly start z n c →
    (∃ bytes, t = { s with bus := t.bus, reply := s.reply ++ bytes } ∧
      bytes.length = c.toNat * z.bytes ∧
      ∀ i < c.toNat, ∀ j < z.bytes,
        let x := start + (if n then i * z.bytes else 0) + j
        s.hooksSpare E x → bytes[i * z.bytes + j]? = some (s.rfByte x)) ∧
    t.handlerCalls = s.handlerCalls ∧
    (∀ x, s.hooksSpare E x → t.rfByte x = s.rfByte x) ∧
    exec (.rd0 a z n c) s = .next (s.read0 Config.env a z n c)

/-- RD0 through a read handler, one call (R107, R109, R165, R257; D6, D7, D8): with N = 1 and 4- or 8-byte
units the whole run is one call, with the byte offset from the region's base and the number of words; the
handler's words go to the reply, little-endian (R63; D2, log entries 10 and 15); a nonzero status counts
one memory-access error; a handler that never returns leaves the request context stuck (log entry 7). The
bus is as the handler's run leaves it, and nothing else changes. -/
def Obligations.Rd0HandlerOneCall : Prop :=
  ∀ (E : Env) (s : State) (a : Option Half) (z : UnitSize) (c : BitVec 7) (r : Region) (idx : Nat),
    let start := s.startAddress .s0 a
    let n := c.toNat * z.bytes / 4
    busUnit z = true → start + span z true c ≤ 65536 →
    resolve s.strictEnd s.regions start n = some (r, idx) → r.read = true →
    s.servedRead E r idx start n (s.read0 E a z true c) ∧
    exec (.rd0 a z true c) s = .next (s.read0 Config.env a z true c)

/-- WR0 through a write handler, one call (R63, R108, R109, R165, R257; D2, D6, D7, D8): with N = 1 and 4- or
8-byte units the whole run is one call, with the byte offset and the little-endian words of the data; a
nonzero status counts one memory-access error and undoes nothing; a handler that never returns leaves the
request context stuck (log entry 7). The handler, not the bus, decides whether the register file changes:
the bus is exactly as the handler's run leaves it, and with a handler that makes no write every byte no hook
writes stays. A byte outside every region stays whatever the handler does (R102, D47, log entry 3). -/
def Obligations.Wr0HandlerOneCall : Prop :=
  ∀ (E : Env) (s : State) (a : Option Half) (z : UnitSize) (c : BitVec 7) (d : List Byte)
    (r : Region) (idx : Nat),
    let start := s.startAddress .s0 a
    let n := c.toNat * z.bytes / 4
    let t := s.write0 E a z true c d
    busUnit z = true → (Instr.wr0 a z true c d).wf = true → start + span z true c ≤ 65536 →
    resolve s.strictEnd s.regions start n = some (r, idx) → r.write = true →
    s.servedWrite E r idx start d t ∧
    (wordsOf d).length = n ∧ wordsBytes (wordsOf d) = d ∧
    (∀ x, s.unowned x → t.rfByte x = s.rfByte x) ∧
    (OwnerCode.writesNothing (E.writeHandler (s.bus.interleave E s.regions).fresh idx
        (start - r.base.toNat) (wordsOf d)) →
      ∀ x, s.hooksSpare E x → t.rfByte x = s.rfByte x) ∧
    exec (.wr0 a z true c d) s = .next (s.write0 Config.env a z true c d)

/-- R293, R164 (D42), R165 (D6): with N = 0 a handler is called once per unit, C times as long as it returns,
each call at the same byte offset (D7, log entry 15) with that unit's words (D2). Unit by unit, each call
has the effect of one call: its words go to the reply, its status is counted (R257), and a handler that
never returns ends the command there, with the request context stuck (log entry 7) and every earlier unit
whole. -/
def Obligations.RepeatedUnitsCallHandlerCTimes : Prop :=
  ∀ (E : Env) (s : State) (a : Option Half) (z : UnitSize) (c : BitVec 7) (d : List Byte)
    (r : Region) (idx : Nat),
    let start := s.startAddress .s0 a
    let off := start - r.base.toNat
    let n := z.bytes / 4
    let unit := fun i => (d.drop (i * z.bytes)).take z.bytes
    busUnit z = true → (Instr.wr0 a z false c d).wf = true → start + span z false c ≤ 65536 →
    s.request ≠ .hung → resolve s.strictEnd s.regions start n = some (r, idx) →
    (r.read = true →
      (∃ (m : Nat) (u : Nat → State), m ≤ c.toNat ∧ u 0 = s ∧ s.read0 E a z false c = u m ∧
        (∀ i < m, (u i).request ≠ .hung ∧ (u i).servedRead E r idx start n (u (i + 1))) ∧
        (m = c.toNat ∨ (u m).request = .hung)) ∧
      ((∀ draw b, (Bus.runRead E s.regions idx r draw off n b).1.isSome = true) →
        (s.read0 E a z false c).handlerCalls =
          s.handlerCalls ++ List.replicate c.toNat (.read idx off n) ∧
        (s.read0 E a z false c).reply.length = s.reply.length + c.toNat * z.bytes)) ∧
    (r.write = true →
      (∃ (m : Nat) (u : Nat → State), m ≤ c.toNat ∧ u 0 = s ∧ s.write0 E a z false c d = u m ∧
        (∀ i < m, (u i).request ≠ .hung ∧ (u i).servedWrite E r idx start (unit i) (u (i + 1))) ∧
        (m = c.toNat ∨ (u m).request = .hung)) ∧
      ((∀ draw words b, (Bus.runWrite E s.regions idx r draw off words b).1.isSome = true) →
        (s.write0 E a z false c d).handlerCalls = s.handlerCalls ++
          (List.range c.toNat).map fun i => .write idx off (wordsOf (unit i)))) ∧
    exec (.rd0 a z false c) s = .next (s.read0 Config.env a z false c) ∧
    exec (.wr0 a z false c d) s = .next (s.write0 Config.env a z false c d)

/-- WR0, every form (R151, R257, D8; a handler that hangs is log entry 7): inside the register file the command
completes. It changes no byte outside its span that no region covers (owners keep to their slice: R102, D47,
log entry 3); beyond the bus it can only count handler failures in the memory-access counter and hang in a
handler. -/
def Obligations.Wr0CompletesInEveryForm : Prop :=
  ∀ (s : State) (a : Option Half) (z : UnitSize) (n : Bool) (c : BitVec 7) (d : List Byte),
    (Instr.wr0 a z n c d).wf = true → s.startAddress .s0 a + span z n c ≤ 65536 →
    ∃ t, exec (.wr0 a z n c d) s = .next t ∧ s.onlyBusAndReply t ∧ t.reply = s.reply ∧
      ∀ x, s.unowned x →
        ¬ (s.startAddress .s0 a ≤ x ∧ x < s.startAddress .s0 a + span z n c) →
        t.rfByte x = s.rfByte x

/-- WR0, direct (R110, R151, R165, D6), for any behaviour of hooks and handlers: a write that reaches no write
handler leaves, in every byte no hook writes, what the data says (the last unit where the address does not
advance, R164) or, outside its span, what was there; it calls no handler and changes nothing but the bus. A
region with a hook may cover the byte: the status register (R43) and the digital I/O block (R44) hold what
was written as long as no hook writes them. A hook writes only bytes of its region (R102, D47, log entry 3).
The ID block, the IDROM and the descriptors are no exception (R289). -/
def Obligations.Wr0DirectStoresUnits : Prop :=
  ∀ (E : Env) (s : State) (a : Option Half) (z : UnitSize) (n : Bool) (c : BitVec 7) (d : List Byte),
    let start := s.startAddress .s0 a
    let t := s.write0 E a z n c d
    (Instr.wr0 a z n c d).wf = true → start + span z n c ≤ 65536 → s.request ≠ .hung →
    Memory.wf s.bus.rf = true → s.writesDirectly start z n c →
    t = { s with bus := t.bus } ∧
    t.handlerCalls = s.handlerCalls ∧ Memory.wf t.bus.rf = true ∧
    (∀ x, s.hooksSpare E x → t.rfByte x = afterStore start z n c d x (s.rfByte x)) ∧
    exec (.wr0 a z n c d) s = .next (s.write0 Config.env a z n c d)

/-- R286 (D6): an 8- or 16-bit command to memory space 0 never calls a handler. -/
def Obligations.SubWordUnitsNeverCallHandlers : Prop :=
  ∀ (s t : State) (a : Option Half) (z : UnitSize) (n : Bool) (c : BitVec 7) (d : List Byte),
    z.bits ≤ 16 →
    (exec (.rd0 a z n c) s = .next t ∨ exec (.wr0 a z n c d) s = .next t) →
    t.handlerCalls = s.handlerCalls

/-- R167 (derived): a payload that writes N words to an address of memory space 0 and then reads N words from it
replies the written values, for any N in 1..127 and any unit size, when the transfers reach no handler,
no hook writes the bytes and the range is inside the register file; whatever the update context does
between and during the two commands, and for any behaviour of hooks and handlers. Each of the two is the
step's command after the update context's steps and the cursor's move; in the model's environment they are
two steps. A hook writes only bytes of its region (R102, D47, log entry 3). -/
def Obligations.WriteThenReadRoundTrip : Prop :=
  ∀ (E : Env) (s : State) (a : Half) (z : UnitSize) (c : BitVec 7) (d rest : List Byte),
    let w := Instr.wr0 (some a) z true c d
    let r := Instr.rd0 (some a) z true c
    let t := ((s.interleave E).advance w.length).write0 E (some a) z true c d
    let u := ((t.interleave E).advance r.length).read0 E (some a) z true c
    s.request = .busy → s.resetRequested = false → s.cursor ≤ s.payload.length →
    Memory.wf s.bus.rf = true → w.wf = true →
    s.payload.drop s.cursor = encode w ++ (encode r ++ rest) →
    a.toNat + span z true c ≤ 65536 →
    s.writesDirectly a.toNat z true c → s.readsDirectly a.toNat z true c →
    (∀ x, a.toNat ≤ x → x < a.toNat + span z true c → s.hooksSpare E x) →
    t.reply = s.reply ∧ u.reply = s.reply ++ d ∧
      u.payload = s.payload ∧ u.payload.drop u.cursor = rest ∧
      (E = Config.env → step s = .next t ∧ step t = .next u)

/-- R284, R66 (D26; log entry 2): a multi-byte read is not atomic. The update context at the start of a pass,
with a hook that fills the status register 0x0200 to 0x0203 byte by byte, and some interleaving make a
32-bit read of it give a torn value (UP2 of 95_test_vectors.md). -/
def Obligations.TornReadIsPossible : Prop :=
  ∃ (E : Env) (s : State),
    s.regions = [⟨"status", 0x0200, 4, true, false, false⟩] ∧ s.reply = [] ∧
    s.rfWord 0x0200 = 0#32 ∧ s.bus.update = { index := 0, hook := none } ∧
    (∀ draw seen, E.updateHook draw 0 seen =
      if seen.length < 4 then .act (.write seen.length 0xFF) else .finish () 0) ∧
    (s.read0 E (some 0x0200) .u32 false 1).reply = [0x00, 0xFF, 0x00, 0x00]

/-- R147: a command of C units of B bytes from a on touches, in increasing i, the units at `a + i*B`, or at a
when the address does not advance, and `span` bytes from a cover them all; so a command inside its space
touches no byte outside it (R148). That a unit's bytes come in ascending order is R11 and R62, the spec's
choices D48 and D2 (log entries 2 and 10). -/
def Obligations.UnitsAreTouchedInOrder : Prop :=
  ∀ (a : Nat) (z : UnitSize) (n : Bool) (c : BitVec 7),
    (touched a z n c).length = c.toNat * z.bytes ∧
    (∀ i < c.toNat, ∀ j < z.bytes,
      (touched a z n c)[i * z.bytes + j]? = some (a + (if n then i * z.bytes else 0) + j)) ∧
    span z n c = (if n then c.toNat * z.bytes else z.bytes) ∧
    (c ≠ 0#7 → ∀ x, x ∈ touched a z n c ↔ a ≤ x ∧ x < a + span z n c)

/-! ### Boot -/

/-- R100, R101, R281: boot registers the first min(8, n) regions, in order; a registration that finds 8
regions fails and changes nothing, and no registration is checked otherwise (R103). Every owner has its
place. -/
def Obligations.BootRegistersTheFirstEight : Prop :=
  (∀ (table : List Region) (r : Region),
    (table.length = 8 → registerRegion table r = none) ∧
    (table.length < 8 → registerRegion table r = some (table ++ [r]))) ∧
  ∀ c : BootParams,
    (State.boot c).regions = (c.regions.map fun d => d.region).take 8 ∧
    (State.boot c).bus.owners = (c.regions.map fun d => d.owned).take 8

/-- The IDROM's first four bytes hold its type, 2, whatever the configuration is (R213). So do the ID block
its values (R211, its offsets the spec's derivation) and the IDROM's two offset fields theirs (R214, the
spec's choice D29; PRESUMED, log entry 11). -/
def Obligations.BootWritesIdBlock : Prop :=
  ∀ c : BootParams,
    (State.boot c).rfWord 0x0100 = 0x55AACAFE#32 ∧
    (List.range 8).map (fun k => (State.boot c).rfByte (0x0104 + k)) =
      [0x48#8, 0x4F#8, 0x53#8, 0x54#8, 0x4D#8, 0x4F#8, 0x54#8, 0x32#8] ∧
    (State.boot c).rfWord 0x010C = 0x00000400#32 ∧
    (List.range 4).map (fun k => (State.boot c).rfByte (0x0400 + k)) = [0x02#8, 0x00#8, 0x00#8, 0x00#8] ∧
    (State.boot c).rfWord 0x0404 = 0x00000040#32 ∧
    (State.boot c).rfWord 0x0408 = 0x00000200#32

/-- R212, R215 (widths and offsets D29, log entry 11): the IDROM header after boot holds the board's constants, each u32 in its place and the name
copied unchanged. -/
def Obligations.BootWritesIdromHeader : Prop :=
  ∀ c : BootParams,
    let w := (State.boot c).rfWord
    w 0x0400 = 2#32 ∧ w 0x0404 = 0x00000040#32 ∧ w 0x0408 = 0x00000200#32 ∧
    (∀ k, (h : k < 8) → (State.boot c).rfByte (0x040C + k) = c.board.name[k]) ∧
    w 0x0414 = c.board.fpgaSize ∧ w 0x0418 = c.board.fpgaPins ∧ w 0x041C = c.board.ioPorts ∧
    w 0x0420 = c.board.ioWidth ∧ w 0x0424 = c.board.portWidth ∧ w 0x0428 = c.board.clockLow ∧
    w 0x042C = c.board.clockHigh ∧ w 0x0430 = c.board.instanceStride0 ∧
    w 0x0434 = c.board.instanceStride1 ∧ w 0x0438 = c.board.registerStride0 ∧
    w 0x043C = c.board.registerStride1

/-- R216, R217 (layout D30, log entry 11): module k of a configuration that boot accepts stands in 12 bytes from 0x0440 + 12k on, in the
layout of R217, and 12 zero bytes end the array. -/
def Obligations.BootWritesModuleDescriptors : Prop :=
  ∀ c : BootParams, bootChecksPass c = true →
    (∀ k m, c.modules[k]? = some m →
      let at_ := fun off => (State.boot c).rfByte (0x0440 + 12 * k + off)
      at_ 0 = m.gtag ∧ at_ 1 = m.version ∧ at_ 2 = m.clockTag ∧ at_ 3 = m.instances ∧
      le16 (at_ 4) (at_ 5) = m.base ∧ at_ 6 = m.registers ∧ at_ 7 = m.strides ∧
      (State.boot c).rfWord (0x0440 + 12 * k + 8) = m.multRegs) ∧
    ∀ off < 12, (State.boot c).rfByte (0x0440 + 12 * c.modules.length + off) = 0#8

/-- R220, R221 (byte order D29, log entry 11): pin p stands in 4 bytes from 0x0600 + 4p on, for every pin (R222) whose bytes lie inside the
register file. With the at most 144 pins that boot accepts all do (R224; `MAX_PINS`, R7, R68, log entry 16). -/
def Obligations.BootWritesPinDescriptors : Prop :=
  ∀ c : BootParams, ∀ k p, c.pins[k]? = some p → 0x0600 + 4 * k + 3 < 65536 →
    (State.boot c).rfByte (0x0600 + 4 * k) = p.secondaryPin ∧
    (State.boot c).rfByte (0x0600 + 4 * k + 1) = p.secondaryTag ∧
    (State.boot c).rfByte (0x0600 + 4 * k + 2) = p.secondaryUnit ∧
    (State.boot c).rfByte (0x0600 + 4 * k + 3) = p.primaryTag

/-- R21, R210 (D3; log entry 4): every byte the descriptor builder does not write is 0x00 after boot, whatever
the configuration is: outside the ID block, the IDROM header, the modules with their sentinel and the pins
that there are. So in a configuration that boot accepts the status register (R43) and the digital I/O block
(R44) are zero. -/
def Obligations.BootLeavesTheRestZero : Prop :=
  ∀ c : BootParams,
    (∀ x, ¬ (0x0100 ≤ x ∧ x ≤ 0x010F) → ¬ (0x0400 ≤ x ∧ x ≤ 0x043F) →
      ¬ (0x0440 ≤ x ∧ x < 0x0440 + 12 * (c.modules.length + 1)) →
      ¬ (0x0600 ≤ x ∧ x < 0x0600 + 4 * c.pins.length) →
      (State.boot c).rfByte x = 0#8) ∧
    (bootChecksPass c = true →
      (∀ x, 0x0200 ≤ x ∧ x ≤ 0x0203 → (State.boot c).rfByte x = 0#8) ∧
      (∀ x, 0x1000 ≤ x ∧ x ≤ 0x14FF → (State.boot c).rfByte x = 0#8))

/-- R281 (derived; D3, D24): the rest of the state after boot: every info-area record holds its `INFO_INIT` and
the pointer 0 (R30). A configuration runs exactly when it has at most 36 modules (R219), none with GTag 0
(R218), as many pins as `BOARD.io_width` (R222), at most 144 (`MAX_PINS`, R7, R68, log entry 16) and at
least 16 bytes of `IDENT_7` (R41); every other is refused (R280 step 5, log entry 16). The spec leaves the
stored words 3 to 8 of memory space 6 unspecified (D16); that they are 0 is the model's choice (log entry
6). -/
def Obligations.BootStateOfTheOtherFields : Prop :=
  ∀ c : BootParams,
    let s := State.boot c
    let accepted := c.modules.length ≤ 36 ∧ (∀ m ∈ c.modules, m.gtag ≠ 0#8) ∧
      c.pins.length = c.board.ioWidth.toNat ∧ c.pins.length ≤ 144 ∧ 16 ≤ c.ident7.length
    (∀ sp, let r := s.infoRecord sp
      let i := c.info.get (spaceIndex sp)
      r.cookie = i.cookie ∧ r.memsizes = i.memsizes ∧ r.memranges = i.memranges ∧ r.pointer = 0#16 ∧
        r.name = i.name) ∧
    (∀ k < 16, statsWord s.stats k = 0#16) ∧
    s.bus.update = { index := 0, hook := none } ∧
    s.payload = [] ∧ s.cursor = 0 ∧ s.reply = [] ∧
    (bootChecksPass c = true ↔ accepted) ∧
    (accepted → s.request = .idle) ∧
    (¬ accepted → step s = .refused .illFormedConfiguration)

/-! ### Owners' accesses and the progress of both contexts -/

/-- R47, R72, R102, R109, R113, R114, R242 (D26, D40, D47; log entry 3), every move of an owner's code, in a hook
run by the update context as in a handler of any result run by the request context. An access does what
`Bus.accessed` says and the code goes on from what it gave: a read of its slice gets the byte the register
file holds at that step, a write is there from that step on. A hook starts having seen nothing; one that
returns makes room for the next region, its status not looked at; one that is stuck stays. A handler starts
having seen nothing; each access of it comes after the update context's steps at its interleaving point,
which leave a byte no hook writes as it was; its return ends the call with its value and status; stuck, or
past its limit of accesses (log entry 7), it never returns. -/
def Obligations.OwnerReadsSeeTheLastWrite : Prop :=
  ∀ (E : Env) (s : State) (r : Region) (idx : Nat), Memory.wf s.bus.rf = true →
    (s.regions[idx]? = some r → s.bus.update = { index := idx, hook := none } → r.update = true →
      s.updateStep E = { s with bus := { s.bus with
        update := { index := idx, hook := some ⟨s.bus.fresh, []⟩ }
        calls := s.bus.calls ++ [.update idx], fresh := s.bus.fresh + 1, turns := s.bus.turns + 1 } }) ∧
    (∀ h : HookProgress, s.regions[idx]? = some r → s.bus.update = { index := idx, hook := some h } →
      (∀ a, E.updateHook h.draw idx h.seen = .act a →
        ∃ given b', Bus.accessed idx r a given s.bus b' ∧
          s.updateStep E = { s with bus := { b' with
            update := { index := idx, hook := some ⟨h.draw, h.seen ++ [given]⟩ }
            turns := s.bus.turns + 1 } }) ∧
      (∀ st, E.updateHook h.draw idx h.seen = .finish () st →
        s.updateStep E = { s with bus := { s.bus with
          update := { index := idx + 1, hook := none }, turns := s.bus.turns + 1 } }) ∧
      (E.updateHook h.draw idx h.seen = .stuck →
        s.updateStep E = { s with bus := { s.bus with turns := s.bus.turns + 1 } })) ∧
    (∀ (α : Type) (code : OwnerCode α) (k : Nat) (seen : List (List Byte)),
      (∀ a, code seen = .act a →
        (∃ given b', Bus.accessed idx r a given (s.bus.interleave E s.regions) b' ∧
          Bus.runCode E s.regions idx r code (k + 1) seen s.bus =
            Bus.runCode E s.regions idx r code k (seen ++ [given]) b') ∧
        Bus.runCode E s.regions idx r code 0 seen s.bus = (none, s.bus)) ∧
      (∀ v st, code seen = .finish v st →
        Bus.runCode E s.regions idx r code k seen s.bus = (some (v, st), s.bus)) ∧
      (code seen = .stuck → Bus.runCode E s.regions idx r code k seen s.bus = (none, s.bus))) ∧
    (∀ draw off n, Bus.runRead E s.regions idx r draw off n s.bus =
      Bus.runCode E s.regions idx r (E.readHandler draw idx off n) (E.handlerLimit draw) [] s.bus) ∧
    (∀ draw off words, Bus.runWrite E s.regions idx r draw off words s.bus =
      Bus.runCode E s.regions idx r (E.writeHandler draw idx off words) (E.handlerLimit draw) [] s.bus) ∧
    ∀ x, s.hooksSpare E x → Memory.read (s.bus.interleave E s.regions).rf x = s.rfByte x

/-- R241 (D26, D38; log entry 2): a hook that reads a 32-bit register while a command writes it may see some
bytes old and some new. The update context at the start of a pass, with a hook that reads the status
register byte by byte, and some interleaving with a 32-bit write of it show a torn value to the hook. -/
def Obligations.TornHookReadIsPossible : Prop :=
  ∃ (E : Env) (s : State),
    s.regions = [⟨"status", 0x0200, 4, true, false, false⟩] ∧
    s.rfWord 0x0200 = 0#32 ∧ s.bus.update = { index := 0, hook := none } ∧
    (∀ draw seen, E.updateHook draw 0 seen =
      if seen.length < 4 then .act (.read seen.length) else .finish () 0) ∧
    ∃ t draw, s.write0 E (some 0x0200) .u32 false 1 [0xFF, 0xFF, 0xFF, 0xFF] = t ∧
      t.rfWord 0x0200 = 0xFFFFFFFF#32 ∧
      t.bus.update = { index := 0, hook := some ⟨draw, [[0x00], [0xFF], [0x00], [0x00]]⟩ }

/-- R72, R245 (D26, D44; log entry 2): the interleavings of the model are the fair ones, all of them. At each
interleaving point the update context takes the point's number of steps; from every point on there is one
at which it moves; and every sequence of numbers of steps that does not end in zeros only is one the free
values can give. -/
def Obligations.InterleavingsAreTheFairOnes : Prop :=
  (∀ (E : Env) (regions : List Region) (b : Bus),
    b.interleave E regions =
      Bus.updateRun E regions (stepsAt E b.points) { b with points := b.points + 1 } ∧
    (b.interleave E regions).turns = b.turns + stepsAt E b.points) ∧
  (∀ (E : Env) (d : Nat), ∃ d', d ≤ d' ∧ 0 < stepsAt E d') ∧
  ∀ (E : Env) (steps : Nat → Nat), (∀ d, ∃ d', d ≤ d' ∧ 0 < steps d') →
    ∃ patience : Nat → Nat, ∀ d,
      stepsAt { E with updateSteps := steps, updatePatience := patience } d = steps d

/-- R245 (D44; log entry 2), from every booted state: in every infinite execution the update context takes
infinitely many steps, whatever payloads keep arriving; and the payload being processed is processed to its
end, within one step for each of its bytes that remain and one more, unless a handler hangs. -/
def Obligations.BothContextsMakeProgress : Prop :=
  ∀ (s : State) (arrive : Nat → List (List Byte)), s.Inv → s.request ≠ .unbooted →
    (∀ N, ∃ k t, State.runFor arrive k s = some t ∧ N ≤ t.bus.turns) ∧
    (s.request = .busy → ∃ k t, k ≤ s.payload.length - s.cursor + 1 ∧
      State.runFor arrive k s = some t ∧ (t.request = .idle ∨ t.request = .hung))
end

