-- ==== Sys2Proof/Laws/Memory.lean ====
section
/-! SUPPORT. The register file's laws: every write keeps the canonical form, a read after a write, and
canonical memories with the same bytes are equal. -/

namespace Sys2Proof.Machine

@[simp] theorem Memory.read_nil (a : Nat) : Memory.read [] a = 0#8 := rfl

theorem Memory.wfFrom_cons {lo a : Nat} {v : Byte} {m : Memory} :
    Memory.wfFrom lo ((a, v) :: m) = true ↔
      lo ≤ a ∧ a < Config.rfSize ∧ v ≠ 0#8 ∧ Memory.wfFrom (a + 1) m = true := by
  simp [Memory.wfFrom, and_assoc]

theorem Memory.wfFrom_mono {lo lo' : Nat} {m : Memory} (h : lo' ≤ lo)
    (hw : Memory.wfFrom lo m = true) : Memory.wfFrom lo' m = true := by
  cases m with
  | nil => rfl
  | cons c m => exact Memory.wfFrom_cons.2 ⟨le_trans h (Memory.wfFrom_cons.1 hw).1,
      (Memory.wfFrom_cons.1 hw).2⟩

theorem Memory.read_of_lt {lo : Nat} {m : Memory} (hw : Memory.wfFrom lo m = true) {a : Nat}
    (h : a < lo) : Memory.read m a = 0#8 := by
  induction m generalizing lo with
  | nil => rfl
  | cons c m ih =>
    obtain ⟨b, v⟩ := c
    obtain ⟨h1, -, -, h4⟩ := Memory.wfFrom_cons.1 hw
    simp [Memory.read, show b ≠ a by omega, ih h4 (by omega)]

theorem Memory.wfFrom_write {lo : Nat} {m : Memory} {a : Nat} {v : Byte}
    (hw : Memory.wfFrom lo m = true) (hlo : lo ≤ a) (ha : a < Config.rfSize) :
    Memory.wfFrom lo (Memory.write m a v) = true := by
  induction m generalizing lo with
  | nil => by_cases hv : v = 0#8 <;> simp [Memory.write, Memory.wfFrom, hv, hlo, ha]
  | cons c m ih =>
    obtain ⟨b, w⟩ := c
    obtain ⟨h1, h2, h3, h4⟩ := Memory.wfFrom_cons.1 hw
    simp only [Memory.write]
    split
    · next hab =>
      split
      · exact hw
      · next hv =>
        exact Memory.wfFrom_cons.2 ⟨hlo, ha, hv, Memory.wfFrom_cons.2 ⟨by omega, h2, h3, h4⟩⟩
    · split
      · next hba =>
        split
        · exact Memory.wfFrom_mono (by omega) h4
        · next hv => exact Memory.wfFrom_cons.2 ⟨hlo, ha, hv, hba ▸ h4⟩
      · exact Memory.wfFrom_cons.2 ⟨h1, h2, h3, ih h4 (by omega)⟩

/-- Every write of a byte of the register file keeps the canonical form. -/
theorem Memory.wf_write {m : Memory} {a : Nat} (v : Byte) (hw : Memory.wf m = true)
    (ha : a < Config.rfSize) : Memory.wf (Memory.write m a v) = true :=
  Memory.wfFrom_write hw (Nat.zero_le a) ha

theorem Memory.wf_nil : Memory.wf [] = true := rfl

theorem Memory.wf_writeAll {m : Memory} {cells : List Host.Cell} (hw : Memory.wf m = true)
    (h : ∀ c ∈ cells, c.1 < Config.rfSize) : Memory.wf (Memory.writeAll m cells) = true := by
  induction cells generalizing m with
  | nil => exact hw
  | cons c cells ih =>
    simp only [Memory.writeAll, List.foldl_cons] at *
    exact ih (Memory.wf_write _ hw (h c (by simp))) fun d hd => h d (by simp [hd])

/-- A write leaves every other byte alone. -/
theorem Memory.read_write_ne {m : Memory} {a x : Nat} {v : Byte} (h : x ≠ a) :
    Memory.read (Memory.write m a v) x = Memory.read m x := by
  induction m with
  | nil => by_cases hv : v = 0#8 <;> simp [Memory.write, Memory.read, hv, h.symm]
  | cons c m ih =>
    obtain ⟨b, w⟩ := c
    simp only [Memory.write]
    split
    · split <;> simp [Memory.read, h.symm]
    · split
      · next hb => subst hb; split <;> simp [Memory.read, h.symm]
      · simp [Memory.read, ih]

theorem Memory.read_write_same_from {lo : Nat} {m : Memory} {a : Nat} {v : Byte}
    (hw : Memory.wfFrom lo m = true) : Memory.read (Memory.write m a v) a = v := by
  induction m generalizing lo with
  | nil => by_cases hv : v = 0#8 <;> simp [Memory.write, Memory.read, hv]
  | cons c m ih =>
    obtain ⟨b, w⟩ := c
    obtain ⟨-, -, -, h4⟩ := Memory.wfFrom_cons.1 hw
    simp only [Memory.write]
    split
    · next h =>
      split
      · next hv =>
        simp [Memory.read, show b ≠ a by omega, Memory.read_of_lt h4 (show a < b + 1 by omega), hv]
      · simp [Memory.read]
    · split
      · next hb =>
        subst hb
        split
        · next hv => simp [Memory.read_of_lt h4 (Nat.lt_succ_self b), hv]
        · simp [Memory.read]
      · next hb => simp [Memory.read, hb, ih h4]

/-- A read after a write to the same place gives the value written. -/
theorem Memory.read_write_same {m : Memory} {a : Nat} {v : Byte} (hw : Memory.wf m = true) :
    Memory.read (Memory.write m a v) a = v :=
  Memory.read_write_same_from hw

theorem Memory.read_write {m : Memory} {a x : Nat} {v : Byte} (hw : Memory.wf m = true) :
    Memory.read (Memory.write m a v) x = if x = a then v else Memory.read m x := by
  split
  · next h => subst h; exact Memory.read_write_same hw
  · next h => exact Memory.read_write_ne h

/-- Bytes outside the cells written are left alone. -/
theorem Memory.read_writeAll_of_notMem {m : Memory} {cells : List Host.Cell} {x : Nat}
    (h : x ∉ cells.map Prod.fst) : Memory.read (Memory.writeAll m cells) x = Memory.read m x := by
  induction cells generalizing m with
  | nil => rfl
  | cons c cells ih =>
    simp only [List.map_cons, List.mem_cons, not_or] at h
    simpa [Memory.writeAll] using (ih (m := Memory.write m c.1 c.2) h.2).trans
      (Memory.read_write_ne h.1)

theorem mem_addressRun {a n x : Nat} : x ∈ addressRun a n ↔ a ≤ x ∧ x < a + n := by
  simp only [addressRun, List.mem_map, List.mem_range]
  constructor
  · rintro ⟨k, hk, rfl⟩; omega
  · rintro ⟨h1, h2⟩; exact ⟨x - a, by omega, by omega⟩

@[simp] theorem addressRun_length (a n : Nat) : (addressRun a n).length = n := by
  simp [addressRun]

theorem addressRun_succ (a n : Nat) : addressRun a (n + 1) = a :: addressRun (a + 1) n := by
  simp only [addressRun, List.range_succ_eq_map, List.map_cons, List.map_map, Nat.add_zero]
  congr 1
  apply List.map_congr_left
  intro k _
  simp only [Function.comp, Nat.succ_eq_add_one]
  omega

end Sys2Proof.Machine
end

