-- ==== Sys2Proof/Laws/Units.lean ====
section
/-! SUPPORT. Byte order: splitting an assembled value gives its bytes back, and the other way round. -/

namespace Sys2Proof.Machine

theorem getLsbD_le16 (b0 b1 : Byte) (i : Nat) :
    (le16 b0 b1).getLsbD i = if i < 8 then b0.getLsbD i else b1.getLsbD (i - 8) :=
  BitVec.getLsbD_append (x := b1) (y := b0)

theorem getLsbD_le32 (b0 b1 b2 b3 : Byte) (i : Nat) :
    (le32 b0 b1 b2 b3).getLsbD i =
      if i < 16 then (le16 b0 b1).getLsbD i else (le16 b2 b3).getLsbD (i - 16) :=
  BitVec.getLsbD_append (x := b3 ++ b2) (y := b1 ++ b0)

theorem getLsbD_byteOf {n : Nat} (v : BitVec n) (k i : Nat) :
    (byteOf v k).getLsbD i = (decide (i < 8) && v.getLsbD (8 * k + i)) :=
  BitVec.getLsbD_extractLsb' ..

@[simp] theorem byteOf_le16_low (b0 b1 : Byte) : byteOf (le16 b0 b1) 0 = b0 := by
  apply BitVec.eq_of_getLsbD_eq; intro i hi
  rw [getLsbD_byteOf, getLsbD_le16]; simp [hi]

@[simp] theorem byteOf_le16_high (b0 b1 : Byte) : byteOf (le16 b0 b1) 1 = b1 := by
  apply BitVec.eq_of_getLsbD_eq; intro i hi
  rw [getLsbD_byteOf, getLsbD_le16]; simp [hi]

@[simp] theorem le16_byteOf (v : Half) : le16 (byteOf v 0) (byteOf v 1) = v := by
  apply BitVec.eq_of_getLsbD_eq; intro i hi
  rw [getLsbD_le16, getLsbD_byteOf, getLsbD_byteOf]
  split
  · next h => simp [h]
  · next h => simp [show i - 8 < 8 by omega, show 8 + (i - 8) = i by omega]

@[simp] theorem halfBytes_le16 (b0 b1 : Byte) : halfBytes (le16 b0 b1) = [b0, b1] := by
  simp [halfBytes]

/-- The four bytes of an assembled word (R10). -/
theorem byteOf_le32 (b0 b1 b2 b3 : Byte) :
    byteOf (le32 b0 b1 b2 b3) 0 = b0 ∧ byteOf (le32 b0 b1 b2 b3) 1 = b1 ∧
      byteOf (le32 b0 b1 b2 b3) 2 = b2 ∧ byteOf (le32 b0 b1 b2 b3) 3 = b3 := by
  refine ⟨?_, ?_, ?_, ?_⟩ <;> (apply BitVec.eq_of_getLsbD_eq; intro i hi) <;>
    rw [getLsbD_byteOf, getLsbD_le32, getLsbD_le16, getLsbD_le16]
  · simp [hi, show i < 16 by omega]
  · simp [hi, show 8 + i < 16 by omega]
  · simp [hi]
  · simp [hi, show ¬ 24 + i < 16 by omega, show 24 + i - 16 = 8 + i by omega]

@[simp] theorem wordBytes_le32 (b0 b1 b2 b3 : Byte) :
    wordBytes (le32 b0 b1 b2 b3) = [b0, b1, b2, b3] := by
  obtain ⟨h0, h1, h2, h3⟩ := byteOf_le32 b0 b1 b2 b3
  simp [wordBytes, h0, h1, h2, h3]

/-- A word is assembled from its own bytes (R10). -/
@[simp] theorem le32_byteOf (v : Word) :
    le32 (byteOf v 0) (byteOf v 1) (byteOf v 2) (byteOf v 3) = v := by
  apply BitVec.eq_of_getLsbD_eq; intro i hi
  rw [getLsbD_le32, getLsbD_le16, getLsbD_le16]
  simp only [getLsbD_byteOf]
  split
  · split
    · next h => simp [h]
    · next h => simp [show i - 8 < 8 by omega, show 8 + (i - 8) = i by omega]
  · split
    · next h => simp [h, show 16 + (i - 16) = i by omega]
    · next h => simp [show i - 16 - 8 < 8 by omega, show 24 + (i - 16 - 8) = i by omega]

@[simp] theorem wordBytes_length (v : Word) : (wordBytes v).length = 4 := rfl

@[simp] theorem halfBytes_length (v : Half) : (halfBytes v).length = 2 := rfl

@[simp] theorem wordsBytes_nil : wordsBytes [] = [] := rfl

@[simp] theorem wordsBytes_cons (w : Word) (ws : List Word) :
    wordsBytes (w :: ws) = wordBytes w ++ wordsBytes ws := rfl

@[simp] theorem wordsBytes_length (ws : List Word) : (wordsBytes ws).length = 4 * ws.length := by
  induction ws with
  | nil => rfl
  | cons w ws ih => simp [ih]; omega

/-- A byte run of whole words has its bytes back after assembling words from it (R63). -/
theorem wordsBytes_wordsOf (k : Nat) (bs : List Byte) (h : bs.length = 4 * k) :
    wordsBytes (wordsOf bs) = bs := by
  induction k generalizing bs with
  | zero => simp_all [wordsOf]
  | succ k ih =>
    match bs, h with
    | b0 :: b1 :: b2 :: b3 :: rest, h => simp [wordsOf, ih rest (by simp at h; omega)]

theorem wordsOf_length (k : Nat) (bs : List Byte) (h : bs.length = 4 * k) :
    (wordsOf bs).length = k := by
  have := congrArg List.length (wordsBytes_wordsOf k bs h)
  simp at this; omega

theorem UnitSize.bytes_pos (z : UnitSize) : 0 < z.bytes := by cases z <;> decide

end Sys2Proof.Machine
end

