-- ==== Sys2Proof/Laws/Operands.lean ====
section
/-! SUPPORT. The touched bytes of a command: how many, which, in what order, and what storing a
command's data at them leaves (the last data byte that goes to a place). -/

namespace Sys2Proof.Machine

/-! ### The touched bytes -/

theorem flatMap_range_length {f : Nat → List Nat} {B : Nat} (h : ∀ i, (f i).length = B) (C : Nat) :
    ((List.range C).flatMap f).length = C * B := by
  induction C with
  | zero => simp
  | succ C ih => simp [List.range_succ, ih, h, Nat.succ_mul]

theorem flatMap_range_getElem? {f : Nat → List Nat} {B : Nat} (h : ∀ i, (f i).length = B)
    {C i j : Nat} (hi : i < C) (hj : j < B) :
    ((List.range C).flatMap f)[i * B + j]? = (f i)[j]? := by
  induction C with
  | zero => omega
  | succ C ih =>
    have hl := flatMap_range_length h C
    rw [List.range_succ, List.flatMap_append]
    by_cases hC : i < C
    · have : i * B + j < C * B := by
        calc i * B + j < i * B + B := by omega
          _ = (i + 1) * B := by rw [Nat.succ_mul]
          _ ≤ C * B := Nat.mul_le_mul_right B hC
      rw [List.getElem?_append_left (by omega), ih hC]
    · have : i = C := by omega
      subst this
      rw [List.getElem?_append_right (by omega), hl]
      simp

@[simp] theorem touched_length (a : Nat) (size : UnitSize) (incr : Bool) (count : BitVec 7) :
    (touched a size incr count).length = count.toNat * size.bytes :=
  flatMap_range_length (fun _ => by simp) _

/-- Byte j of unit i is the touched byte number i*B + j (R62, R147). -/
theorem touched_getElem? {a : Nat} {size : UnitSize} {incr : Bool} {count : BitVec 7} {i j : Nat}
    (hi : i < count.toNat) (hj : j < size.bytes) :
    (touched a size incr count)[i * size.bytes + j]? =
      some (a + (if incr then i * size.bytes else 0) + j) := by
  rw [touched, flatMap_range_getElem? (fun _ => by simp) hi hj]
  simp [addressRun, hj, unitAddress]

/-- A list read at the touched bytes is what `repliesUnits` says. -/
theorem repliesUnits_map (a : Nat) (size : UnitSize) (incr : Bool) (count : BitVec 7)
    (byte : Nat → Byte) : repliesUnits a size incr count byte
      ((touched a size incr count).map byte) := by
  refine ⟨by simp, fun i hi j hj => ?_⟩
  rw [List.getElem?_map, touched_getElem? hi hj]; rfl

/-- With increment the touched bytes are one run (R147). -/
theorem touched_incr (a : Nat) (size : UnitSize) (count : BitVec 7) :
    touched a size true count = addressRun a (count.toNat * size.bytes) := by
  unfold touched
  generalize count.toNat = C
  induction C with
  | zero => simp [addressRun]
  | succ C ih =>
    rw [List.range_succ, List.flatMap_append, ih]
    simp only [List.flatMap_cons, List.flatMap_nil, List.append_nil, addressRun, unitAddress,
      if_true, Nat.succ_mul, List.range_add, List.map_append, List.map_map]
    congr 1
    exact List.map_congr_left fun k _ => by simp [Nat.add_assoc]

theorem mem_touched {a : Nat} {size : UnitSize} {incr : Bool} {count : BitVec 7} {x : Nat}
    (h : x ∈ touched a size incr count) : a ≤ x ∧ x < a + span size incr count := by
  simp only [touched, List.mem_flatMap, List.mem_range, mem_addressRun, unitAddress] at h
  obtain ⟨i, hi, h1, h2⟩ := h
  cases incr with
  | false => simp [span] at *; omega
  | true =>
    have : (i + 1) * size.bytes ≤ count.toNat * size.bytes := Nat.mul_le_mul_right _ hi
    rw [Nat.succ_mul] at this
    simp [span] at *; omega

theorem mem_touched_iff {a : Nat} {size : UnitSize} {incr : Bool} {count : BitVec 7} {x : Nat}
    (hC : 0 < count.toNat) :
    x ∈ touched a size incr count ↔ a ≤ x ∧ x < a + span size incr count := by
  refine ⟨mem_touched, fun h => ?_⟩
  cases incr with
  | true => rw [touched_incr, mem_addressRun]; simpa [span] using h
  | false =>
    simp only [touched, List.mem_flatMap, List.mem_range, mem_addressRun]
    exact ⟨0, hC, by simpa [span, unitAddress] using h⟩

theorem countOk_pos {count : BitVec 7} (h : count ≠ 0#7) : 0 < count.toNat := by
  rcases Nat.eq_zero_or_pos count.toNat with h0 | h0
  · exact absurd (BitVec.eq_of_toNat_eq (by simpa using h0)) h
  · exact h0

/-! ### Storing data: the last byte that goes to a place stays -/

/-- The value the last cell for x holds. -/
def lastCell (cells : List Host.Cell) (x : Nat) : Option Byte :=
  cells.foldl (fun o c => if c.1 = x then some c.2 else o) none

theorem lastCell_append (xs ys : List Host.Cell) (x : Nat) :
    lastCell (xs ++ ys) x = (lastCell ys x).or (lastCell xs x) := by
  have h : ∀ (zs : List Host.Cell) (o : Option Byte),
      zs.foldl (fun o c => if c.1 = x then some c.2 else o) o = (lastCell zs x).or o := by
    intro zs
    induction zs with
    | nil => intro o; rfl
    | cons z zs ih =>
      intro o
      simp only [lastCell, List.foldl_cons]
      rw [ih, ih (if z.1 = x then some z.2 else none)]
      split <;> simp
  rw [lastCell, List.foldl_append, h]
  rfl

theorem lastCell_cons (a : Nat) (v : Byte) (cells : List Host.Cell) (x : Nat) :
    lastCell ((a, v) :: cells) x = (lastCell cells x).or (if a = x then some v else none) :=
  lastCell_append [(a, v)] cells x

/-- Storing cells one after another, in any store whose single store obeys the read-after-write law,
leaves the last cell's value at every place. -/
theorem foldl_store {σ : Type} {set : σ → Host.Cell → σ} {get : σ → Byte} {x : Nat}
    {I : σ → Prop} {cells : List Host.Cell}
    (law : ∀ s, ∀ c ∈ cells, I s →
      I (set s c) ∧ get (set s c) = if c.1 = x then c.2 else get s)
    {s : σ} (hs : I s) : get (cells.foldl set s) = (lastCell cells x).getD (get s) := by
  induction cells generalizing s with
  | nil => rfl
  | cons c cells ih =>
    obtain ⟨hI, hg⟩ := law s c (by simp) hs
    obtain ⟨a, v⟩ := c
    rw [List.foldl_cons, ih (fun s d hd => law s d (by simp [hd])) hI, hg, lastCell_cons]
    cases lastCell cells x <;> simp
    split <;> simp

theorem lastCell_run (a n : Nat) (data : List Byte) (hd : data.length = n) (x : Nat) :
    lastCell ((addressRun a n).zip data) x =
      if a ≤ x ∧ x < a + n then some (data.getD (x - a) 0#8) else none := by
  induction n generalizing a data with
  | zero =>
    rw [if_neg (by omega)]; simp [addressRun, lastCell]
  | succ n ih =>
    match data, hd with
    | d :: ds, hd =>
      rw [addressRun_succ, List.zip_cons_cons, lastCell_cons, ih (a + 1) ds (by simpa using hd)]
      by_cases hx : a = x
      · subst hx; simp
      · simp only [hx, if_false, Option.or_none]
        by_cases h : a + 1 ≤ x ∧ x < a + 1 + n
        · have h' : a ≤ x ∧ x < a + (n + 1) := by omega
          have : x - a = (x - (a + 1)) + 1 := by omega
          simp [h, h', this]
        · have h' : ¬ (a ≤ x ∧ x < a + (n + 1)) := by omega
          rw [if_neg h, if_neg h']

/-- Which data byte ends up at x when a command's data goes to the touched bytes. -/
theorem lastCell_touched {a : Nat} {size : UnitSize} {incr : Bool} {count : BitVec 7}
    {data : List Byte} (hC : 0 < count.toNat) (hd : data.length = count.toNat * size.bytes)
    (x : Nat) :
    lastCell ((touched a size incr count).zip data) x =
      if a ≤ x ∧ x < a + span size incr count then
        some (data.getD (finalIndex a size incr count x) 0#8) else none := by
  cases incr with
  | true =>
    rw [touched_incr, lastCell_run a _ data hd]
    simp [span, finalIndex]
  | false =>
    have key : ∀ C (data : List Byte), 0 < C → data.length = C * size.bytes →
        lastCell (((List.range C).flatMap fun i =>
          addressRun (unitAddress a size false i) size.bytes).zip data) x =
          if a ≤ x ∧ x < a + size.bytes then
            some (data.getD ((C - 1) * size.bytes + (x - a)) 0#8) else none := by
      intro C
      induction C with
      | zero => omega
      | succ C ih =>
        intro data _ hd
        rw [Nat.succ_mul] at hd
        have hs : data = data.take (C * size.bytes) ++ data.drop (C * size.bytes) :=
          (List.take_append_drop ..).symm
        have hl := flatMap_range_length (B := size.bytes)
          (f := fun i => addressRun (unitAddress a size false i) size.bytes) (fun _ => by simp) C
        rw [List.range_succ, List.flatMap_append]
        conv_lhs => rw [hs]
        rw [List.zip_append (by simp [hl]; omega), lastCell_append]
        simp only [List.flatMap_cons, List.flatMap_nil, List.append_nil]
        rw [lastCell_run _ _ _ (by simp; omega)]
        simp only [unitAddress, Bool.false_eq_true, if_false, Nat.add_zero, Nat.add_sub_cancel]
        split
        · simp [List.getD_eq_getElem?_getD, List.getElem?_drop]
        · next h =>
          rcases Nat.eq_zero_or_pos C with h0 | h0
          · subst h0; simp [lastCell]
          · have := ih (data.take (C * size.bytes)) h0 (by simp; omega)
            simp only [h, if_false, unitAddress, Bool.false_eq_true, Nat.add_zero] at this
            simp [this]
    simpa [touched, span, finalIndex] using key count.toNat data hC hd

/-- A store that obeys the read-after-write law holds, after a command's data is stored, what
`afterStore` says. -/
theorem foldl_store_touched {σ : Type} {set : σ → Host.Cell → σ} {get : σ → Byte} {x : Nat}
    {I : σ → Prop} {a : Nat} {size : UnitSize} {incr : Bool} {count : BitVec 7}
    {data : List Byte} (hC : 0 < count.toNat) (hd : data.length = count.toNat * size.bytes)
    (law : ∀ s, ∀ c ∈ (touched a size incr count).zip data, I s →
      I (set s c) ∧ get (set s c) = if c.1 = x then c.2 else get s)
    {s : σ} (hs : I s) :
    get (((touched a size incr count).zip data).foldl set s) =
      afterStore a size incr count data x (get s) := by
  rw [foldl_store law hs, lastCell_touched hC hd, afterStore]
  split <;> rfl

theorem mem_zip_touched {a : Nat} {size : UnitSize} {incr : Bool} {count : BitVec 7}
    {data : List Byte} {c : Host.Cell} (h : c ∈ (touched a size incr count).zip data) :
    a ≤ c.1 ∧ c.1 < a + span size incr count :=
  mem_touched (List.of_mem_zip h).1

end Sys2Proof.Machine
end

