-- ==== Sys2Proof/Laws/Boot.lean ====
section
/-! SUPPORT. Boot: what the register file holds after the descriptor builder, and which regions the
registrations leave. -/

namespace Sys2Proof.Machine

theorem place_eq_zip (a : Nat) (bs : List Byte) : place a bs = (addressRun a bs.length).zip bs := by
  unfold place addressRun
  apply List.ext_getElem
  · simp
  · intro i h1 h2; simp

/-- Which byte a placed block holds at x. -/
theorem lastCell_place (a : Nat) (bs : List Byte) (x : Nat) :
    lastCell (place a bs) x =
      if a ≤ x ∧ x < a + bs.length then some (bs.getD (x - a) 0#8) else none := by
  rw [place_eq_zip, lastCell_run a _ bs rfl]

theorem lastCell_filter {cells : List Host.Cell} {x n : Nat} (hx : x < n) :
    lastCell (cells.filter fun p => decide (p.1 < n)) x = lastCell cells x := by
  induction cells with
  | nil => rfl
  | cons c cells ih =>
    obtain ⟨a, v⟩ := c
    rw [List.filter_cons, lastCell_cons]
    split
    · rw [lastCell_cons, ih]
    · next h =>
      have : a ≠ x := by rintro rfl; simp [hx] at h
      simp [ih, this]

/-- Reading after single-byte writes into an empty register file. -/
theorem read_writeAll_nil {cells : List Host.Cell} (h : ∀ c ∈ cells, c.1 < Config.rfSize)
    (x : Nat) : Memory.read (Memory.writeAll [] cells) x = (lastCell cells x).getD 0#8 := by
  refine foldl_store (get := (Memory.read · x)) (I := fun m => Memory.wf m = true) ?_ rfl
  intro m c hc hm
  refine ⟨Memory.wf_write _ hm (h c hc), ?_⟩
  rw [Memory.read_write hm]
  by_cases hx : x = c.1
  · simp [hx]
  · simp [hx, Ne.symm hx]

theorem bootRegisterFile_wf (c : BootParams) : Memory.wf (bootRegisterFile c) = true :=
  Memory.wf_writeAll rfl fun p hp => by simpa using (List.mem_filter.1 hp).2

/-- A byte of the register file after boot: the builder's last block that holds it, else 0x00 (R21,
R210). -/
theorem bootRegisterFile_read (c : BootParams) {x : Nat} (hx : x < Config.rfSize) :
    Memory.read (bootRegisterFile c) x =
      ((lastCell (place 0x0600 (c.pins.flatMap pinBytes)) x).or
        ((lastCell (place 0x0440 (moduleArrayBytes c.modules)) x).or
          ((lastCell (place 0x0400 (idromBytes c.board)) x).or
            (lastCell (place 0x0100 idBlockBytes) x)))).getD 0#8 := by
  unfold bootRegisterFile descriptorCells
  rw [read_writeAll_nil (fun p hp => by simpa using (List.mem_filter.1 hp).2), lastCell_filter hx,
    lastCell_append, lastCell_append, lastCell_append]

@[simp] theorem idBlockBytes_length : idBlockBytes.length = 16 := rfl

@[simp] theorem idromBytes_length (b : Board) : (idromBytes b).length = 64 := by
  simp [idromBytes]

@[simp] theorem moduleBytes_length (m : ModuleDesc) : (moduleBytes m).length = 12 := rfl

@[simp] theorem pinBytes_length (p : PinDesc) : (pinBytes p).length = 4 := rfl

theorem flatMap_const_length {α : Type} {f : α → List Byte} {n : Nat} (h : ∀ a, (f a).length = n)
    (as : List α) : (as.flatMap f).length = as.length * n := by
  induction as with
  | nil => simp
  | cons a as ih => simp [ih, h, Nat.succ_mul, Nat.add_comm]

theorem flatMap_const_getElem? {α : Type} {f : α → List Byte} {n : Nat}
    (h : ∀ a, (f a).length = n) {as : List α} {k j : Nat} {a : α} (hk : as[k]? = some a)
    (hj : j < n) : (as.flatMap f)[n * k + j]? = (f a)[j]? := by
  induction as generalizing k with
  | nil => simp at hk
  | cons b as ih =>
    cases k with
    | zero => simp at hk; subst hk; simp [List.getElem?_append_left (show j < (f b).length by simp [h, hj])]
    | succ k =>
      simp at hk
      rw [List.flatMap_cons, List.getElem?_append_right (by rw [h, Nat.mul_succ]; omega), h,
        show n * (k + 1) + j - n = n * k + j by rw [Nat.mul_succ]; omega]
      exact ih hk

@[simp] theorem moduleArrayBytes_length (ms : List ModuleDesc) :
    (moduleArrayBytes ms).length = 12 * (ms.length + 1) := by
  simp [moduleArrayBytes, flatMap_const_length moduleBytes_length]; omega

theorem pinArray_length (ps : List PinDesc) : (ps.flatMap pinBytes).length = ps.length * 4 :=
  flatMap_const_length pinBytes_length ps

/-! ### Registration -/

/-- Boot's registrations keep the first regions, in order, up to 8 in the table (R100, R101, R280). -/
theorem registerAll_fst (ds : List RegionDecl) (table : List Region) (owners : List (List Byte))
    (h : table.length ≤ Config.maxRegions) :
    (registerAll ds table owners).1 =
      table ++ (ds.map (·.region)).take (Config.maxRegions - table.length) := by
  induction ds generalizing table owners with
  | nil => simp [registerAll]
  | cons d ds ih =>
    unfold registerAll registerRegion
    by_cases hf : table.length = Config.maxRegions
    · simp [hf, ih table owners h]
    · have hlt : table.length < Config.maxRegions := by omega
      have hn : Config.maxRegions - table.length = (Config.maxRegions - (table.length + 1)) + 1 := by
        omega
      simp only [hf, if_false]
      rw [ih _ _ (by simp; omega), hn]
      simp

theorem registerAll_snd_length (ds : List RegionDecl) (table : List Region)
    (owners : List (List Byte)) (h : owners.length = table.length) :
    (registerAll ds table owners).2.length = (registerAll ds table owners).1.length := by
  induction ds generalizing table owners with
  | nil => simpa [registerAll] using h
  | cons d ds ih =>
    unfold registerAll
    split
    · exact ih _ _ h
    · next t ht =>
      refine ih _ _ ?_
      unfold registerRegion at ht
      split at ht
      · cases ht
      · cases ht; simp [h]

/-! ### The fields of the state after boot (R281) -/

section
variable (c : BootParams)
@[simp] theorem State.boot_bus_rf :
    (State.boot c).bus.rf = bootRegisterFile c := by
  simp only [State.boot]
@[simp] theorem State.boot_bus_update :
    (State.boot c).bus.update = { index := 0, hook := none } := by
  simp only [State.boot]
@[simp] theorem State.boot_bus_owners :
    (State.boot c).bus.owners = (registerAll c.regions [] []).2 := by
  simp only [State.boot]
@[simp] theorem State.boot_bus_calls : (State.boot c).bus.calls = [] := by
  simp only [State.boot]
@[simp] theorem State.boot_bus_fresh : (State.boot c).bus.fresh = 0 := by
  simp only [State.boot]
@[simp] theorem State.boot_bus_points : (State.boot c).bus.points = 0 := by
  simp only [State.boot]
@[simp] theorem State.boot_bus_turns : (State.boot c).bus.turns = 0 := by
  simp only [State.boot]
@[simp] theorem State.boot_regions :
    (State.boot c).regions = (registerAll c.regions [] []).1 := by
  simp only [State.boot]
@[simp] theorem State.boot_strictEnd :
    (State.boot c).strictEnd = c.strictEnd := by
  simp only [State.boot]
@[simp] theorem State.boot_info :
    (State.boot c).info = c.info.map InfoRecord.boot := by
  simp only [State.boot]
@[simp] theorem State.boot_space2 : (State.boot c).space2 = c.image2 := by
  simp only [State.boot]
@[simp] theorem State.boot_space4 :
    (State.boot c).space4 = List.replicate c.size4 0#8 := by
  simp only [State.boot]
@[simp] theorem State.boot_stats :
    (State.boot c).stats = Vector.replicate 32 0#8 := by
  simp only [State.boot]
@[simp] theorem State.boot_space7 : (State.boot c).space7 = c.ident7 := by
  simp only [State.boot]
@[simp] theorem State.boot_request :
    (State.boot c).request = if bootChecksPass c then .idle else .unbooted := by
  simp only [State.boot]
@[simp] theorem State.boot_payload : (State.boot c).payload = [] := by
  simp only [State.boot]
@[simp] theorem State.boot_cursor : (State.boot c).cursor = 0 := by
  simp only [State.boot]
@[simp] theorem State.boot_reply : (State.boot c).reply = [] := by
  simp only [State.boot]
@[simp] theorem State.boot_resetRequested :
    (State.boot c).resetRequested = false := by
  simp only [State.boot]
@[simp] theorem State.boot_inbox : (State.boot c).inbox = [] := by
  simp only [State.boot]
@[simp] theorem State.boot_outbox : (State.boot c).outbox = [] := by
  simp only [State.boot]
@[simp] theorem State.boot_draws : (State.boot c).draws = 0 := by
  simp only [State.boot]
end

end Sys2Proof.Machine
end

