-- ==== Sys2Proof/Laws/State.lean ====
section
/-! SUPPORT. One lemma per field per update of the state, true by rfl: no later proof unfolds a record
update. -/

namespace Sys2Proof.Machine

/-! ### `emit`: the reply grows -/

section
variable (s : State) (bs : List Byte)
@[simp] theorem State.emit_reply : (s.emit bs).reply = s.reply ++ bs := rfl
@[simp] theorem State.emit_bus : (s.emit bs).bus = s.bus := rfl
@[simp] theorem State.emit_regions : (s.emit bs).regions = s.regions := rfl
@[simp] theorem State.emit_strictEnd : (s.emit bs).strictEnd = s.strictEnd := rfl
@[simp] theorem State.emit_info : (s.emit bs).info = s.info := rfl
@[simp] theorem State.emit_space2 : (s.emit bs).space2 = s.space2 := rfl
@[simp] theorem State.emit_space4 : (s.emit bs).space4 = s.space4 := rfl
@[simp] theorem State.emit_stats : (s.emit bs).stats = s.stats := rfl
@[simp] theorem State.emit_space7 : (s.emit bs).space7 = s.space7 := rfl
@[simp] theorem State.emit_request : (s.emit bs).request = s.request := rfl
@[simp] theorem State.emit_payload : (s.emit bs).payload = s.payload := rfl
@[simp] theorem State.emit_cursor : (s.emit bs).cursor = s.cursor := rfl
@[simp] theorem State.emit_resetRequested : (s.emit bs).resetRequested = s.resetRequested := rfl
@[simp] theorem State.emit_inbox : (s.emit bs).inbox = s.inbox := rfl
@[simp] theorem State.emit_outbox : (s.emit bs).outbox = s.outbox := rfl
@[simp] theorem State.emit_draws : (s.emit bs).draws = s.draws := rfl
end

/-! ### `count`, `reject`: an error counter -/

section
variable (s : State) (e : ErrorCode)
@[simp] theorem State.reject_eq : s.reject e = s.count e := rfl
@[simp] theorem State.count_stats : (s.count e).stats = bumpCounter s.stats e := rfl
@[simp] theorem State.count_bus : (s.count e).bus = s.bus := rfl
@[simp] theorem State.count_regions : (s.count e).regions = s.regions := rfl
@[simp] theorem State.count_strictEnd : (s.count e).strictEnd = s.strictEnd := rfl
@[simp] theorem State.count_info : (s.count e).info = s.info := rfl
@[simp] theorem State.count_space2 : (s.count e).space2 = s.space2 := rfl
@[simp] theorem State.count_space4 : (s.count e).space4 = s.space4 := rfl
@[simp] theorem State.count_space7 : (s.count e).space7 = s.space7 := rfl
@[simp] theorem State.count_request : (s.count e).request = s.request := rfl
@[simp] theorem State.count_payload : (s.count e).payload = s.payload := rfl
@[simp] theorem State.count_cursor : (s.count e).cursor = s.cursor := rfl
@[simp] theorem State.count_reply : (s.count e).reply = s.reply := rfl
@[simp] theorem State.count_resetRequested : (s.count e).resetRequested = s.resetRequested := rfl
@[simp] theorem State.count_inbox : (s.count e).inbox = s.inbox := rfl
@[simp] theorem State.count_outbox : (s.count e).outbox = s.outbox := rfl
@[simp] theorem State.count_draws : (s.count e).draws = s.draws := rfl
end

/-! ### `advance`: the cursor -/

section
variable (s : State) (k : Nat)
@[simp] theorem State.advance_cursor : (s.advance k).cursor = s.cursor + k := rfl
@[simp] theorem State.advance_bus : (s.advance k).bus = s.bus := rfl
@[simp] theorem State.advance_regions : (s.advance k).regions = s.regions := rfl
@[simp] theorem State.advance_strictEnd : (s.advance k).strictEnd = s.strictEnd := rfl
@[simp] theorem State.advance_info : (s.advance k).info = s.info := rfl
@[simp] theorem State.advance_space2 : (s.advance k).space2 = s.space2 := rfl
@[simp] theorem State.advance_space4 : (s.advance k).space4 = s.space4 := rfl
@[simp] theorem State.advance_stats : (s.advance k).stats = s.stats := rfl
@[simp] theorem State.advance_space7 : (s.advance k).space7 = s.space7 := rfl
@[simp] theorem State.advance_request : (s.advance k).request = s.request := rfl
@[simp] theorem State.advance_payload : (s.advance k).payload = s.payload := rfl
@[simp] theorem State.advance_reply : (s.advance k).reply = s.reply := rfl
@[simp] theorem State.advance_resetRequested :
    (s.advance k).resetRequested = s.resetRequested := rfl
@[simp] theorem State.advance_inbox : (s.advance k).inbox = s.inbox := rfl
@[simp] theorem State.advance_outbox : (s.advance k).outbox = s.outbox := rfl
@[simp] theorem State.advance_draws : (s.advance k).draws = s.draws := rfl
end

/-! ### `interleave`, `updateStep`: the update context touches the bus only -/

section
variable (E : Env) (s : State)
@[simp] theorem State.interleave_bus :
    (s.interleave E).bus = s.bus.interleave E s.regions := rfl
@[simp] theorem State.interleave_regions : (s.interleave E).regions = s.regions := rfl
@[simp] theorem State.interleave_strictEnd : (s.interleave E).strictEnd = s.strictEnd := rfl
@[simp] theorem State.interleave_info : (s.interleave E).info = s.info := rfl
@[simp] theorem State.interleave_space2 : (s.interleave E).space2 = s.space2 := rfl
@[simp] theorem State.interleave_space4 : (s.interleave E).space4 = s.space4 := rfl
@[simp] theorem State.interleave_stats : (s.interleave E).stats = s.stats := rfl
@[simp] theorem State.interleave_space7 : (s.interleave E).space7 = s.space7 := rfl
@[simp] theorem State.interleave_request : (s.interleave E).request = s.request := rfl
@[simp] theorem State.interleave_payload : (s.interleave E).payload = s.payload := rfl
@[simp] theorem State.interleave_cursor : (s.interleave E).cursor = s.cursor := rfl
@[simp] theorem State.interleave_reply : (s.interleave E).reply = s.reply := rfl
@[simp] theorem State.interleave_resetRequested :
    (s.interleave E).resetRequested = s.resetRequested := rfl
@[simp] theorem State.interleave_inbox : (s.interleave E).inbox = s.inbox := rfl
@[simp] theorem State.interleave_outbox : (s.interleave E).outbox = s.outbox := rfl
@[simp] theorem State.interleave_draws : (s.interleave E).draws = s.draws := rfl

@[simp] theorem State.updateStep_bus :
    (s.updateStep E).bus = s.bus.updateStep E s.regions := rfl
@[simp] theorem State.updateStep_regions : (s.updateStep E).regions = s.regions := rfl
@[simp] theorem State.updateStep_strictEnd : (s.updateStep E).strictEnd = s.strictEnd := rfl
@[simp] theorem State.updateStep_info : (s.updateStep E).info = s.info := rfl
@[simp] theorem State.updateStep_space2 : (s.updateStep E).space2 = s.space2 := rfl
@[simp] theorem State.updateStep_space4 : (s.updateStep E).space4 = s.space4 := rfl
@[simp] theorem State.updateStep_stats : (s.updateStep E).stats = s.stats := rfl
@[simp] theorem State.updateStep_space7 : (s.updateStep E).space7 = s.space7 := rfl
@[simp] theorem State.updateStep_request : (s.updateStep E).request = s.request := rfl
@[simp] theorem State.updateStep_payload : (s.updateStep E).payload = s.payload := rfl
@[simp] theorem State.updateStep_cursor : (s.updateStep E).cursor = s.cursor := rfl
@[simp] theorem State.updateStep_reply : (s.updateStep E).reply = s.reply := rfl
@[simp] theorem State.updateStep_resetRequested :
    (s.updateStep E).resetRequested = s.resetRequested := rfl
@[simp] theorem State.updateStep_inbox : (s.updateStep E).inbox = s.inbox := rfl
@[simp] theorem State.updateStep_outbox : (s.updateStep E).outbox = s.outbox := rfl
@[simp] theorem State.updateStep_draws : (s.updateStep E).draws = s.draws := rfl
end

/-! ### `leavePayload`, `finishPayload`: the end of a payload -/

section
variable (s : State)
@[simp] theorem State.leavePayload_request : s.leavePayload.request = .idle := rfl
@[simp] theorem State.leavePayload_payload : s.leavePayload.payload = [] := rfl
@[simp] theorem State.leavePayload_cursor : s.leavePayload.cursor = 0 := rfl
@[simp] theorem State.leavePayload_reply : s.leavePayload.reply = [] := rfl
@[simp] theorem State.leavePayload_bus : s.leavePayload.bus = s.bus := rfl
@[simp] theorem State.leavePayload_regions : s.leavePayload.regions = s.regions := rfl
@[simp] theorem State.leavePayload_stats : s.leavePayload.stats = s.stats := rfl
@[simp] theorem State.leavePayload_info : s.leavePayload.info = s.info := rfl
@[simp] theorem State.leavePayload_outbox : s.leavePayload.outbox = s.outbox := rfl

/-- The frames sent after a payload: one more if the reply is non-empty (R163). -/
theorem State.finishPayload_eq :
    s.finishPayload = { s.leavePayload with
      outbox := s.outbox ++ (if s.reply = [] then [] else [s.reply]) } := by
  unfold State.finishPayload
  split <;> simp_all [State.leavePayload]

@[simp] theorem State.finishPayload_request : s.finishPayload.request = .idle := by
  rw [State.finishPayload_eq]; rfl
@[simp] theorem State.finishPayload_payload : s.finishPayload.payload = [] := by
  rw [State.finishPayload_eq]; rfl
@[simp] theorem State.finishPayload_cursor : s.finishPayload.cursor = 0 := by
  rw [State.finishPayload_eq]; rfl
@[simp] theorem State.finishPayload_reply : s.finishPayload.reply = [] := by
  rw [State.finishPayload_eq]; rfl
@[simp] theorem State.finishPayload_bus : s.finishPayload.bus = s.bus := by
  rw [State.finishPayload_eq]; rfl
@[simp] theorem State.finishPayload_regions : s.finishPayload.regions = s.regions := by
  rw [State.finishPayload_eq]; rfl
@[simp] theorem State.finishPayload_strictEnd : s.finishPayload.strictEnd = s.strictEnd := by
  rw [State.finishPayload_eq]; rfl
@[simp] theorem State.finishPayload_info : s.finishPayload.info = s.info := by
  rw [State.finishPayload_eq]; rfl
@[simp] theorem State.finishPayload_space2 : s.finishPayload.space2 = s.space2 := by
  rw [State.finishPayload_eq]; rfl
@[simp] theorem State.finishPayload_space4 : s.finishPayload.space4 = s.space4 := by
  rw [State.finishPayload_eq]; rfl
@[simp] theorem State.finishPayload_stats : s.finishPayload.stats = s.stats := by
  rw [State.finishPayload_eq]; rfl
@[simp] theorem State.finishPayload_space7 : s.finishPayload.space7 = s.space7 := by
  rw [State.finishPayload_eq]; rfl
@[simp] theorem State.finishPayload_resetRequested :
    s.finishPayload.resetRequested = s.resetRequested := by
  rw [State.finishPayload_eq]; rfl
@[simp] theorem State.finishPayload_inbox : s.finishPayload.inbox = s.inbox := by
  rw [State.finishPayload_eq]; rfl
@[simp] theorem State.finishPayload_draws : s.finishPayload.draws = s.draws := by
  rw [State.finishPayload_eq]; rfl
end

/-! ### `hang`, `countStatus` -/

section
variable (s : State) (st : Nat)
@[simp] theorem State.hang_request : s.hang.request = .hung := rfl
@[simp] theorem State.hang_bus : s.hang.bus = s.bus := rfl
@[simp] theorem State.hang_regions : s.hang.regions = s.regions := rfl
@[simp] theorem State.hang_stats : s.hang.stats = s.stats := rfl
@[simp] theorem State.hang_reply : s.hang.reply = s.reply := rfl

@[simp] theorem State.countStatus_zero : s.countStatus 0 = s := rfl

/-- A handler status changes the counters at most (R257). -/
theorem State.countStatus_eq :
    s.countStatus st =
      { s with stats := if st = 0 then s.stats else bumpCounter s.stats .handlerStatus } := by
  unfold State.countStatus; split <;> rfl

@[simp] theorem State.countStatus_bus : (s.countStatus st).bus = s.bus := by
  rw [State.countStatus_eq]
@[simp] theorem State.countStatus_regions : (s.countStatus st).regions = s.regions := by
  rw [State.countStatus_eq]
@[simp] theorem State.countStatus_request : (s.countStatus st).request = s.request := by
  rw [State.countStatus_eq]
@[simp] theorem State.countStatus_reply : (s.countStatus st).reply = s.reply := by
  rw [State.countStatus_eq]
end

end Sys2Proof.Machine
end

