-- ==== Sys2Proof/Laws/Update.lean ====
section
/-! SUPPORT. What the update context and the owners can do: their steps keep the register file
canonical, write only bytes of their own region's slice, and keep the update context's position; a
region's owner is never added or lost. -/

namespace Sys2Proof.Machine

/-! ### One access of an owner -/

theorem Region.reaches_iff {r : Region} {off : Nat} : r.reaches off = true ↔
    off < r.size.toNat ∧ r.base.toNat + off < Config.rfSize := by simp [Region.reaches]

theorem Bus.act_canonical {idx : Nat} {r : Region} {b : Bus} (a : SliceAct)
    (h : Memory.wf b.rf = true) : Memory.wf (b.act idx r a).rf = true := by
  cases a with
  | read _ => exact h
  | write off v =>
    simp only [Bus.act]
    split
    · next hc => exact Memory.wf_write _ h (Region.reaches_iff.1 hc).2
    · exact h
  | look => exact h
  | keep _ => exact h

/-- An owner's access changes no byte but the one of its slice that it writes (R102). -/
theorem Bus.act_read_ne {idx : Nat} {r : Region} {b : Bus} {a : SliceAct} {x : Nat}
    (h : ∀ off v, a = .write off v → ¬ (off < r.size.toNat ∧ r.base.toNat + off = x)) :
    Memory.read (b.act idx r a).rf x = Memory.read b.rf x := by
  cases a with
  | read _ => rfl
  | write off v =>
    simp only [Bus.act]
    split
    · next hc =>
      exact Memory.read_write_ne fun hx => h off v rfl ⟨(Region.reaches_iff.1 hc).1, hx.symm⟩
    · rfl
  | look => rfl
  | keep _ => rfl

/-- An owner's access changes no byte outside its region (R102). -/
theorem Bus.act_read {idx : Nat} {r : Region} {b : Bus} (a : SliceAct) {x : Nat}
    (h : ¬ r.covers x) : Memory.read (b.act idx r a).rf x = Memory.read b.rf x :=
  Bus.act_read_ne fun off _ _ hx => h ⟨by omega, by omega⟩

/-- An owner's access that is not a write leaves the register file. -/
theorem Bus.act_rf {idx : Nat} {r : Region} {b : Bus} {a : SliceAct} (h : ∀ off v, a ≠ .write off v) :
    (b.act idx r a).rf = b.rf := by
  cases a with
  | write off v => exact absurd rfl (h off v)
  | _ => rfl

@[simp] theorem Bus.act_update (idx : Nat) (r : Region) (b : Bus) (a : SliceAct) :
    (b.act idx r a).update = b.update := by
  cases a <;> simp only [Bus.act]; split <;> rfl

@[simp] theorem Bus.act_owners_length (idx : Nat) (r : Region) (b : Bus) (a : SliceAct) :
    (b.act idx r a).owners.length = b.owners.length := by
  cases a <;> simp [Bus.act]; split <;> rfl

@[simp] theorem Bus.act_calls (idx : Nat) (r : Region) (b : Bus) (a : SliceAct) :
    (b.act idx r a).calls = b.calls := by
  cases a <;> simp only [Bus.act]; split <;> rfl

@[simp] theorem Bus.act_fresh (idx : Nat) (r : Region) (b : Bus) (a : SliceAct) :
    (b.act idx r a).fresh = b.fresh := by
  cases a <;> simp only [Bus.act]; split <;> rfl

@[simp] theorem Bus.act_points (idx : Nat) (r : Region) (b : Bus) (a : SliceAct) :
    (b.act idx r a).points = b.points := by
  cases a <;> simp only [Bus.act]; split <;> rfl

@[simp] theorem Bus.act_turns (idx : Nat) (r : Region) (b : Bus) (a : SliceAct) :
    (b.act idx r a).turns = b.turns := by
  cases a <;> simp only [Bus.act]; split <;> rfl

/-- What one access of an owner gives and changes (R47, R72, R102). -/
theorem Bus.act_accessed {idx : Nat} {r : Region} {b : Bus} (a : SliceAct)
    (hw : Memory.wf b.rf = true) : Bus.accessed idx r a (b.observe idx r a) b (b.act idx r a) := by
  unfold Bus.accessed
  cases a with
  | read off =>
    refine ⟨rfl, fun h => ?_, fun h => ?_⟩
    · simp [Bus.observe, Region.reaches_iff, Config.rfSize, h]
    · simp only [Bus.observe, Region.reaches_iff, Config.rfSize]
      rw [if_neg h]
  | write off v =>
    simp only [Bus.observe, Bus.act, Region.reaches_iff, Config.rfSize]
    by_cases h : off < r.size.toNat ∧ r.base.toNat + off < 65536
    · rw [if_pos h]
      refine ⟨trivial, rfl, Memory.wf_write v hw (by simpa [Config.rfSize] using h.2), fun x => ?_⟩
      simp [Memory.read_write hw, h]
    · rw [if_neg h]
      exact ⟨trivial, rfl, hw, fun x => by rw [if_neg fun hx => h hx.1]⟩
  | look => exact ⟨rfl, rfl⟩
  | keep p =>
    refine ⟨rfl, rfl, fun j => ?_⟩
    simp only [Bus.act, List.getElem?_set]
    by_cases hj : idx = j
    · subst hj
      by_cases hl : idx < b.owners.length <;> simp [hl]
    · simp [hj, Ne.symm hj]

/-! ### One step of the update context -/

/-- What one step of the update context can do (R113, R240), beside being counted: end a pass; make the
running hook's next access; leave a hook that returns; stay in one that never will; call a region's hook;
or skip a region that has none. -/
theorem Bus.updateStep_cases (E : Env) (regions : List Region) (b : Bus) :
    (regions[b.update.index]? = none ∧
      b.updateStep E regions = { b.newPass with turns := b.turns + 1 }) ∨
    ∃ r, regions[b.update.index]? = some r ∧
      ((∃ h a, b.update.hook = some h ∧ E.updateHook h.draw b.update.index h.seen = .act a ∧
          b.updateStep E regions = { b.act b.update.index r a with
            update := { index := b.update.index
                        hook := some ⟨h.draw, h.seen ++ [b.observe b.update.index r a]⟩ }
            turns := b.turns + 1 }) ∨
       (b.update.hook.isSome = true ∧
          b.updateStep E regions = { b.nextRegion with turns := b.turns + 1 }) ∨
       (b.update.hook.isSome = true ∧ b.updateStep E regions = { b with turns := b.turns + 1 }) ∨
       (b.update.hook = none ∧ r.update = true ∧
          b.updateStep E regions = { b.startHook b.update.index with turns := b.turns + 1 }) ∨
       (b.update.hook = none ∧ r.update = false ∧
          b.updateStep E regions = { b.nextRegion with turns := b.turns + 1 })) := by
  unfold Bus.updateStep Bus.updateMove
  cases hr : regions[b.update.index]? with
  | none => left; simp
  | some r =>
    right
    refine ⟨r, rfl, ?_⟩
    cases hh : b.update.hook with
    | none => cases hu : r.update <;> simp [hu]
    | some h =>
      simp only [Bus.hookStep]
      cases hm : E.updateHook h.draw b.update.index h.seen with
      | act a => left; exact ⟨h, a, rfl, hm, rfl⟩
      | finish _ _ => right; left; exact ⟨rfl, rfl⟩
      | stuck => right; right; left; exact ⟨rfl, rfl⟩

@[simp] theorem Bus.updateStep_turns (E : Env) (regions : List Region) (b : Bus) :
    (b.updateStep E regions).turns = b.turns + 1 := rfl

@[simp] theorem Bus.updateStep_points (E : Env) (regions : List Region) (b : Bus) :
    (b.updateStep E regions).points = b.points := by
  obtain ⟨-, e⟩ | ⟨r, -, ⟨h, a, -, -, e⟩ | ⟨-, e⟩ | ⟨-, e⟩ | ⟨-, -, e⟩ | ⟨-, -, e⟩⟩ :=
    Bus.updateStep_cases E regions b <;> rw [e] <;>
    simp [Bus.newPass, Bus.nextRegion, Bus.startHook]

theorem Bus.updateStep_canonical {E : Env} {regions : List Region} {b : Bus}
    (h : Memory.wf b.rf = true) : Memory.wf (b.updateStep E regions).rf = true := by
  obtain ⟨-, e⟩ | ⟨r, -, ⟨h0, a, -, -, e⟩ | ⟨-, e⟩ | ⟨-, e⟩ | ⟨-, -, e⟩ | ⟨-, -, e⟩⟩ :=
    Bus.updateStep_cases E regions b <;> rw [e]
  · exact h
  · exact Bus.act_canonical a h
  all_goals exact h

theorem Bus.updateStep_owners {E : Env} {regions : List Region} {b : Bus} :
    (b.updateStep E regions).owners.length = b.owners.length := by
  obtain ⟨-, e⟩ | ⟨r, -, ⟨h, a, -, -, e⟩ | ⟨-, e⟩ | ⟨-, e⟩ | ⟨-, -, e⟩ | ⟨-, -, e⟩⟩ :=
    Bus.updateStep_cases E regions b <;> rw [e] <;>
    simp [Bus.newPass, Bus.nextRegion, Bus.startHook]

/-- The update context stays at a region or at the end of a pass, and runs a hook only where there is
one (R45, R113). -/
def Bus.placed (regions : List Region) (b : Bus) : Prop :=
  b.update.index ≤ regions.length ∧
    (b.update.hook.isSome = true → ∃ r ∈ regions[b.update.index]?, r.update = true)

theorem Bus.updateStep_placed {E : Env} {regions : List Region} {b : Bus}
    (h : b.placed regions) : (b.updateStep E regions).placed regions := by
  obtain ⟨hi, hh⟩ := h
  obtain ⟨-, e⟩ | ⟨r, hr, ⟨h0, a, he, -, e⟩ | ⟨-, e⟩ | ⟨-, e⟩ | ⟨-, hu, e⟩ | ⟨-, -, e⟩⟩ :=
    Bus.updateStep_cases E regions b <;> rw [e]
  · exact ⟨Nat.zero_le _, by simp [Bus.newPass]⟩
  · exact ⟨hi, fun _ => hh (by simp [he])⟩
  · have := (List.getElem?_eq_some_iff.1 hr).1
    exact ⟨by simp only [Bus.nextRegion]; omega, by simp [Bus.nextRegion]⟩
  · exact ⟨hi, hh⟩
  · exact ⟨hi, fun _ => ⟨r, hr, hu⟩⟩
  · have := (List.getElem?_eq_some_iff.1 hr).1
    exact ⟨by simp only [Bus.nextRegion]; omega, by simp [Bus.nextRegion]⟩

/-- A byte that no region with a hook covers is spared, whatever the hooks do. -/
theorem State.hookFree.hooksSpare {E : Env} {s : State} {x : Nat} (h : s.hookFree x) :
    s.hooksSpare E x := by
  rintro idx r hr hu - - off - - ⟨h1, rfl⟩
  have hc : r.covers (r.base.toNat + off) := ⟨by omega, by omega⟩
  rcases hu with hu | ⟨rfl, hu⟩
  · exact h.1 r (List.mem_of_getElem? hr) hu hc
  · exact h.2 hu r hr hc

/-- A byte that no region covers is spared. -/
theorem Bus.hooksSpare_of_uncovered {E : Env} {regions : List Region} {b : Bus} {x : Nat}
    (h : ∀ r ∈ regions, ¬ r.covers x) : b.hooksSpare E regions x := by
  rintro idx r hr - - - off - - ⟨h1, rfl⟩
  exact h r (List.mem_of_getElem? hr) ⟨by omega, by omega⟩

/-- A step that leaves the running hook as it is, ends it, or calls one that a region has, spares what was
spared. -/
theorem Bus.hooksSpare_of {E : Env} {regions : List Region} {b b' : Bus} {x : Nat}
    (h : b.hooksSpare E regions x)
    (hu : b'.update.hook.isSome = true → b'.update.index = b.update.index ∧
      (b.update.hook.isSome = true ∨ ∃ r ∈ regions[b.update.index]?, r.update = true)) :
    b'.hooksSpare E regions x := by
  intro idx r hr hor
  refine h idx r hr ?_
  rcases hor with hor | ⟨rfl, hs⟩
  · exact .inl hor
  · obtain ⟨hi, hs | ⟨r', hr', hu⟩⟩ := hu hs
    · exact .inr ⟨hi.symm, hs⟩
    · rw [Option.mem_def, ← hi, hr] at hr'
      cases hr'
      exact .inl hu

theorem Bus.updateStep_hooksSpare {E : Env} {regions : List Region} {b : Bus} {x : Nat}
    (h : b.hooksSpare E regions x) : (b.updateStep E regions).hooksSpare E regions x ∧
      Memory.read (b.updateStep E regions).rf x = Memory.read b.rf x := by
  obtain ⟨-, e⟩ | ⟨r, hr, ⟨h0, a, he, ha, e⟩ | ⟨-, e⟩ | ⟨-, e⟩ | ⟨-, hu, e⟩ | ⟨-, -, e⟩⟩ :=
    Bus.updateStep_cases E regions b <;> rw [e]
  · exact ⟨Bus.hooksSpare_of h (by simp [Bus.newPass]), rfl⟩
  · have hs : b.update.hook.isSome = true := by simp [he]
    refine ⟨Bus.hooksSpare_of h fun _ => ⟨rfl, .inl hs⟩, Bus.act_read_ne fun off v hw => ?_⟩
    exact h _ r hr (.inr ⟨rfl, hs⟩) h0.draw h0.seen off v (hw ▸ ha)
  · exact ⟨Bus.hooksSpare_of h (by simp [Bus.nextRegion]), rfl⟩
  · exact ⟨h, rfl⟩
  · exact ⟨Bus.hooksSpare_of h fun _ => ⟨rfl, .inr ⟨r, hr, hu⟩⟩, rfl⟩
  · exact ⟨Bus.hooksSpare_of h (by simp [Bus.nextRegion]), rfl⟩

/-! ### An interleaving point -/

/-- What every step of the update context keeps, any number of them keep. -/
theorem Bus.updateRun_induct {E : Env} {regions : List Region} {P : Bus → Prop}
    (hs : ∀ b, P b → P (b.updateStep E regions)) (k : Nat) {b : Bus} (h : P b) :
    P (Bus.updateRun E regions k b) := by
  induction k generalizing b with
  | zero => exact h
  | succ k ih => exact ih (hs b h)

/-- What every step of the update context keeps, an interleaving point keeps. -/
theorem Bus.interleave_induct {E : Env} {regions : List Region} {P : Bus → Prop}
    (hf : ∀ b : Bus, P b → P { b with points := b.points + 1 })
    (hs : ∀ b, P b → P (b.updateStep E regions)) {b : Bus} (h : P b) :
    P (b.interleave E regions) :=
  Bus.updateRun_induct hs _ (hf b h)

theorem Bus.interleave_canonical {E : Env} {regions : List Region} {b : Bus}
    (h : Memory.wf b.rf = true) : Memory.wf (b.interleave E regions).rf = true :=
  Bus.interleave_induct (P := fun b => Memory.wf b.rf = true) (fun _ h => h)
    (fun _ h => Bus.updateStep_canonical h) h

theorem Bus.interleave_owners {E : Env} {regions : List Region} (b : Bus) :
    (b.interleave E regions).owners.length = b.owners.length :=
  Bus.interleave_induct (P := fun b' => b'.owners.length = b.owners.length) (fun _ h => h)
    (fun _ h => Bus.updateStep_owners.trans h) rfl

theorem Bus.interleave_placed {E : Env} {regions : List Region} {b : Bus}
    (h : b.placed regions) : (b.interleave E regions).placed regions :=
  Bus.interleave_induct (P := fun b => b.placed regions) (fun _ h => h)
    (fun _ h => Bus.updateStep_placed h) h

/-- The update context changes no byte that no hook writes. -/
theorem Bus.interleave_hooksSpare {E : Env} {regions : List Region} {b : Bus} {x : Nat}
    (h : b.hooksSpare E regions x) : (b.interleave E regions).hooksSpare E regions x ∧
      Memory.read (b.interleave E regions).rf x = Memory.read b.rf x :=
  Bus.interleave_induct
    (P := fun b' => b'.hooksSpare E regions x ∧ Memory.read b'.rf x = Memory.read b.rf x)
    (fun _ h => h)
    (fun _ h => ⟨(Bus.updateStep_hooksSpare h.1).1, (Bus.updateStep_hooksSpare h.1).2.trans h.2⟩)
    ⟨h, rfl⟩

/-! ### Direct accesses of the request context -/

theorem Bus.readBytes_length (E : Env) (regions : List Region) (as : List Nat) (b : Bus) :
    (Bus.readBytes E regions as b).1.length = as.length := by
  induction as generalizing b with
  | nil => rfl
  | cons a as ih => simp [Bus.readBytes, ih]

/-- A direct read leaves to the update context alone what changes: a property that its interleaving
points keep holds afterwards. -/
theorem Bus.readBytes_induct {E : Env} {regions : List Region} {P : Bus → Prop}
    (hi : ∀ b, P b → P (b.interleave E regions)) {as : List Nat} {b : Bus} (h : P b) :
    P (Bus.readBytes E regions as b).2 := by
  induction as generalizing b with
  | nil => exact h
  | cons a as ih => exact ih (hi b h)

/-- A direct read of bytes no hook writes gives the bytes of the register file. -/
theorem Bus.readBytes_hooksSpare {E : Env} {regions : List Region} {as : List Nat} {b : Bus}
    (h : ∀ a ∈ as, b.hooksSpare E regions a) :
    (Bus.readBytes E regions as b).1 = as.map (Memory.read b.rf) := by
  induction as generalizing b with
  | nil => rfl
  | cons a as ih =>
    have hi := fun y (hy : y ∈ a :: as) => Bus.interleave_hooksSpare (E := E) (h y hy)
    simp only [Bus.readBytes, List.map_cons, (hi a (by simp)).2]
    congr 1
    rw [ih fun y hy => (hi y (by simp [hy])).1]
    exact List.map_congr_left fun y hy => (hi y (by simp [hy])).2

/-- Where no hook writes it, a byte of a direct read is the register file's, whatever the others are. -/
theorem Bus.readBytes_getElem? {E : Env} {regions : List Region} {as : List Nat} {b : Bus} {k x : Nat}
    (hk : as[k]? = some x) (h : b.hooksSpare E regions x) :
    (Bus.readBytes E regions as b).1[k]? = some (Memory.read b.rf x) := by
  induction as generalizing b k with
  | nil => simp at hk
  | cons a as ih =>
    obtain ⟨h1, h2⟩ := Bus.interleave_hooksSpare h
    cases k with
    | zero =>
      simp only [List.getElem?_cons_zero, Option.some.injEq] at hk
      subst hk
      simp [Bus.readBytes, h2]
    | succ k =>
      simp only [List.getElem?_cons_succ] at hk
      simp only [Bus.readBytes, List.getElem?_cons_succ]
      rw [ih hk h1, h2]

/-- A direct read changes no byte that no hook writes. -/
theorem Bus.readBytes_read {E : Env} {regions : List Region} {as : List Nat} {b : Bus} {x : Nat}
    (h : b.hooksSpare E regions x) : (Bus.readBytes E regions as b).2.hooksSpare E regions x ∧
      Memory.read (Bus.readBytes E regions as b).2.rf x = Memory.read b.rf x :=
  Bus.readBytes_induct
    (P := fun b' => b'.hooksSpare E regions x ∧ Memory.read b'.rf x = Memory.read b.rf x)
    (fun _ h => ⟨(Bus.interleave_hooksSpare h.1).1, (Bus.interleave_hooksSpare h.1).2.trans h.2⟩)
    ⟨h, rfl⟩

/-- What interleaving points and byte writes keep, a direct write keeps. -/
theorem Bus.writeBytes_induct {E : Env} {regions : List Region} {P : Bus → Prop}
    (hi : ∀ b, P b → P (b.interleave E regions)) {cells : List Host.Cell} {b : Bus}
    (hw : ∀ b a v, (a, v) ∈ cells → P b → P { b with rf := Memory.write b.rf a v }) (h : P b) :
    P (Bus.writeBytes E regions cells b) := by
  induction cells generalizing b with
  | nil => exact h
  | cons c cells ih =>
    obtain ⟨a, v⟩ := c
    exact ih (fun b a v hm => hw b a v (by simp [hm])) (hw _ a v (by simp) (hi b h))

theorem Bus.writeBytes_canonical {E : Env} {regions : List Region} {cells : List Host.Cell}
    {b : Bus} (hc : ∀ c ∈ cells, c.1 < Config.rfSize) (h : Memory.wf b.rf = true) :
    Memory.wf (Bus.writeBytes E regions cells b).rf = true :=
  Bus.writeBytes_induct (P := fun b => Memory.wf b.rf = true)
    (fun _ h => Bus.interleave_canonical h)
    (fun _ a v hm h => Memory.wf_write v h (hc (a, v) hm)) h

/-- A direct write changes no other byte that no hook writes. -/
theorem Bus.writeBytes_read_other {E : Env} {regions : List Region} {cells : List Host.Cell}
    {b : Bus} {x : Nat} (hx : x ∉ cells.map Prod.fst) (h : b.hooksSpare E regions x) :
    (Bus.writeBytes E regions cells b).hooksSpare E regions x ∧
      Memory.read (Bus.writeBytes E regions cells b).rf x = Memory.read b.rf x :=
  Bus.writeBytes_induct
    (P := fun b' => b'.hooksSpare E regions x ∧ Memory.read b'.rf x = Memory.read b.rf x)
    (fun _ h => ⟨(Bus.interleave_hooksSpare h.1).1, (Bus.interleave_hooksSpare h.1).2.trans h.2⟩)
    (fun _ a v hm h => ⟨h.1, (Memory.read_write_ne (by
      rintro rfl; exact hx (List.mem_map.2 ⟨(x, v), hm, rfl⟩))).trans h.2⟩)
    ⟨h, rfl⟩

/-- A direct write of bytes no hook writes leaves what the same writes, one after another, leave. -/
theorem Bus.writeBytes_read {E : Env} {regions : List Region} {cells : List Host.Cell} {b : Bus}
    {x : Nat} (hw : Memory.wf b.rf = true) (hc : ∀ c ∈ cells, c.1 < Config.rfSize)
    (h : b.hooksSpare E regions x) :
    Memory.read (Bus.writeBytes E regions cells b).rf x =
      Memory.read (Memory.writeAll b.rf cells) x := by
  suffices ∀ (m : Memory), Memory.wf m = true → Memory.read b.rf x = Memory.read m x →
      Memory.read (Bus.writeBytes E regions cells b).rf x =
        Memory.read (Memory.writeAll m cells) x from this b.rf hw rfl
  intro m hm hbm
  induction cells generalizing b m with
  | nil => exact hbm
  | cons c cells ih =>
    obtain ⟨a, v⟩ := c
    obtain ⟨hf, hr⟩ := Bus.interleave_hooksSpare (E := E) h
    have ha : a < Config.rfSize := hc (a, v) (by simp)
    have hwi : Memory.wf (b.interleave E regions).rf = true := Bus.interleave_canonical hw
    simp only [Bus.writeBytes, Memory.writeAll, List.foldl_cons]
    exact ih (b := { b.interleave E regions with
        rf := Memory.write (b.interleave E regions).rf a v }) (Memory.wf_write v hwi ha)
      (fun d hd => hc d (by simp [hd])) hf _ (Memory.wf_write v hm ha) (by
        simp only [Memory.read_write hwi, Memory.read_write hm, hr, hbm])

/-! ### A handler's accesses -/

/-- What interleaving points and the region's accesses keep, a handler's run keeps. -/
theorem Bus.runCode_induct {α : Type} {E : Env} {regions : List Region} {idx : Nat} {r : Region}
    {code : OwnerCode α} {P : Bus → Prop} (hi : ∀ b, P b → P (b.interleave E regions))
    (ha : ∀ b a, (∃ seen, code seen = .act a) → P b → P (Bus.act idx r b a)) (k : Nat)
    (seen : List (List Byte)) {b : Bus} (h : P b) :
    P (Bus.runCode E regions idx r code k seen b).2 := by
  induction k generalizing seen b with
  | zero => unfold Bus.runCode; split <;> exact h
  | succ k ih =>
    unfold Bus.runCode
    split
    · next a hc => exact ih _ (ha _ a ⟨seen, hc⟩ (hi b h))
    · exact h
    · exact h

/-- A handler that runs into an access sees it and goes on: a byte of its slice that it reads is the one the
register file holds at that step (R72, R102). -/
theorem Bus.runCode_act {α : Type} {E : Env} {regions : List Region} {idx : Nat} {r : Region}
    {code : OwnerCode α} {k : Nat} {seen : List (List Byte)} {b : Bus} {a : SliceAct}
    (h : code seen = .act a) :
    Bus.runCode E regions idx r code (k + 1) seen b =
      Bus.runCode E regions idx r code k
        (seen ++ [(b.interleave E regions).observe idx r a])
        ((b.interleave E regions).act idx r a) := by
  conv_lhs => unfold Bus.runCode
  rw [h]

/-! ### The handler calls among the owner port's calls -/

theorem handlerCalls_append (as bs : List OwnerCall) :
    handlerCalls (as ++ bs) = handlerCalls as ++ handlerCalls bs := by simp [handlerCalls]

/-- A step of the update context calls no handler (R113). -/
theorem Bus.updateStep_handlerCalls (E : Env) (regions : List Region) (b : Bus) :
    handlerCalls (b.updateStep E regions).calls = handlerCalls b.calls := by
  obtain ⟨-, e⟩ | ⟨r, -, ⟨h, a, -, -, e⟩ | ⟨-, e⟩ | ⟨-, e⟩ | ⟨-, -, e⟩ | ⟨-, -, e⟩⟩ :=
    Bus.updateStep_cases E regions b <;> rw [e] <;>
    simp [Bus.newPass, Bus.nextRegion, Bus.startHook, handlerCalls]

theorem Bus.interleave_handlerCalls (E : Env) (regions : List Region) (b : Bus) :
    handlerCalls (b.interleave E regions).calls = handlerCalls b.calls :=
  Bus.interleave_induct (P := fun b' => handlerCalls b'.calls = handlerCalls b.calls)
    (fun _ h => h) (fun _ h => (Bus.updateStep_handlerCalls ..).trans h) rfl

/-- A handler's own run calls no handler. -/
theorem Bus.runCode_handlerCalls {α : Type} (E : Env) (regions : List Region) (idx : Nat) (r : Region)
    (code : OwnerCode α) (k : Nat) (seen : List (List Byte)) (b : Bus) :
    handlerCalls (Bus.runCode E regions idx r code k seen b).2.calls = handlerCalls b.calls :=
  Bus.runCode_induct (P := fun b' => handlerCalls b'.calls = handlerCalls b.calls)
    (fun _ h => (Bus.interleave_handlerCalls ..).trans h) (fun _ _ _ h => by simpa using h) k seen rfl

/-! ### The update context's share of the interleaving (R245) -/

/-- At an interleaving point the update context takes the point's number of steps. -/
theorem Bus.updateRun_turns (E : Env) (regions : List Region) (k : Nat) (b : Bus) :
    (Bus.updateRun E regions k b).turns = b.turns + k ∧
      (Bus.updateRun E regions k b).points = b.points := by
  induction k generalizing b with
  | zero => exact ⟨rfl, rfl⟩
  | succ k ih =>
    have := ih (b.updateStep E regions)
    simp only [Bus.updateRun, Bus.updateStep_turns, Bus.updateStep_points] at this ⊢
    exact ⟨by omega, this.2⟩

@[simp] theorem Bus.interleave_turns (E : Env) (regions : List Region) (b : Bus) :
    (b.interleave E regions).turns = b.turns + stepsAt E b.points :=
  (Bus.updateRun_turns E regions _ _).1

@[simp] theorem Bus.interleave_points (E : Env) (regions : List Region) (b : Bus) :
    (b.interleave E regions).points = b.points + 1 :=
  (Bus.updateRun_turns E regions _ _).2

/-- While the update context stands still, its patience runs down by one at each point. -/
theorem patienceLeft_succ {E : Env} {d : Nat} (h : stepsAt E d = 0) :
    patienceLeft E d = patienceLeft E (d + 1) + 1 := by
  unfold stepsAt at h
  split at h
  · cases h
  · next hn =>
    have hp : 0 < patienceLeft E d := Nat.pos_of_ne_zero fun h0 => hn ⟨h, h0⟩
    simp only [patienceLeft, h, hp, and_self, if_true]
    omega

/-- Within its patience the update context takes a step (R245). -/
theorem exists_stepsAt_pos (E : Env) (d : Nat) :
    ∃ k ≤ patienceLeft E d, 0 < stepsAt E (d + k) := by
  generalize hn : patienceLeft E d = n
  induction n generalizing d with
  | zero =>
    refine ⟨0, le_rfl, Nat.pos_of_ne_zero fun h => ?_⟩
    have := patienceLeft_succ (d := d) h
    omega
  | succ n ih =>
    by_cases h : stepsAt E d = 0
    · obtain ⟨k, hk, hp⟩ := ih (d + 1) (by have := patienceLeft_succ h; omega)
      exact ⟨k + 1, by omega, by rwa [show d + (k + 1) = d + 1 + k by omega]⟩
    · exact ⟨0, Nat.zero_le _, Nat.pos_of_ne_zero h⟩

end Sys2Proof.Machine
end

