-- ==== Sys2Proof/Laws/Bus.lean ====
section
/-! SUPPORT. The register bus: what resolution finds, when a transfer is direct, and everything a
command of memory space 0 can change. -/

namespace Sys2Proof.Machine

/-! ### Resolution (R106) -/

/-- `resolve` finds the first region, in registration order, that contains the transfer. -/
theorem resolve_eq_some {strict : Bool} {regions : List Region} {a n : Nat} {r : Region} {i : Nat} :
    resolve strict regions a n = some (r, i) ↔
      regions[i]? = some r ∧ r.contains strict a n = true ∧
        ∀ j < i, ∀ r' ∈ regions[j]?, r'.contains strict a n = false := by
  unfold resolve
  rw [List.find?_eq_some_iff_getElem]
  constructor
  · rintro ⟨hc, k, hk, he, hb⟩
    simp only [List.getElem_zipIdx, Prod.mk.injEq, Nat.zero_add] at he
    obtain ⟨rfl, rfl⟩ := he
    have hk' : k < regions.length := by simpa using hk
    refine ⟨by simp [hk'], hc, fun j hj r' hr' => ?_⟩
    have := hb j hj
    simp only [List.getElem_zipIdx] at this
    rw [Option.mem_def, List.getElem?_eq_getElem (by omega)] at hr'
    cases hr'
    simpa using this
  · rintro ⟨hr, hc, hb⟩
    obtain ⟨hi, rfl⟩ := List.getElem?_eq_some_iff.1 hr
    refine ⟨hc, i, by simpa using hi, by simp, fun j hj => ?_⟩
    have := hb j hj regions[j] (by simp)
    simpa using this

theorem resolve_eq_none {strict : Bool} {regions : List Region} {a n : Nat} :
    resolve strict regions a n = none ↔ ∀ r ∈ regions, r.contains strict a n = false := by
  unfold resolve
  rw [List.find?_eq_none]
  constructor
  · intro h r hr
    obtain ⟨i, hi, rfl⟩ := List.mem_iff_getElem.1 hr
    simpa using h (regions[i], i) (by
      rw [List.mem_iff_getElem]; exact ⟨i, by simpa using hi, by simp⟩)
  · intro h p hp
    have : p.1 ∈ regions := by
      obtain ⟨i, hi, rfl⟩ := List.mem_iff_getElem.1 hp
      simp
    simpa using h p.1 this

/-- The region that serves a transfer is one of the table's. -/
theorem mem_of_resolve {strict : Bool} {regions : List Region} {a n : Nat} {r : Region} {i : Nat}
    (h : resolve strict regions a n = some (r, i)) : r ∈ regions :=
  List.mem_of_getElem? (resolve_eq_some.1 h).1

/-- A contained transfer lies inside the region. -/
theorem covers_of_contains {strict : Bool} {r : Region} {a n : Nat}
    (h : r.contains strict a n = true) {x : Nat} (hx : a ≤ x ∧ x < a + 4 * n) : r.covers x := by
  simp only [Region.contains, Bool.and_eq_true, decide_eq_true_eq] at h
  cases strict <;> simp at h <;> exact ⟨by omega, by omega⟩

/-! ### When a transfer is direct (R110) -/

theorem State.busRead_direct {E : Env} {s : State} {a n : Nat}
    (h : s.servedDirectly (·.read) a n) :
    s.busRead E a n = (.unmapped, s) ∨ s.busRead E a n = (.noHandler, s) := by
  unfold State.busRead
  cases hr : resolve s.strictEnd s.regions a n with
  | none => left; rfl
  | some p => right; simp [show p.1.read = false from h p hr]

theorem State.busWrite_direct {E : Env} {s : State} {a : Nat} {words : List Word}
    (h : s.servedDirectly (·.write) a words.length) :
    s.busWrite E a words = (.unmapped, s) ∨ s.busWrite E a words = (.noHandler, s) := by
  unfold State.busWrite
  cases hr : resolve s.strictEnd s.regions a words.length with
  | none => left; rfl
  | some p => right; simp [show p.1.write = false from h p hr]

/-- A direct read transfer is a direct read of its bytes (R110, R165). -/
theorem State.readTransfer_direct {E : Env} {s : State} {a n : Nat}
    (h : s.servedDirectly (·.read) a n) :
    s.readTransfer E a n = s.directRead E (addressRun a (4 * n)) := by
  have hw := wordsBytes_wordsOf n (Bus.readBytes E s.regions (addressRun a (4 * n)) s.bus).1
    (by simp [Bus.readBytes_length])
  unfold State.readTransfer
  rcases State.busRead_direct (E := E) h with e | e <;> rw [e] <;>
    simp [State.emit, State.directRead, hw]

/-- A direct write transfer is a direct write of its bytes (R110, R165). -/
theorem State.writeTransfer_direct {E : Env} {s : State} {a n : Nat} {data : List Byte}
    (hd : data.length = 4 * n) (h : s.servedDirectly (·.write) a n) :
    s.writeTransfer E a data = s.directWrite E ((addressRun a (4 * n)).zip data) := by
  have hl := wordsOf_length n data hd
  unfold State.writeTransfer
  rcases State.busWrite_direct (E := E) (words := wordsOf data) (by rw [hl]; exact h) with e | e <;>
    simp [e, hl, wordsBytes_wordsOf n data hd]

theorem Bus.readBytes_append (E : Env) (regions : List Region) (as bs : List Nat) (b : Bus) :
    Bus.readBytes E regions (as ++ bs) b =
      ((Bus.readBytes E regions as b).1 ++
          (Bus.readBytes E regions bs (Bus.readBytes E regions as b).2).1,
        (Bus.readBytes E regions bs (Bus.readBytes E regions as b).2).2) := by
  induction as generalizing b with
  | nil => rfl
  | cons a as ih => simp [Bus.readBytes, ih]

theorem Bus.writeBytes_append (E : Env) (regions : List Region) (as bs : List Host.Cell) (b : Bus) :
    Bus.writeBytes E regions (as ++ bs) b =
      Bus.writeBytes E regions bs (Bus.writeBytes E regions as b) := by
  induction as generalizing b with
  | nil => rfl
  | cons a as ih => simp [Bus.writeBytes, ih]

theorem State.directRead_append (E : Env) (s : State) (as bs : List Nat) :
    s.directRead E (as ++ bs) = (s.directRead E as).directRead E bs := by
  simp [State.directRead, Bus.readBytes_append]

theorem State.directWrite_append (E : Env) (s : State) (as bs : List Host.Cell) :
    s.directWrite E (as ++ bs) = (s.directWrite E as).directWrite E bs := by
  simp [State.directWrite, Bus.writeBytes_append]

/-- With 4- and 8-byte units a unit is whole words. -/
theorem busUnit_bytes {size : UnitSize} (h : busUnit size = true) :
    4 * (size.bytes / 4) = size.bytes := by
  cases size <;> simp_all [busUnit, UnitSize.bytes]

theorem busUnit_count {size : UnitSize} (h : busUnit size = true) (C : Nat) :
    4 * (C * size.bytes / 4) = C * size.bytes := by
  cases size <;> simp_all [busUnit, UnitSize.bytes] <;> omega

theorem State.readTransfers_direct {E : Env} {size : UnitSize} (hz : busUnit size = true) {a : Nat}
    (C : Nat) {s : State} (hq : s.request ≠ .hung)
    (h : s.servedDirectly (·.read) a (size.bytes / 4)) :
    State.readTransfers E a (size.bytes / 4) C s =
      s.directRead E ((List.range C).flatMap fun i =>
        addressRun (unitAddress a size false i) size.bytes) := by
  have hf : ∀ (C : Nat) (s : State), s.request ≠ .hung →
      s.servedDirectly (·.read) a (size.bytes / 4) →
      State.readTransfers E a (size.bytes / 4) C s =
        s.directRead E ((List.replicate C (addressRun a size.bytes)).flatten) := by
    intro C
    induction C with
    | zero => intro s _ _; simp [State.readTransfers, State.directRead, Bus.readBytes]
    | succ C ih =>
      intro s hq h
      have e := State.readTransfer_direct (E := E) h
      rw [busUnit_bytes hz] at e
      rw [State.readTransfers, e, List.replicate_succ, List.flatten_cons, State.directRead_append]
      rw [if_neg (by simpa [State.directRead] using hq)]
      exact ih _ hq h
  rw [hf C s hq h]
  congr 1
  simp [List.flatMap, unitAddress, List.map_const']

theorem State.writeTransfers_direct {E : Env} {size : UnitSize} (hz : busUnit size = true)
    {a : Nat} (C : Nat) {s : State} (hq : s.request ≠ .hung) {data : List Byte}
    (hd : data.length = C * size.bytes) (h : s.servedDirectly (·.write) a (size.bytes / 4)) :
    State.writeTransfers E a size.bytes C data s =
      s.directWrite E (((List.range C).flatMap fun i =>
        addressRun (unitAddress a size false i) size.bytes).zip data) := by
  have hf : ∀ (C : Nat) (s : State) (data : List Byte), s.request ≠ .hung →
      data.length = C * size.bytes → s.servedDirectly (·.write) a (size.bytes / 4) →
      State.writeTransfers E a size.bytes C data s =
        s.directWrite E (((List.replicate C (addressRun a size.bytes)).flatten).zip data) := by
    intro C
    induction C with
    | zero => intro s data _ _ _; simp [State.writeTransfers, State.directWrite, Bus.writeBytes]
    | succ C ih =>
      intro s data hq hd h
      rw [Nat.succ_mul] at hd
      have e := State.writeTransfer_direct (E := E) (data := data.take size.bytes)
        (by simp [busUnit_bytes hz]; omega) h
      rw [busUnit_bytes hz] at e
      have hs : data = data.take size.bytes ++ data.drop size.bytes :=
        (List.take_append_drop ..).symm
      rw [State.writeTransfers, e, List.replicate_succ, List.flatten_cons]
      conv_rhs => rw [hs]
      rw [List.zip_append (by simp; omega), State.directWrite_append]
      rw [if_neg (by simpa [State.directWrite] using hq)]
      simpa [← hs] using ih (s.directWrite E _) (data.drop size.bytes) hq (by simp; omega) h
  rw [hf C s data hq hd h]
  congr 2
  simp [List.flatMap, unitAddress, List.map_const']

/-- A read of space 0 that reaches no handler is a direct read of the touched bytes (R165). -/
theorem State.space0Read_direct {E : Env} {s : State} {a : Nat} {size : UnitSize} {incr : Bool}
    {count : BitVec 7} (hq : s.request ≠ .hung) (h : s.readsDirectly a size incr count) :
    s.space0Read E a size incr count = s.directRead E (touched a size incr count) := by
  unfold State.space0Read
  split
  · next hz =>
    have h := h hz
    cases incr with
    | true =>
      rw [if_pos rfl, State.readTransfer_direct (by simpa [callWords] using h), busUnit_count hz,
        touched_incr]
    | false =>
      rw [if_neg (by simp), State.readTransfers_direct hz _ hq (by simpa [callWords] using h)]
      rfl
  · rfl

/-- A write of space 0 that reaches no handler is a direct write of the touched bytes (R165). -/
theorem State.space0Write_direct {E : Env} {s : State} {a : Nat} {size : UnitSize} {incr : Bool}
    {count : BitVec 7} {data : List Byte} (hq : s.request ≠ .hung)
    (hd : data.length = count.toNat * size.bytes) (h : s.writesDirectly a size incr count) :
    s.space0Write E a size incr count data =
      s.directWrite E ((touched a size incr count).zip data) := by
  unfold State.space0Write
  split
  · next hz =>
    have h := h hz
    cases incr with
    | true =>
      rw [if_pos rfl, State.writeTransfer_direct (by rw [hd, busUnit_count hz])
        (by simpa [callWords] using h), busUnit_count hz, touched_incr]
    | false =>
      rw [if_neg (by simp), State.writeTransfers_direct hz _ hq hd (by simpa [callWords] using h)]
      rfl
  · rfl

/-! ### How many bytes a read of space 0 appends (R150) -/

/-- From s to t the reply grows by L bytes, unless the request context hangs: then by at most so many. -/
def State.repliesLength (s t : State) (L : Nat) : Prop :=
  (t.request ≠ .hung → t.reply.length = s.reply.length + L) ∧ t.reply.length ≤ s.reply.length + L

theorem State.directRead_length (E : Env) (s : State) (as : List Nat) :
    s.repliesLength (s.directRead E as) as.length := by
  have h : (s.directRead E as).reply.length = s.reply.length + as.length := by
    simp [State.directRead, Bus.readBytes_length]
  exact ⟨fun _ => h, h.le⟩

theorem State.readTransfer_length (E : Env) (s : State) (a n : Nat) :
    s.repliesLength (s.readTransfer E a n) (4 * n) := by
  by_cases h : s.servedDirectly (·.read) a n
  · rw [State.readTransfer_direct h]
    simpa [addressRun] using State.directRead_length E s (addressRun a (4 * n))
  · simp only [State.servedDirectly, not_forall] at h
    obtain ⟨⟨r, idx⟩, hres, hr⟩ := h
    have hr : r.read = true := by simpa using hr
    unfold State.readTransfer State.busRead State.repliesLength
    simp only [Option.mem_def.1 hres, hr, if_true, State.callRead]
    generalize Bus.runRead E s.regions idx r _ _ _ _ = run
    obtain ⟨res, b⟩ := run
    cases res with
    | none => simp [BusReply.ofResult, State.hang]
    | some p =>
      obtain ⟨ws, st⟩ := p
      simp [BusReply.ofResult, State.countStatus_eq, State.emit]

theorem State.readTransfers_length (E : Env) (a n C : Nat) (s : State) :
    s.repliesLength (State.readTransfers E a n C s) (C * (4 * n)) := by
  induction C generalizing s with
  | zero => simp [State.readTransfers, State.repliesLength]
  | succ C ih =>
    obtain ⟨h1, h2⟩ := State.readTransfer_length E s a n
    obtain ⟨h3, h4⟩ := ih (s.readTransfer E a n)
    rw [State.readTransfers, Nat.add_mul]
    split
    · next hh => exact ⟨fun h => absurd hh h, by omega⟩
    · next hh => exact ⟨fun h => by rw [h3 h, h1 hh]; omega, by omega⟩

theorem State.space0Read_length (E : Env) (s : State) (a : Nat) (size : UnitSize) (incr : Bool)
    (count : BitVec 7) :
    s.repliesLength (s.space0Read E a size incr count) (count.toNat * size.bytes) := by
  unfold State.space0Read
  split
  · next hz =>
    split
    · have h := State.readTransfer_length E s a (count.toNat * size.bytes / 4)
      rwa [busUnit_count hz] at h
    · have h := State.readTransfers_length E a (size.bytes / 4) count.toNat s
      rwa [congrArg (count.toNat * ·) (busUnit_bytes hz)] at h
  · exact touched_length a size incr count ▸ State.directRead_length E s _

/-! ### Everything a command of space 0 can change -/

/-- Counting handler failures k times (R257). -/
def countFailures (m : Vector Byte 32) : Nat → Vector Byte 32
  | 0 => m
  | k + 1 => countFailures (bumpCounter m .handlerStatus) k

/-- From s to t: the bus changes to one with `P`, the reply grows, handler failures are counted, and
the request context may hang; nothing else changes. -/
def State.busEffect (P : Bus → Prop) (s t : State) : Prop :=
  ∃ b bs k q, P b ∧ (q = s.request ∨ q = .hung) ∧
    t = { s with bus := b, reply := s.reply ++ bs, stats := countFailures s.stats k, request := q }

theorem countFailures_add (m : Vector Byte 32) (k l : Nat) :
    countFailures (countFailures m k) l = countFailures m (k + l) := by
  induction k generalizing m with
  | zero => simp [countFailures]
  | succ k ih => rw [Nat.succ_add]; exact ih _

theorem State.busEffect_refl {P : Bus → Prop} {s : State} (h : P s.bus) : s.busEffect P s :=
  ⟨s.bus, [], 0, s.request, h, .inl rfl, by simp [countFailures]⟩

theorem State.busEffect_trans {P : Bus → Prop} {s t u : State} (h1 : s.busEffect P t)
    (h2 : t.busEffect P u) : s.busEffect P u := by
  obtain ⟨b1, bs1, k1, q1, -, hq1, rfl⟩ := h1
  obtain ⟨b2, bs2, k2, q2, hP, hq2, rfl⟩ := h2
  refine ⟨b2, bs1 ++ bs2, k1 + k2, q2, hP, ?_, by simp [countFailures_add]⟩
  rcases hq2 with rfl | rfl
  · exact hq1
  · exact .inr rfl

/-- What a handler call, an owner's access and an interleaving point keep. -/
structure Bus.Kept (E : Env) (regions : List Region) (P : Bus → Prop) : Prop where
  interleave : ∀ b, P b → P (b.interleave E regions)
  call : ∀ (b : Bus) c, P b → P (b.called c)
  act : ∀ r ∈ regions, ∀ (idx : Nat) b a, P b → P (Bus.act idx r b a)

/-- A byte that no region covers keeps its value through all of them (R22, R102). -/
theorem Bus.kept_uncovered (E : Env) {regions : List Region} {x : Nat} (v : Byte)
    (hx : ∀ r ∈ regions, ¬ r.covers x) :
    Bus.Kept E regions fun b => Memory.read b.rf x = v :=
  ⟨fun _ h => (Bus.interleave_hooksSpare (Bus.hooksSpare_of_uncovered hx)).2.trans h, fun _ _ h => h,
    fun r hr _ _ a h => (Bus.act_read a (hx r hr)).trans h⟩

theorem State.readTransfer_effect {E : Env} {s : State} {P : Bus → Prop}
    (hk : Bus.Kept E s.regions P) (h : P s.bus) (a n : Nat) :
    s.busEffect P (s.readTransfer E a n) := by
  unfold State.readTransfer State.busRead
  cases hr : resolve s.strictEnd s.regions a n with
  | none =>
    exact ⟨_, _, 0, s.request, Bus.readBytes_induct hk.interleave h, .inl rfl, rfl⟩
  | some p =>
    obtain ⟨r, idx⟩ := p
    cases hrd : r.read with
    | false =>
      simp only [hrd, Bool.false_eq_true, if_false]
      exact ⟨_, _, 0, s.request, Bus.readBytes_induct hk.interleave h, .inl rfl, rfl⟩
    | true =>
      simp only [hrd, if_true, State.callRead]
      have hb := Bus.runCode_induct (idx := idx) (r := r)
        (code := E.readHandler (s.bus.interleave E s.regions).fresh idx (a - r.base.toNat) n)
        hk.interleave (fun b a _ => hk.act r (mem_of_resolve hr) idx b a)
        (E.handlerLimit (s.bus.interleave E s.regions).fresh) []
        (hk.call _ (.read idx (a - r.base.toNat) n) (hk.interleave _ h))
      change P (Bus.runRead E s.regions idx r _ _ _ _).2 at hb
      generalize Bus.runRead E s.regions idx r _ _ _ _ = run at hb
      obtain ⟨res, b'⟩ := run
      cases res with
      | none =>
        exact ⟨b', [], 0, .hung, hb, .inr rfl, by
          simp [BusReply.ofResult, State.hang, countFailures]⟩
      | some x =>
        obtain ⟨ws, st⟩ := x
        by_cases hst : st = 0
        · exact ⟨b', _, 0, s.request, hb, .inl rfl, by
            simp [BusReply.ofResult, State.countStatus, hst, State.emit, countFailures]; rfl⟩
        · exact ⟨b', _, 1, s.request, hb, .inl rfl, by
            simp [BusReply.ofResult, State.countStatus, hst, State.emit, countFailures, State.count]
            rfl⟩

theorem State.readTransfers_effect {E : Env} {P : Bus → Prop} (a n C : Nat) {s : State}
    (hk : Bus.Kept E s.regions P) (h : P s.bus) :
    s.busEffect P (State.readTransfers E a n C s) := by
  induction C generalizing s with
  | zero => exact State.busEffect_refl h
  | succ C ih =>
    have e := State.readTransfer_effect hk h a n
    rw [State.readTransfers]
    split
    · exact e
    · refine State.busEffect_trans e ?_
      obtain ⟨b, bs, k, q, hP, -, he⟩ := e
      exact ih (by rw [he]; exact hk) (by rw [he]; exact hP)

theorem State.space0Read_effect {E : Env} {P : Bus → Prop} {s : State}
    (hk : Bus.Kept E s.regions P) (h : P s.bus) (a : Nat) (size : UnitSize) (incr : Bool)
    (count : BitVec 7) : s.busEffect P (s.space0Read E a size incr count) := by
  unfold State.space0Read
  split
  · split
    · exact State.readTransfer_effect hk h _ _
    · exact State.readTransfers_effect _ _ _ hk h
  · exact ⟨_, _, 0, s.request, Bus.readBytes_induct hk.interleave h, .inl rfl, rfl⟩

/-- From s to t: like `busEffect`, and the reply stays. -/
def State.busWriteEffect (P : Bus → Prop) (s t : State) : Prop :=
  ∃ b k q, P b ∧ (q = s.request ∨ q = .hung) ∧
    t = { s with bus := b, stats := countFailures s.stats k, request := q }

theorem State.busWriteEffect_trans {P : Bus → Prop} {s t u : State} (h1 : s.busWriteEffect P t)
    (h2 : t.busWriteEffect P u) : s.busWriteEffect P u := by
  obtain ⟨b1, k1, q1, -, hq1, rfl⟩ := h1
  obtain ⟨b2, k2, q2, hP, hq2, rfl⟩ := h2
  refine ⟨b2, k1 + k2, q2, hP, ?_, by simp [countFailures_add]⟩
  rcases hq2 with rfl | rfl
  · exact hq1
  · exact .inr rfl

theorem State.writeTransfer_effect {E : Env} {s : State} {P : Bus → Prop}
    (hk : Bus.Kept E s.regions P) (h : P s.bus) (a : Nat) (data : List Byte)
    (hw : ∀ (b : Bus) x v, x ∈ addressRun a (4 * (wordsOf data).length) → P b →
      P { b with rf := Memory.write b.rf x v }) :
    s.busWriteEffect P (s.writeTransfer E a data) := by
  have hd : P (Bus.writeBytes E s.regions
      ((addressRun a (4 * (wordsOf data).length)).zip (wordsBytes (wordsOf data))) s.bus) :=
    Bus.writeBytes_induct hk.interleave (fun b x v hm => hw b x v (List.of_mem_zip hm).1) h
  unfold State.writeTransfer State.busWrite
  dsimp only
  cases hr : resolve s.strictEnd s.regions a (wordsOf data).length with
  | none => exact ⟨_, 0, s.request, hd, .inl rfl, rfl⟩
  | some p =>
    obtain ⟨r, idx⟩ := p
    cases hrd : r.write with
    | false =>
      simp only [hrd, Bool.false_eq_true, if_false]
      exact ⟨_, 0, s.request, hd, .inl rfl, rfl⟩
    | true =>
      simp only [hrd, if_true, State.callWrite]
      have hb := Bus.runCode_induct (idx := idx) (r := r)
        (code := E.writeHandler (s.bus.interleave E s.regions).fresh idx (a - r.base.toNat)
          (wordsOf data))
        hk.interleave (fun b a _ => hk.act r (mem_of_resolve hr) idx b a)
        (E.handlerLimit (s.bus.interleave E s.regions).fresh) []
        (hk.call _ (.write idx (a - r.base.toNat) (wordsOf data)) (hk.interleave _ h))
      change P (Bus.runWrite E s.regions idx r _ _ _ _).2 at hb
      generalize Bus.runWrite E s.regions idx r _ _ _ _ = run at hb
      obtain ⟨res, b'⟩ := run
      cases res with
      | none =>
        exact ⟨b', 0, .hung, hb, .inr rfl, by
          simp [BusReply.ofResult, State.hang, countFailures]⟩
      | some x =>
        obtain ⟨ws, st⟩ := x
        by_cases hst : st = 0
        · exact ⟨b', 0, s.request, hb, .inl rfl, by
            simp [BusReply.ofResult, State.countStatus, hst, countFailures]⟩
        · exact ⟨b', 1, s.request, hb, .inl rfl, by
            simp [BusReply.ofResult, State.countStatus, hst, countFailures, State.count]⟩

theorem State.writeTransfers_effect {E : Env} {P : Bus → Prop} {a B : Nat} (C : Nat)
    (data : List Byte) {s : State} (hk : Bus.Kept E s.regions P) (h : P s.bus)
    (hw : ∀ (b : Bus) x v, a ≤ x → x < a + B → P b → P { b with rf := Memory.write b.rf x v }) :
    s.busWriteEffect P (State.writeTransfers E a B C data s) := by
  have hlen : ∀ (n : Nat) (bs : List Byte), bs.length ≤ n → 4 * (wordsOf bs).length ≤ bs.length := by
    intro n
    induction n with
    | zero => intro bs hb; simp [List.length_eq_zero_iff.1 (Nat.le_zero.1 hb), wordsOf]
    | succ n ih =>
      intro bs hb
      match bs with
      | b0 :: b1 :: b2 :: b3 :: rest =>
        have := ih rest (by simp at hb; omega)
        simp [wordsOf]; omega
      | [] => simp [wordsOf]
      | [_] => simp [wordsOf]
      | [_, _] => simp [wordsOf]
      | [_, _, _] => simp [wordsOf]
  induction C generalizing s data with
  | zero => exact ⟨s.bus, 0, s.request, h, .inl rfl, rfl⟩
  | succ C ih =>
    have e := State.writeTransfer_effect hk h a (data.take B) fun b x v hx => by
      have h1 := mem_addressRun.1 hx
      have h2 := hlen _ (data.take B) le_rfl
      have h3 : (data.take B).length ≤ B := by simp
      exact hw b x v h1.1 (by omega)
    rw [State.writeTransfers]
    split
    · exact e
    · refine State.busWriteEffect_trans e ?_
      obtain ⟨b, k, q, hP, -, he⟩ := e
      exact ih _ (by rw [he]; exact hk) (by rw [he]; exact hP)

theorem State.space0Write_effect {E : Env} {P : Bus → Prop} {s : State}
    (hk : Bus.Kept E s.regions P) (h : P s.bus) (a : Nat) (size : UnitSize) (incr : Bool)
    (count : BitVec 7) (data : List Byte) (hd : data.length = count.toNat * size.bytes)
    (hw : ∀ (b : Bus) x v, a ≤ x → x < a + span size incr count → P b →
      P { b with rf := Memory.write b.rf x v }) :
    s.busWriteEffect P (s.space0Write E a size incr count data) := by
  unfold State.space0Write
  split
  · next hz =>
    split
    · next hi =>
      subst hi
      refine State.writeTransfer_effect hk h a data fun b x v hx => ?_
      rw [wordsOf_length (count.toNat * size.bytes / 4) data (by rw [hd, busUnit_count hz]),
        busUnit_count hz, mem_addressRun] at hx
      exact hw b x v hx.1 (by simpa [span] using hx.2)
    · next hi =>
      have hi : incr = false := by simpa using hi
      subst hi
      exact State.writeTransfers_effect _ data hk h fun b x v h1 h2 =>
        hw b x v h1 (by simpa [span] using h2)
  · refine ⟨_, 0, s.request, Bus.writeBytes_induct hk.interleave ?_ h, .inl rfl, rfl⟩
    intro b x v hm
    have := mem_zip_touched hm
    exact hw b x v this.1 this.2

end Sys2Proof.Machine
end

