-- ==== Sys2Proof/Laws/Decode.lean ====
section
/-! SUPPORT. The decoder's laws: the command word's fields survive encoding and decoding, what a
successful decode says about the bytes it read, and the lengths. -/

namespace Sys2Proof

open Machine

@[simp] theorem Space.ofCode_code (s : Space) : Space.ofCode s.code = s := by cases s <;> rfl

@[simp] theorem UnitSize.ofCode_code (z : UnitSize) : UnitSize.ofCode z.code = z := by
  cases z <;> rfl

theorem Space.code_ofCode (s : BitVec 3) : (Space.ofCode s).code = s := by
  revert s; decide

theorem UnitSize.code_ofCode (z : BitVec 2) : (UnitSize.ofCode z).code = z := by
  revert z; decide

/-- Bit i of an encoded command word, field by field (R80). -/
theorem getLsbD_encodeWord (c : Command) (i : Nat) :
    (encodeWord c).getLsbD i =
      if i < 7 then c.count.getLsbD i
      else if i < 8 then (BitVec.ofBool c.incr).getLsbD (i - 7)
      else if i < 10 then c.size.code.getLsbD (i - 8)
      else if i < 13 then c.space.code.getLsbD (i - 10)
      else if i < 14 then (BitVec.ofBool c.infoArea).getLsbD (i - 13)
      else if i < 15 then (BitVec.ofBool c.hasAddr).getLsbD (i - 14)
      else (BitVec.ofBool c.write).getLsbD (i - 15) := by
  have h : (encodeWord c).getLsbD i = (BitVec.ofBool c.write ++ (BitVec.ofBool c.hasAddr ++
      (BitVec.ofBool c.infoArea ++ (c.space.code ++ (c.size.code ++
        (BitVec.ofBool c.incr ++ c.count)))))).getLsbD i := rfl
  rw [h]
  simp only [BitVec.getLsbD_append]
  grind

/-- The fields of an encoded command word are the command's. -/
theorem decodeWord_encodeWord (c : Command) : decodeWord (encodeWord c) = c := by
  have hs : (encodeWord c).extractLsb' 10 3 = c.space.code := by
    apply BitVec.eq_of_getLsbD_eq; intro i hi
    rw [BitVec.getLsbD_extractLsb', getLsbD_encodeWord]
    grind
  have hz : (encodeWord c).extractLsb' 8 2 = c.size.code := by
    apply BitVec.eq_of_getLsbD_eq; intro i hi
    rw [BitVec.getLsbD_extractLsb', getLsbD_encodeWord]
    grind
  have hc : (encodeWord c).extractLsb' 0 7 = c.count := by
    apply BitVec.eq_of_getLsbD_eq; intro i hi
    rw [BitVec.getLsbD_extractLsb', getLsbD_encodeWord]
    grind
  simp only [decodeWord, hs, hz, hc, getLsbD_encodeWord]
  cases c
  simp

/-- The command word with the decoded fields is the word itself: no bit is dropped (R80). -/
theorem encodeWord_decodeWord (w : Half) : encodeWord (decodeWord w) = w := by
  apply BitVec.eq_of_getLsbD_eq; intro i hi
  rw [getLsbD_encodeWord]
  simp only [decodeWord, Space.code_ofCode, UnitSize.code_ofCode, BitVec.getLsbD_extractLsb',
    BitVec.getLsbD_ofBool]
  interval_cases i <;> rfl

theorem Command.dataLength_of_read {c : Command} (h : c.write = false) : c.dataLength = 0 := by
  simp [Command.dataLength, dataBytes, h]

theorem Command.dataLength_of_count_zero {c : Command} (h : c.count = 0#7) : c.dataLength = 0 := by
  simp [Command.dataLength, dataBytes, h]

/-- The command word of the instruction a class is given is the command word (R86). -/
theorem classify_command {c : Command} {addr : Option Half} {data : List Byte}
    (ha : c.hasAddr = addr.isSome) : (classify c addr data).command = c := by
  obtain ⟨w, h, ia, sp, z, n, ct⟩ := c
  simp only at ha; subst ha
  unfold classify
  simp only
  split
  · next hc => simp_all [Instr.command]
  · split
    · next hs => simp_all [Instr.command]
    · cases ia <;> cases w <;> cases sp <;> cases z <;> simp_all [Instr.command]

theorem classify_addr {c : Command} {addr : Option Half} {data : List Byte} :
    (classify c addr data).addr = addr := by
  obtain ⟨w, h, ia, sp, z, n, ct⟩ := c
  unfold classify
  simp only
  split
  · rfl
  · split
    · rfl
    · cases ia <;> cases w <;> cases sp <;> cases z <;> rfl

theorem classify_data {c : Command} {addr : Option Half} {data : List Byte}
    (hd : data.length = c.dataLength) : (classify c addr data).data = data := by
  obtain ⟨w, h, ia, sp, z, n, ct⟩ := c
  unfold classify
  simp only
  split
  · next hc =>
    have := Command.dataLength_of_count_zero (c := ⟨w, h, ia, sp, z, n, ct⟩) hc
    rw [this] at hd
    exact (List.length_eq_zero_iff.1 hd).symm
  · split
    · rfl
    · have hr : w = false → data = [] := fun hw => List.length_eq_zero_iff.1
        (by rw [hd]; exact Command.dataLength_of_read hw)
      cases ia <;> cases w <;> cases sp <;> cases z <;> simp_all [Instr.data]

/-- The decoder gives only well-formed instructions. -/
theorem classify_wf {c : Command} {addr : Option Half} {data : List Byte}
    (hd : data.length = c.dataLength) : (classify c addr data).wf = true := by
  obtain ⟨w, h, ia, sp, z, n, ct⟩ := c
  simp only [Command.dataLength] at hd
  unfold classify
  simp only
  split
  · rfl
  · next hc =>
    split
    · simp [Instr.wf, countOk, hc, hd]
    · next hs =>
      cases ia <;> cases w <;> cases sp <;> cases z <;>
        simp_all [Instr.wf, countOk, infoSpaceOk]

/-- What a successful decode says: the bytes are a command word, its address field and its data, then
the rest of the payload; the length is that of R82; no byte past the length is looked at. -/
theorem decode_ok {bytes : List Byte} {i : Instr} {len : Nat} (h : decode bytes = .ok (i, len)) :
    ∃ c addr data rest, bytes = halfBytes (encodeWord c) ++ (addressBytes addr ++ (data ++ rest)) ∧
      i = classify c addr data ∧ c.hasAddr = addr.isSome ∧ data.length = c.dataLength ∧
      len = c.length := by
  match bytes, h with
  | b0 :: b1 :: more, h =>
    simp only [decode] at h
    generalize hc : decodeWord (le16 b0 b1) = c at h
    have hb : halfBytes (encodeWord c) = [b0, b1] := by
      rw [← hc, encodeWord_decodeWord, halfBytes_le16]
    cases ha : c.hasAddr with
    | false =>
      simp only [ha, takeAddress] at h
      split at h
      · cases h
      · next hl =>
        cases h
        exact ⟨c, none, more.take c.dataLength, more.drop c.dataLength, by simp [hb, addressBytes],
          rfl, by simp [ha], by simp; omega, rfl⟩
    | true =>
      match more, h with
      | [], h => simp [ha, takeAddress] at h
      | [_], h => simp [ha, takeAddress] at h
      | a0 :: a1 :: more, h =>
        simp only [ha, takeAddress] at h
        split at h
        · cases h
        · next hl =>
          cases h
          exact ⟨c, some (le16 a0 a1), more.take c.dataLength, more.drop c.dataLength,
            by simp [hb, addressBytes], rfl, by simp [ha], by simp; omega, rfl⟩

/-- Decoding the bytes of a command, whatever follows them. -/
theorem decode_command (c : Command) (addr : Option Half) (data rest : List Byte)
    (ha : c.hasAddr = addr.isSome) (hd : data.length = c.dataLength) :
    decode (halfBytes (encodeWord c) ++ (addressBytes addr ++ (data ++ rest))) =
      .ok (classify c addr data, c.length) := by
  cases addr with
  | none =>
    simp at ha
    simp [decode, halfBytes, decodeWord_encodeWord, ha, takeAddress, addressBytes, ← hd]
  | some a =>
    simp at ha
    simp [decode, halfBytes, decodeWord_encodeWord, ha, takeAddress, addressBytes, ← hd]

theorem addressBytes_length (addr : Option Half) :
    (addressBytes addr).length = if addr.isSome then 2 else 0 := by
  cases addr <;> rfl

/-- A decoded command lies inside the bytes it was read from. -/
theorem decode_length_le {bytes : List Byte} {i : Instr} {len : Nat}
    (h : decode bytes = .ok (i, len)) : len ≤ bytes.length := by
  obtain ⟨c, addr, data, rest, rfl, -, ha, hd, rfl⟩ := decode_ok h
  simp only [List.length_append, halfBytes_length, addressBytes_length, ← ha, hd, Command.length,
    Command.headerLength]
  split <;> omega

/-- No command is shorter than its command word. -/
theorem decode_length_pos {bytes : List Byte} {i : Instr} {len : Nat}
    (h : decode bytes = .ok (i, len)) : 2 ≤ len := by
  obtain ⟨c, addr, data, rest, rfl, -, ha, hd, rfl⟩ := decode_ok h
  simp only [Command.length, Command.headerLength]
  split <;> omega

theorem decode_wf {bytes : List Byte} {i : Instr} {len : Nat} (h : decode bytes = .ok (i, len)) :
    i.wf = true := by
  obtain ⟨c, addr, data, rest, rfl, rfl, ha, hd, rfl⟩ := decode_ok h
  exact classify_wf hd

/-- The only bytes on which the decoder finds none are the empty ones. -/
theorem decode_noBytes {bytes : List Byte} : decode bytes = .error .noBytes ↔ bytes = [] := by
  match bytes with
  | [] => simp [decode]
  | [_] => simp [decode]
  | b0 :: b1 :: more =>
    simp only [decode, reduceCtorEq, iff_false]
    split
    · simp
    · split <;> simp

end Sys2Proof
end

