-- ==== Sys2Proof/Laws/Ops.lean ====
section
/-! SUPPORT. Storage of memory spaces and info areas: what a store leaves, and the record's bytes. -/

namespace Sys2Proof.Machine

@[simp] theorem storeBytes_length (m : List Byte) (cells : List Host.Cell) :
    (storeBytes m cells).length = m.length := by
  unfold storeBytes
  induction cells generalizing m with
  | nil => rfl
  | cons c cells ih => simp [ih]

/-- What a space's storage holds after a command's data is stored (R155). -/
theorem storeBytes_getD {m : List Byte} {a : Nat} {size : UnitSize} {incr : Bool}
    {count : BitVec 7} {data : List Byte} (hC : 0 < count.toNat)
    (hd : data.length = count.toNat * size.bytes) (hr : a + span size incr count ≤ m.length)
    (x : Nat) :
    (storeBytes m ((touched a size incr count).zip data)).getD x 0#8 =
      afterStore a size incr count data x (m.getD x 0#8) := by
  unfold storeBytes
  refine foldl_store_touched (get := fun m' : List Byte => m'.getD x 0#8)
    (I := fun m' : List Byte => m'.length = m.length) hC hd ?_ rfl
  intro m' c hc hl
  have := mem_zip_touched hc
  refine ⟨by simp [hl], ?_⟩
  simp only [List.getD_eq_getElem?_getD, List.getElem?_set]
  split
  · next h => subst h; simp [show c.1 < m'.length by omega]
  · rfl

/-- The bytes a read of a space gives (R152, R154, R158). -/
theorem repliesUnits_spaceBytes (m : List Byte) (a : Nat) (size : UnitSize) (incr : Bool)
    (count : BitVec 7) :
    repliesUnits a size incr count (fun x => m.getD x 0#8)
      (spaceBytes m (touched a size incr count)) :=
  repliesUnits_map a size incr count fun x => m.getD x 0#8

/-! ### Info-area records -/

@[simp] theorem InfoRecord.bytes_length (r : InfoRecord) : r.bytes.length = 16 := by
  simp [InfoRecord.bytes]

/-- One stored byte changes the pointer only. -/
theorem InfoRecord.storeByte_static (r : InfoRecord) (c : Host.Cell) :
    r.storeByte c = { r with pointer := (r.storeByte c).pointer } := by
  unfold InfoRecord.storeByte; split
  · rfl
  · split <;> rfl

/-- An info-area write leaves everything but the address pointer as it was (R37, R195). -/
theorem InfoRecord.storeBytes_static (r : InfoRecord) (cells : List Host.Cell) :
    r.storeBytes cells = { r with pointer := (r.storeBytes cells).pointer } := by
  unfold InfoRecord.storeBytes
  induction cells generalizing r with
  | nil => rfl
  | cons c cells ih =>
    rw [List.foldl_cons, ih, InfoRecord.storeByte_static]

theorem InfoRecord.storeByte_pointer (r : InfoRecord) (c : Host.Cell) :
    byteOf (r.storeByte c).pointer 0 = (if c.1 = 6 then c.2 else byteOf r.pointer 0) ∧
      byteOf (r.storeByte c).pointer 1 = (if c.1 = 7 then c.2 else byteOf r.pointer 1) := by
  unfold InfoRecord.storeByte
  by_cases h6 : c.1 = 6
  · simp [h6]
  · by_cases h7 : c.1 = 7 <;> simp [h6, h7]

/-- The two bytes of the address pointer after an info-area write (R195). -/
theorem InfoRecord.storeBytes_pointer {r : InfoRecord} {a : Nat} {incr : Bool}
    {count : BitVec 7} {data : List Byte} (hC : 0 < count.toNat)
    (hd : data.length = count.toNat * UnitSize.u16.bytes) :
    byteOf (r.storeBytes ((touched a .u16 incr count).zip data)).pointer 0 =
        afterStore a .u16 incr count data 6 (byteOf r.pointer 0) ∧
      byteOf (r.storeBytes ((touched a .u16 incr count).zip data)).pointer 1 =
        afterStore a .u16 incr count data 7 (byteOf r.pointer 1) := by
  unfold InfoRecord.storeBytes
  constructor
  · exact foldl_store_touched (get := fun r' : InfoRecord => byteOf r'.pointer 0)
      (I := fun _ => True) hC hd
      (fun r' c _ _ => ⟨trivial, (InfoRecord.storeByte_pointer r' c).1⟩) trivial
  · exact foldl_store_touched (get := fun r' : InfoRecord => byteOf r'.pointer 1)
      (I := fun _ => True) hC hd
      (fun r' c _ _ => ⟨trivial, (InfoRecord.storeByte_pointer r' c).2⟩) trivial

theorem spaceIndex_inj {a b : Space} (h : spaceIndex a = spaceIndex b) : a = b := by
  revert h; cases a <;> cases b <;> decide

/-- The record of a space after one record is written back. -/
theorem State.setInfoRecord_infoRecord (s : State) (sp sp' : Space) (r : InfoRecord) :
    (s.setInfoRecord sp r).infoRecord sp' = if sp' = sp then r else s.infoRecord sp' := by
  unfold State.setInfoRecord State.infoRecord
  simp only [Vector.get_eq_getElem, Vector.getElem_set]
  by_cases h : sp' = sp
  · subst h; simp
  · rw [if_neg h, if_neg]
    exact fun e => h (spaceIndex_inj (Fin.ext e)).symm

end Sys2Proof.Machine
end

