-- ==== Sys2Proof/Laws/Stats.lean ====
section
/-! SUPPORT. Memory space 6: reading a byte after a store, and what counting an error changes. -/

namespace Sys2Proof.Machine

/-- A byte of space 6 after one byte is stored. -/
theorem statsByte_set (m : Vector Byte 32) (i : Nat) (v : Byte) (x : Nat) (hi : i < 32) :
    statsByte (m.setIfInBounds i v) x = if i = x then v else statsByte m x := by
  unfold statsByte
  rw [List.getD_eq_getElem?_getD, List.getD_eq_getElem?_getD]
  simp only [Vector.toList_setIfInBounds, List.getElem?_set]
  split
  · next h => subst h; simp [hi]
  · rfl

theorem statsByte_setStatsWord (m : Vector Byte 32) (k : Nat) (v : Half) (x : Nat) (hk : k < 16) :
    statsByte (setStatsWord m k v) x =
      if 2 * k = x then byteOf v 0 else if 2 * k + 1 = x then byteOf v 1 else statsByte m x := by
  unfold setStatsWord
  rw [statsByte_set _ _ _ _ (by omega), statsByte_set _ _ _ _ (by omega)]
  by_cases h : 2 * k + 1 = x
  · simp [h, show ¬ 2 * k = x by omega]
  · simp [h]

@[simp] theorem statsWord_setStatsWord (m : Vector Byte 32) (k : Nat) (v : Half) (hk : k < 16) :
    statsWord (setStatsWord m k v) k = v := by
  unfold statsWord
  rw [statsByte_setStatsWord _ _ _ _ hk, statsByte_setStatsWord _ _ _ _ hk]
  simp

/-- Counting an error adds 1 modulo 2^16 to its counter and changes no other byte (R254). -/
theorem bumpCounter_spec {m : Vector Byte 32} {e : ErrorCode} {k : Nat}
    (h : e.counter = some k) :
    statsWord (bumpCounter m e) k = statsWord m k + 1#16 ∧
      ∀ j, j ≠ 2 * k → j ≠ 2 * k + 1 → statsByte (bumpCounter m e) j = statsByte m j := by
  have hk : k < 16 := by cases e <;> cases h <;> decide
  simp only [bumpCounter, h]
  refine ⟨statsWord_setStatsWord _ _ _ hk, fun j h1 h2 => ?_⟩
  rw [statsByte_setStatsWord _ _ _ _ hk, if_neg (Ne.symm h1), if_neg (Ne.symm h2)]

/-- Counting an error changes one of the bytes 0 to 5 at most. -/
theorem statsByte_bumpCounter (m : Vector Byte 32) (e : ErrorCode) {j : Nat} (hj : 6 ≤ j) :
    statsByte (bumpCounter m e) j = statsByte m j := by
  cases h : e.counter with
  | none => simp [bumpCounter, h]
  | some k =>
    have hk : k < 3 := by cases e <;> cases h <;> decide
    exact (bumpCounter_spec h).2 j (by omega) (by omega)

theorem statsWord_bumpCounter (m : Vector Byte 32) (e : ErrorCode) {k : Nat} (hk : 3 ≤ k) :
    statsWord (bumpCounter m e) k = statsWord m k := by
  simp [statsWord, statsByte_bumpCounter m e (show 6 ≤ 2 * k by omega),
    statsByte_bumpCounter m e (show 6 ≤ 2 * k + 1 by omega)]

/-- A Reject of an error with a counter only counts it (R252). -/
theorem State.onlyCounts_count {s : State} {e : ErrorCode} {k : Nat} (h : e.counter = some k) :
    s.onlyCounts (s.count e) k :=
  ⟨rfl, (bumpCounter_spec h).1, fun j _ => (bumpCounter_spec h).2 j⟩

/-- What space 6 holds after a command's data is stored (R157). -/
theorem statsByte_statsStore {m : Vector Byte 32} {a : Nat} {size : UnitSize} {incr : Bool}
    {count : BitVec 7} {data : List Byte} (hC : 0 < count.toNat)
    (hd : data.length = count.toNat * size.bytes) (hr : a + span size incr count ≤ 32) (x : Nat) :
    statsByte (statsStore m ((touched a size incr count).zip data)) x =
      afterStore a size incr count data x (statsByte m x) := by
  unfold statsStore
  refine foldl_store_touched (get := (statsByte · x)) (I := fun _ => True) hC hd ?_ trivial
  exact fun s c hc _ => ⟨trivial, statsByte_set s _ _ _ (by have := mem_zip_touched hc; omega)⟩

/-- The bytes a read of space 6 gives: the stored value outside the transport words, a draw inside
(R156, R166). -/
theorem statsRead_getElem? (E : Env) (m : Vector Byte 32) (as : List Nat) (d : Nat) {k : Nat}
    {x : Nat} (h : as[k]? = some x) :
    (statsRead E m as d).1[k]? = some (if isTransportByte x then
      E.transportByte (d + ((as.take k).filter isTransportByte).length) x else statsByte m x) := by
  induction as generalizing d k with
  | nil => simp at h
  | cons a as ih =>
    cases k with
    | zero =>
      simp at h; subst h
      cases ha : isTransportByte a <;> simp [statsRead, ha]
    | succ k =>
      simp at h
      cases ha : isTransportByte a
      · simp [statsRead, ha, ih d h]
      · simp [statsRead, ha, ih (d + 1) h, Nat.add_comm, Nat.add_left_comm]

theorem statsRead_length (E : Env) (m : Vector Byte 32) (as : List Nat) (d : Nat) :
    (statsRead E m as d).1.length = as.length := by
  induction as generalizing d with
  | nil => rfl
  | cons a as ih => cases ha : isTransportByte a <;> simp [statsRead, ha, ih]

theorem statsRead_draws (E : Env) (m : Vector Byte 32) (as : List Nat) (d : Nat) :
    (statsRead E m as d).2 = d + (as.filter isTransportByte).length := by
  induction as generalizing d with
  | nil => rfl
  | cons a as ih =>
    cases ha : isTransportByte a <;> simp [statsRead, ha, ih]; omega

end Sys2Proof.Machine
end

