-- ==== Sys2Proof/Laws/Exec.lean ====
section
/-! SUPPORT. What one command can change, said once for all commands. -/

namespace Sys2Proof.Machine

/-- Everything a command can do to the state: count one error; append bytes to the reply; change the
address pointer of its space (IAWR); change the scratch block (WR4); make transport draws (RD6); store in
memory space 6, raising the reset request when word 14 is nonzero (WR6); or what a command of memory space
0 does (RD0, WR0). -/
inductive ExecEffect (i : Instr) (s : State) : State → Prop
  | counts (e : ErrorCode) : ExecEffect i s (s.count e)
  | emits (bs : List Byte) : ExecEffect i s (s.emit bs)
  | pointer (sp : Space) (a : Option Half) (n : Bool) (c : BitVec 7) (d : List Byte)
      (p : Half) (hi : i = .iawr sp a n c d) :
      ExecEffect i s (s.setInfoRecord sp { s.infoRecord sp with pointer := p })
  | scratch (a : Option Half) (z : UnitSize) (n : Bool) (c : BitVec 7) (d m : List Byte)
      (hi : i = .wr4 a z n c d) (hl : m.length = s.space4.length) :
      ExecEffect i s { s with space4 := m }
  | draws (bs : List Byte) (k : Nat) (hk : s.draws ≤ k) :
      ExecEffect i s { s with reply := s.reply ++ bs, draws := k }
  | stats (a : Option Half) (z : UnitSize) (n : Bool) (c : BitVec 7) (d : List Byte)
      (m : Vector Byte 32) (hi : i = .wr6 a z n c d) (h0 : statsWord m 14 = 0#16) :
      ExecEffect i s { s with stats := m }
  | reset (a : Option Half) (z : UnitSize) (n : Bool) (c : BitVec 7) (d : List Byte)
      (m : Vector Byte 32) (hi : i = .wr6 a z n c d) (h0 : statsWord m 14 ≠ 0#16) :
      ExecEffect i s { s with
        stats := m, resetRequested := true, request := .idle, payload := [], cursor := 0
        reply := [] }
  | read0 (a : Option Half) (z : UnitSize) (n : Bool) (c : BitVec 7) (hi : i = .rd0 a z n c)
      (hr : s.startAddress .s0 a + span z n c ≤ Config.rfSize) :
      ExecEffect i s (s.space0Read Config.env (s.startAddress .s0 a) z n c)
  | write0 (a : Option Half) (z : UnitSize) (n : Bool) (c : BitVec 7) (d : List Byte)
      (hi : i = .wr0 a z n c d) (hr : s.startAddress .s0 a + span z n c ≤ Config.rfSize) :
      ExecEffect i s (s.space0Write Config.env (s.startAddress .s0 a) z n c d)

theorem State.spaceRead_effect (i : Instr) (s : State) (sp : Space) (storage : List Byte)
    (a : Option Half) (z : UnitSize) (n : Bool) (c : BitVec 7) :
    ExecEffect i s (s.spaceRead sp storage a z n c) := by
  unfold State.spaceRead
  simp only
  split
  · exact .emits _
  · exact .counts _

theorem inRange_iff {a : Nat} {z : UnitSize} {n : Bool} {c : BitVec 7} {l : Nat} :
    inRange a z n c l = true ↔ a + span z n c ≤ l := by simp [inRange]

/-- Every command answers a next state, and that state is one of `ExecEffect`'s. -/
theorem exec_effect (i : Instr) (s : State) : ∃ t, exec i s = .next t ∧ ExecEffect i s t := by
  cases i with
  | badCount => exact ⟨_, rfl, .counts _⟩
  | rsv5 => exact ⟨_, rfl, .counts _⟩
  | iaBadWidth8 => exact ⟨_, rfl, .counts _⟩
  | iaBadWidth32 => exact ⟨_, rfl, .counts _⟩
  | iaBadWidth64 => exact ⟨_, rfl, .counts _⟩
  | datax1 => exact ⟨_, rfl, .counts _⟩
  | datax3 => exact ⟨_, rfl, .counts _⟩
  | wr2 => exact ⟨_, rfl, .counts _⟩
  | wr7 => exact ⟨_, rfl, .counts _⟩
  | rd2 => exact ⟨_, rfl, State.spaceRead_effect ..⟩
  | rd4 => exact ⟨_, rfl, State.spaceRead_effect ..⟩
  | rd7 => exact ⟨_, rfl, State.spaceRead_effect ..⟩
  | iard =>
    refine ⟨_, rfl, ?_⟩
    unfold State.infoRead; simp only; split
    · exact .emits _
    · exact .counts _
  | iawr sp a n c d =>
    refine ⟨_, rfl, ?_⟩
    unfold State.infoWrite; simp only; split
    · rw [InfoRecord.storeBytes_static]; exact .pointer sp a n c d _ rfl
    · exact .counts _
  | wr4 a z n c d =>
    refine ⟨_, rfl, ?_⟩
    unfold State.write4; simp only; split
    · exact .scratch a z n c d _ rfl (storeBytes_length _ _)
    · exact .counts _
  | rd6 =>
    refine ⟨_, rfl, ?_⟩
    unfold State.read6; simp only; split
    · exact .draws _ _ (by rw [statsRead_draws]; omega)
    · exact .counts _
  | wr6 a z n c d =>
    refine ⟨_, rfl, ?_⟩
    unfold State.write6; simp only; split
    · unfold State.checkResetTrigger
      split
      · next h => exact .stats a z n c d _ rfl h
      · next h => exact .reset a z n c d _ rfl h
    · exact .counts _
  | rd0 a z n c =>
    refine ⟨_, rfl, ?_⟩
    unfold State.read0; simp only; split
    · next h => exact .read0 a z n c rfl (inRange_iff.1 h)
    · exact .counts _
  | wr0 a z n c d =>
    refine ⟨_, rfl, ?_⟩
    unfold State.write0; simp only; split
    · next h => exact .write0 a z n c d rfl (inRange_iff.1 h)
    · exact .counts _

theorem exec_effect_of_next {i : Instr} {s t : State} (h : exec i s = .next t) :
    ExecEffect i s t := by
  obtain ⟨u, hu, he⟩ := exec_effect i s
  rw [h] at hu; cases hu; exact he

/-- What the bus operations keep whatever is in the register file: `True` is kept. -/
theorem Bus.kept_true (E : Env) (regions : List Region) : Bus.Kept E regions fun _ => True :=
  ⟨fun _ _ => trivial, fun _ _ _ => trivial, fun _ _ _ _ _ _ => trivial⟩

theorem State.busEffect_of_write {P : Bus → Prop} {s t : State} (h : s.busWriteEffect P t) :
    s.busEffect P t := by
  obtain ⟨b, k, q, hP, hq, rfl⟩ := h
  exact ⟨b, [], k, q, hP, hq, by simp⟩

/-- A space-0 read touches the bus, the reply, the counters and the request mode only. -/
theorem State.space0Read_busOnly (E : Env) (s : State) (a : Nat) (z : UnitSize) (n : Bool)
    (c : BitVec 7) : s.busEffect (fun _ => True) (s.space0Read E a z n c) :=
  State.space0Read_effect (Bus.kept_true _ _) trivial _ _ _ _

/-- A space-0 write touches the bus, the counters and the request mode only, whatever its data is. -/
theorem State.space0Write_busOnly (E : Env) (s : State) (a : Nat) (z : UnitSize) (n : Bool)
    (c : BitVec 7) (d : List Byte) :
    s.busWriteEffect (fun _ => True) (s.space0Write E a z n c d) := by
  unfold State.space0Write
  split
  · split
    · exact State.writeTransfer_effect (Bus.kept_true _ _) trivial _ _ fun _ _ _ _ _ => trivial
    · exact State.writeTransfers_effect _ _ (Bus.kept_true _ _) trivial
        fun _ _ _ _ _ _ => trivial
  · exact ⟨_, 0, s.request, trivial, .inl rfl, rfl⟩

/-- No command changes the region table, the end test, memory spaces 2 and 7 or the host port. -/
theorem exec_fixed {i : Instr} {s t : State} (h : exec i s = .next t) :
    t.regions = s.regions ∧ t.strictEnd = s.strictEnd ∧ t.space2 = s.space2 ∧
      t.space7 = s.space7 ∧ t.inbox = s.inbox ∧ t.outbox = s.outbox := by
  have hb : ∀ {t}, s.busEffect (fun _ => True) t → t.regions = s.regions ∧
      t.strictEnd = s.strictEnd ∧ t.space2 = s.space2 ∧ t.space7 = s.space7 ∧
      t.inbox = s.inbox ∧ t.outbox = s.outbox := by
    rintro t ⟨b, bs, k, q, -, -, rfl⟩; simp
  cases exec_effect_of_next h with
  | read0 a z n c => exact hb (State.space0Read_busOnly ..)
  | write0 a z n c d => exact hb (State.busEffect_of_write (State.space0Write_busOnly ..))
  | _ => exact ⟨rfl, rfl, rfl, rfl, rfl, rfl⟩

/-- A command leaves the payload and the cursor where they are, but for a write of memory space 6 that
raises the reset request and ends the payload. -/
theorem exec_payload {i : Instr} {s t : State} (h : exec i s = .next t) :
    (t.payload = s.payload ∧ t.cursor = s.cursor ∧ t.resetRequested = s.resetRequested ∧
        (t.request = s.request ∨ t.request = .hung)) ∨
      ((∃ a z n c d, i = .wr6 a z n c d) ∧ t.payload = [] ∧ t.cursor = 0 ∧
        t.resetRequested = true ∧ t.request = .idle) := by
  have hb : ∀ {t}, s.busEffect (fun _ => True) t → t.payload = s.payload ∧
      t.cursor = s.cursor ∧ t.resetRequested = s.resetRequested ∧
      (t.request = s.request ∨ t.request = .hung) := by
    rintro t ⟨b, bs, k, q, -, hq, rfl⟩; exact ⟨rfl, rfl, rfl, hq⟩
  cases exec_effect_of_next h with
  | read0 a z n c => exact .inl (hb (State.space0Read_busOnly ..))
  | write0 a z n c d => exact .inl (hb (State.busEffect_of_write (State.space0Write_busOnly ..)))
  | reset a z n c d m hi => exact .inr ⟨⟨a, z, n, c, d, hi⟩, rfl, rfl, rfl, rfl⟩
  | _ => exact .inl ⟨rfl, rfl, rfl, .inl rfl⟩

end Sys2Proof.Machine
end

