-- ==== Sys2Proof/Laws/PerInstr.lean ====
section
/-! SUPPORT. Per-instruction laws of the encoding: a well-formed instruction is the class and the operands
of its own command word (`ClassifyCommand`), and it carries as many data bytes as its command word
declares (`DataLength`). -/

set_option linter.unusedSimpArgs false

namespace Sys2Proof.Laws.ClassifyCommand

/-- Classifying the instruction's command word with its address field and data gives it back (R86). -/
def Statement (i : Instr) : Prop := i.wf = true → classify i.command i.addr i.data = i

theorem badCount (w ia : Bool) (sp : Space) (a : Option Half) (z : UnitSize) (n : Bool) :
    Statement (.badCount w ia sp a z n) := by
  intro _; rfl

theorem rsv5 (w ia : Bool) (a : Option Half) (z : UnitSize) (n : Bool) (c : BitVec 7) (d : List Byte) :
    Statement (.rsv5 w ia a z n c d) := by
  intro h
  simp only [Instr.wf, countOk, infoSpaceOk, Bool.and_eq_true, bne_iff_ne, ne_eq, beq_iff_eq] at h
  simp [classify, Instr.command, Instr.addr, Instr.data, h]

theorem iaBadWidth8 (w : Bool) (sp : Space) (a : Option Half) (n : Bool) (c : BitVec 7) (d : List Byte) :
    Statement (.iaBadWidth8 w sp a n c d) := by
  intro h
  simp only [Instr.wf, countOk, infoSpaceOk, Bool.and_eq_true, bne_iff_ne, ne_eq, beq_iff_eq] at h
  simp [classify, Instr.command, Instr.addr, Instr.data, h]

theorem iaBadWidth32 (w : Bool) (sp : Space) (a : Option Half) (n : Bool) (c : BitVec 7) (d : List Byte) :
    Statement (.iaBadWidth32 w sp a n c d) := by
  intro h
  simp only [Instr.wf, countOk, infoSpaceOk, Bool.and_eq_true, bne_iff_ne, ne_eq, beq_iff_eq] at h
  simp [classify, Instr.command, Instr.addr, Instr.data, h]

theorem iaBadWidth64 (w : Bool) (sp : Space) (a : Option Half) (n : Bool) (c : BitVec 7) (d : List Byte) :
    Statement (.iaBadWidth64 w sp a n c d) := by
  intro h
  simp only [Instr.wf, countOk, infoSpaceOk, Bool.and_eq_true, bne_iff_ne, ne_eq, beq_iff_eq] at h
  simp [classify, Instr.command, Instr.addr, Instr.data, h]

theorem iard (sp : Space) (a : Option Half) (n : Bool) (c : BitVec 7) :
    Statement (.iard sp a n c) := by
  intro h
  simp only [Instr.wf, countOk, infoSpaceOk, Bool.and_eq_true, bne_iff_ne, ne_eq, beq_iff_eq] at h
  simp [classify, Instr.command, Instr.addr, Instr.data, h]

theorem iawr (sp : Space) (a : Option Half) (n : Bool) (c : BitVec 7) (d : List Byte) :
    Statement (.iawr sp a n c d) := by
  intro h
  simp only [Instr.wf, countOk, infoSpaceOk, Bool.and_eq_true, bne_iff_ne, ne_eq, beq_iff_eq] at h
  simp [classify, Instr.command, Instr.addr, Instr.data, h]

theorem rd0 (a : Option Half) (z : UnitSize) (n : Bool) (c : BitVec 7) :
    Statement (.rd0 a z n c) := by
  intro h
  simp only [Instr.wf, countOk, infoSpaceOk, Bool.and_eq_true, bne_iff_ne, ne_eq, beq_iff_eq] at h
  simp [classify, Instr.command, Instr.addr, Instr.data, h]

theorem wr0 (a : Option Half) (z : UnitSize) (n : Bool) (c : BitVec 7) (d : List Byte) :
    Statement (.wr0 a z n c d) := by
  intro h
  simp only [Instr.wf, countOk, infoSpaceOk, Bool.and_eq_true, bne_iff_ne, ne_eq, beq_iff_eq] at h
  simp [classify, Instr.command, Instr.addr, Instr.data, h]

theorem datax1 (w : Bool) (a : Option Half) (z : UnitSize) (n : Bool) (c : BitVec 7) (d : List Byte) :
    Statement (.datax1 w a z n c d) := by
  intro h
  simp only [Instr.wf, countOk, infoSpaceOk, Bool.and_eq_true, bne_iff_ne, ne_eq, beq_iff_eq] at h
  simp [classify, Instr.command, Instr.addr, Instr.data, h]

theorem datax3 (w : Bool) (a : Option Half) (z : UnitSize) (n : Bool) (c : BitVec 7) (d : List Byte) :
    Statement (.datax3 w a z n c d) := by
  intro h
  simp only [Instr.wf, countOk, infoSpaceOk, Bool.and_eq_true, bne_iff_ne, ne_eq, beq_iff_eq] at h
  simp [classify, Instr.command, Instr.addr, Instr.data, h]

theorem rd2 (a : Option Half) (z : UnitSize) (n : Bool) (c : BitVec 7) :
    Statement (.rd2 a z n c) := by
  intro h
  simp only [Instr.wf, countOk, infoSpaceOk, Bool.and_eq_true, bne_iff_ne, ne_eq, beq_iff_eq] at h
  simp [classify, Instr.command, Instr.addr, Instr.data, h]

theorem wr2 (a : Option Half) (z : UnitSize) (n : Bool) (c : BitVec 7) (d : List Byte) :
    Statement (.wr2 a z n c d) := by
  intro h
  simp only [Instr.wf, countOk, infoSpaceOk, Bool.and_eq_true, bne_iff_ne, ne_eq, beq_iff_eq] at h
  simp [classify, Instr.command, Instr.addr, Instr.data, h]

theorem rd4 (a : Option Half) (z : UnitSize) (n : Bool) (c : BitVec 7) :
    Statement (.rd4 a z n c) := by
  intro h
  simp only [Instr.wf, countOk, infoSpaceOk, Bool.and_eq_true, bne_iff_ne, ne_eq, beq_iff_eq] at h
  simp [classify, Instr.command, Instr.addr, Instr.data, h]

theorem wr4 (a : Option Half) (z : UnitSize) (n : Bool) (c : BitVec 7) (d : List Byte) :
    Statement (.wr4 a z n c d) := by
  intro h
  simp only [Instr.wf, countOk, infoSpaceOk, Bool.and_eq_true, bne_iff_ne, ne_eq, beq_iff_eq] at h
  simp [classify, Instr.command, Instr.addr, Instr.data, h]

theorem rd6 (a : Option Half) (z : UnitSize) (n : Bool) (c : BitVec 7) :
    Statement (.rd6 a z n c) := by
  intro h
  simp only [Instr.wf, countOk, infoSpaceOk, Bool.and_eq_true, bne_iff_ne, ne_eq, beq_iff_eq] at h
  simp [classify, Instr.command, Instr.addr, Instr.data, h]

theorem wr6 (a : Option Half) (z : UnitSize) (n : Bool) (c : BitVec 7) (d : List Byte) :
    Statement (.wr6 a z n c d) := by
  intro h
  simp only [Instr.wf, countOk, infoSpaceOk, Bool.and_eq_true, bne_iff_ne, ne_eq, beq_iff_eq] at h
  simp [classify, Instr.command, Instr.addr, Instr.data, h]

theorem rd7 (a : Option Half) (z : UnitSize) (n : Bool) (c : BitVec 7) :
    Statement (.rd7 a z n c) := by
  intro h
  simp only [Instr.wf, countOk, infoSpaceOk, Bool.and_eq_true, bne_iff_ne, ne_eq, beq_iff_eq] at h
  simp [classify, Instr.command, Instr.addr, Instr.data, h]

theorem wr7 (a : Option Half) (z : UnitSize) (n : Bool) (c : BitVec 7) (d : List Byte) :
    Statement (.wr7 a z n c d) := by
  intro h
  simp only [Instr.wf, countOk, infoSpaceOk, Bool.and_eq_true, bne_iff_ne, ne_eq, beq_iff_eq] at h
  simp [classify, Instr.command, Instr.addr, Instr.data, h]

end Sys2Proof.Laws.ClassifyCommand

namespace Sys2Proof.Laws.DataLength

/-- The instruction carries the data bytes its command word declares (R81). -/
def Statement (i : Instr) : Prop := i.wf = true → i.data.length = i.command.dataLength

theorem badCount (w ia : Bool) (sp : Space) (a : Option Half) (z : UnitSize) (n : Bool) :
    Statement (.badCount w ia sp a z n) := by
  intro _; simp [Instr.data, Instr.command, Command.dataLength, dataBytes]

theorem rsv5 (w ia : Bool) (a : Option Half) (z : UnitSize) (n : Bool) (c : BitVec 7) (d : List Byte) :
    Statement (.rsv5 w ia a z n c d) := by
  intro h
  simp only [Instr.wf, Bool.and_eq_true, beq_iff_eq] at h
  simpa [Instr.data, Instr.command, Command.dataLength] using h.2

theorem iaBadWidth8 (w : Bool) (sp : Space) (a : Option Half) (n : Bool) (c : BitVec 7) (d : List Byte) :
    Statement (.iaBadWidth8 w sp a n c d) := by
  intro h
  simp only [Instr.wf, Bool.and_eq_true, beq_iff_eq] at h
  simpa [Instr.data, Instr.command, Command.dataLength] using h.2

theorem iaBadWidth32 (w : Bool) (sp : Space) (a : Option Half) (n : Bool) (c : BitVec 7) (d : List Byte) :
    Statement (.iaBadWidth32 w sp a n c d) := by
  intro h
  simp only [Instr.wf, Bool.and_eq_true, beq_iff_eq] at h
  simpa [Instr.data, Instr.command, Command.dataLength] using h.2

theorem iaBadWidth64 (w : Bool) (sp : Space) (a : Option Half) (n : Bool) (c : BitVec 7) (d : List Byte) :
    Statement (.iaBadWidth64 w sp a n c d) := by
  intro h
  simp only [Instr.wf, Bool.and_eq_true, beq_iff_eq] at h
  simpa [Instr.data, Instr.command, Command.dataLength] using h.2

theorem iard (sp : Space) (a : Option Half) (n : Bool) (c : BitVec 7) :
    Statement (.iard sp a n c) := by
  intro _; simp [Instr.data, Instr.command, Command.dataLength, dataBytes]

theorem iawr (sp : Space) (a : Option Half) (n : Bool) (c : BitVec 7) (d : List Byte) :
    Statement (.iawr sp a n c d) := by
  intro h
  simp only [Instr.wf, Bool.and_eq_true, beq_iff_eq] at h
  simpa [Instr.data, Instr.command, Command.dataLength] using h.2

theorem rd0 (a : Option Half) (z : UnitSize) (n : Bool) (c : BitVec 7) :
    Statement (.rd0 a z n c) := by
  intro _; simp [Instr.data, Instr.command, Command.dataLength, dataBytes]

theorem wr0 (a : Option Half) (z : UnitSize) (n : Bool) (c : BitVec 7) (d : List Byte) :
    Statement (.wr0 a z n c d) := by
  intro h
  simp only [Instr.wf, Bool.and_eq_true, beq_iff_eq] at h
  simpa [Instr.data, Instr.command, Command.dataLength] using h.2

theorem datax1 (w : Bool) (a : Option Half) (z : UnitSize) (n : Bool) (c : BitVec 7) (d : List Byte) :
    Statement (.datax1 w a z n c d) := by
  intro h
  simp only [Instr.wf, Bool.and_eq_true, beq_iff_eq] at h
  simpa [Instr.data, Instr.command, Command.dataLength] using h.2

theorem datax3 (w : Bool) (a : Option Half) (z : UnitSize) (n : Bool) (c : BitVec 7) (d : List Byte) :
    Statement (.datax3 w a z n c d) := by
  intro h
  simp only [Instr.wf, Bool.and_eq_true, beq_iff_eq] at h
  simpa [Instr.data, Instr.command, Command.dataLength] using h.2

theorem rd2 (a : Option Half) (z : UnitSize) (n : Bool) (c : BitVec 7) :
    Statement (.rd2 a z n c) := by
  intro _; simp [Instr.data, Instr.command, Command.dataLength, dataBytes]

theorem wr2 (a : Option Half) (z : UnitSize) (n : Bool) (c : BitVec 7) (d : List Byte) :
    Statement (.wr2 a z n c d) := by
  intro h
  simp only [Instr.wf, Bool.and_eq_true, beq_iff_eq] at h
  simpa [Instr.data, Instr.command, Command.dataLength] using h.2

theorem rd4 (a : Option Half) (z : UnitSize) (n : Bool) (c : BitVec 7) :
    Statement (.rd4 a z n c) := by
  intro _; simp [Instr.data, Instr.command, Command.dataLength, dataBytes]

theorem wr4 (a : Option Half) (z : UnitSize) (n : Bool) (c : BitVec 7) (d : List Byte) :
    Statement (.wr4 a z n c d) := by
  intro h
  simp only [Instr.wf, Bool.and_eq_true, beq_iff_eq] at h
  simpa [Instr.data, Instr.command, Command.dataLength] using h.2

theorem rd6 (a : Option Half) (z : UnitSize) (n : Bool) (c : BitVec 7) :
    Statement (.rd6 a z n c) := by
  intro _; simp [Instr.data, Instr.command, Command.dataLength, dataBytes]

theorem wr6 (a : Option Half) (z : UnitSize) (n : Bool) (c : BitVec 7) (d : List Byte) :
    Statement (.wr6 a z n c d) := by
  intro h
  simp only [Instr.wf, Bool.and_eq_true, beq_iff_eq] at h
  simpa [Instr.data, Instr.command, Command.dataLength] using h.2

theorem rd7 (a : Option Half) (z : UnitSize) (n : Bool) (c : BitVec 7) :
    Statement (.rd7 a z n c) := by
  intro _; simp [Instr.data, Instr.command, Command.dataLength, dataBytes]

theorem wr7 (a : Option Half) (z : UnitSize) (n : Bool) (c : BitVec 7) (d : List Byte) :
    Statement (.wr7 a z n c d) := by
  intro h
  simp only [Instr.wf, Bool.and_eq_true, beq_iff_eq] at h
  simpa [Instr.data, Instr.command, Command.dataLength] using h.2

end Sys2Proof.Laws.DataLength
end

