-- ==== Sys2Proof/Laws/Step.lean ====
section
/-! SUPPORT. What one step can do, said once, and what no command changes. -/

namespace Sys2Proof.Machine

/-- What a step that answers a next state did: the update context moved alone; a payload was taken; it
ended; it was stopped by a framing error; or a well-formed command was executed after the update
context's steps, with the cursor behind it. -/
theorem step_cases {s t : State} (h : step s = .next t) :
    (s.request ≠ .unbooted ∧ (s.request ≠ .hung → s.resetRequested = false → s.inbox = [] ∧
        s.request = .idle) ∧ t = s.updateStep Config.env) ∨
    (∃ p rest, s.request = .idle ∧ s.resetRequested = false ∧ s.inbox = p :: rest ∧
      t = (s.interleave Config.env).takePayload p rest) ∨
    (s.request = .busy ∧ s.resetRequested = false ∧ s.cursor ≤ s.payload.length ∧
      ((s.payload.drop s.cursor = [] ∧ t = (s.interleave Config.env).finishPayload) ∨
       (∃ e, decode (s.payload.drop s.cursor) = .error e ∧ e ≠ .noBytes ∧
          t = (s.interleave Config.env).stop (framingError e)) ∨
       (∃ i len, decode (s.payload.drop s.cursor) = .ok (i, len) ∧ i.wf = true ∧
          exec i ((s.interleave Config.env).advance len) = .next t))) := by
  unfold step at h
  cases hq : s.request <;> rw [hq] at h <;> simp only at h
  · cases h
  · cases hr : s.resetRequested <;> rw [hr] at h <;> simp only [Bool.false_eq_true, if_false, if_true] at h
    · cases hi : s.inbox <;> rw [hi] at h <;> simp only at h <;> cases h
      · left; simp
      · right; left; exact ⟨_, _, rfl, rfl, rfl, rfl⟩
    · cases h; left; simp
  · cases hr : s.resetRequested <;> rw [hr] at h <;> simp only [Bool.false_eq_true, if_false, if_true] at h
    · right; right
      unfold requestStep at h
      split at h
      · cases h
      · next hc =>
        refine ⟨rfl, rfl, by omega, ?_⟩
        split at h
        · next hd => cases h; left; exact ⟨decode_noBytes.1 hd, rfl⟩
        · next e hne hd => cases h; right; left; exact ⟨e, hd, hne, rfl⟩
        · next i len hd => right; right; exact ⟨i, len, hd, decode_wf hd, h⟩
    · cases h; left; simp
  · cases h; left; simp

theorem State.busEffect_fields {P : Bus → Prop} {s t : State} (h : s.busEffect P t) :
    t.regions = s.regions ∧ t.strictEnd = s.strictEnd ∧ t.info = s.info ∧ t.space2 = s.space2 ∧
      t.space4 = s.space4 ∧ t.space7 = s.space7 ∧ t.payload = s.payload ∧ t.cursor = s.cursor ∧
      t.resetRequested = s.resetRequested ∧ t.inbox = s.inbox ∧ t.outbox = s.outbox ∧
      t.draws = s.draws := by
  obtain ⟨b, bs, k, q, -, -, rfl⟩ := h
  simp

end Sys2Proof.Machine
end

