-- ==== Sys2Proof/Tests/Slice0.lean ====
section
/-! SUPPORT. The model's own tests: ill-formed instructions refused, command words and results taken from
the vectors of spec/95_test_vectors.md (each test names its vector), and for every statement that has
hypotheses a theorem that shows a state and operands that meet them. -/

set_option Elab.async false

namespace Sys2Proof.Tests

open Machine

/-! ### The fixture EXCFG (95_test_vectors.md section 2) -/

def exInfo (s : Nat) (digit : Byte) : InfoInit :=
  { cookie := BitVec.ofNat 16 (0x5A00 + s), memsizes := 0, memranges := 0
    name := #v[0x53, 0x50, 0x41, 0x43, 0x45, digit, 0x20, 0x20] }

def exBoard : Board :=
  { name := #v[0x46, 0x49, 0x58, 0x42, 0x4F, 0x41, 0x52, 0x44]
    fpgaSize := 0, fpgaPins := 0, ioPorts := 2, ioWidth := 48, portWidth := 24
    clockLow := 0, clockHigh := 0, instanceStride0 := 4, instanceStride1 := 0x40
    registerStride0 := 0x100, registerStride1 := 4 }

def region (name : String) (base : BitVec 16) (size : BitVec 32) (update write read : Bool) :
    RegionDecl := ⟨⟨name, base, size, update, write, read⟩, []⟩

def exRegions : List RegionDecl :=
  [region "status" 0x0200 4 true false false, region "gpio" 0x1000 0x500 true false false]

def exIdent : List Byte :=
  [0x46, 0x49, 0x58, 0x54, 0x55, 0x52, 0x45, 0x2D, 0x49, 0x44, 0x45, 0x4E, 0x54, 0x2D, 0x31, 0x36]

def exModule : ModuleDesc := ⟨3, 0, 1, 2, 0x1000, 5, 0, 0x1F⟩

/-- EXCFG. -/
def exParams : BootParams :=
  { regions := exRegions
    info := #v[exInfo 0 0x30, exInfo 1 0x31, exInfo 2 0x32, exInfo 3 0x33, exInfo 4 0x34,
      exInfo 5 0x35, exInfo 6 0x36, exInfo 7 0x37]
    image2 := [0x10, 0x11, 0x12, 0x13, 0x14, 0x15, 0x16, 0x17], size4 := 64, ident7 := exIdent
    board := exBoard, modules := [exModule], pins := List.replicate 48 ⟨0, 0, 0, 3⟩
    strictEnd := false }

/-- EXCFG with more regions. -/
def withRegions (more : List RegionDecl) : BootParams :=
  { exParams with regions := exRegions ++ more }

/-- The region "fix" of the vectors marked +FIX. -/
def fix : RegionDecl := region "fix" 0x3000 0x10 false true true

/-- EXCFG just after boot. -/
def ex : State := State.boot exParams

/-- EXCFG +FIX. -/
def exFix : State := State.boot (withRegions [fix])

/-- The fixture's handlers: hooks and the write handler touch nothing; the read handler returns
`0xA0000000 + offset + k`; every draw is 0xEE. -/
def exEnv : Env :=
  { readHandler := fun _ _ off n _ =>
      .finish (Vector.ofFn fun k : Fin n => BitVec.ofNat 32 (0xA0000000 + off + k)) 0
    writeHandler := fun _ _ _ _ _ => .finish () 0
    handlerLimit := fun _ => 8
    updateHook := fun _ _ _ => .finish () 0
    transportByte := fun _ _ => 0xEE
    updateSteps := fun _ => 0
    updatePatience := fun _ => 1000 }

/-- EXCFG's state while a payload is processed. -/
def exBusy (p : List Byte) : State := { ex with request := .busy, payload := p }

/-- The three error counters. -/
def ctr (s : State) : List Half := [statsWord s.stats 0, statsWord s.stats 1, statsWord s.stats 2]

/-- The state an outcome holds, if it is a next state. -/
def nextOf (o : Host.Outcome State Fault Refusal) : Option State :=
  match o with
  | .next t => some t
  | .fault _ => none
  | .refused _ => none

def ctrAfter (i : Instr) (s : State) : Option (List Half) := (nextOf (exec i s)).map ctr

def replyAfter (i : Instr) (s : State) : Option (List Byte) := (nextOf (exec i s)).map (·.reply)

/-! ### WellFormed: each check refuses an ill-formed term -/

theorem test_wf_count_zero : (Instr.rd0 none .u32 false 0).wf = false := by decide
theorem test_wf_info_space_five : (Instr.iard .s5 none false 1).wf = false := by decide
theorem test_wf_badwidth_space_five :
    (Instr.iaBadWidth32 false .s5 none false 1 []).wf = false := by decide
theorem test_wf_write_too_short :
    (Instr.wr0 none .u32 false 1 [0x01, 0x02, 0x03]).wf = false := by decide
theorem test_wf_write_too_long :
    (Instr.wr4 none .u16 false 1 [0x01, 0x02, 0x03]).wf = false := by decide
theorem test_wf_read_with_data :
    (Instr.datax1 false none .u8 false 1 [0x01]).wf = false := by decide
theorem test_wf_rsv5_count_zero : (Instr.rsv5 false false none .u8 false 0 []).wf = false := by decide
theorem test_wf_iawr_length : (Instr.iawr .s0 none false 2 [0x01, 0x02]).wf = false := by decide
theorem test_wf_good : (Instr.wr0 none .u32 false 1 [0x01, 0x02, 0x03, 0x04]).wf = true := by decide

/-! ### Command words, bit by bit from the field table of R80: W A I SSS ZZ N CCCCCCC -/

theorem test_word_badcount : decodeTableWord 16 0b0000000010000000 =
    some (.badCount false false .s0 none .u8 true) := by decide +kernel
theorem test_word_rsv5 : decodeTableWord 16 0b0111010100000001 =
    some (.rsv5 false true (some 0) .u16 false 1 []) := by decide +kernel
theorem test_word_iabad8 : decodeTableWord 16 0b0110000000000001 =
    some (.iaBadWidth8 false .s0 (some 0) false 1 []) := by decide +kernel
theorem test_word_iabad32 : decodeTableWord 16 0b0010001000000001 =
    some (.iaBadWidth32 false .s0 none false 1 []) := by decide +kernel
theorem test_word_iabad64 : decodeTableWord 16 0b0111111111111111 =
    some (.iaBadWidth64 false .s7 (some 0) true 127 []) := by decide +kernel
theorem test_word_iard : decodeTableWord 16 0b0010010110000100 =
    some (.iard .s1 none true 4) := by decide +kernel
theorem test_word_iawr : decodeTableWord 16 0b1110000100000001 =
    some (.iawr .s0 (some 0) false 1 [0, 0]) := by decide +kernel
theorem test_word_rd0 : decodeTableWord 16 0b0000001010000010 =
    some (.rd0 none .u32 true 2) := by decide +kernel
theorem test_word_wr0 : decodeTableWord 16 0b1100001000000001 =
    some (.wr0 (some 0) .u32 false 1 [0, 0, 0, 0]) := by decide +kernel
theorem test_word_datax1 : decodeTableWord 16 0b1000010000000001 =
    some (.datax1 true none .u8 false 1 [0]) := by decide +kernel
theorem test_word_datax3 : decodeTableWord 16 0b0100111000000001 =
    some (.datax3 false (some 0) .u32 false 1 []) := by decide +kernel
theorem test_word_rd2 : decodeTableWord 16 0b0000100110000010 =
    some (.rd2 none .u16 true 2) := by decide +kernel
theorem test_word_wr2 : decodeTableWord 16 0b1100100000000001 =
    some (.wr2 (some 0) .u8 false 1 [0]) := by decide +kernel
theorem test_word_rd4 : decodeTableWord 16 0b0101000000000100 =
    some (.rd4 (some 0) .u8 false 4) := by decide +kernel
theorem test_word_wr4 : decodeTableWord 16 0b1101001110000001 =
    some (.wr4 (some 0) .u64 true 1 [0, 0, 0, 0, 0, 0, 0, 0]) := by decide +kernel
theorem test_word_rd6 : decodeTableWord 16 0b0101100110000011 =
    some (.rd6 (some 0) .u16 true 3) := by decide +kernel
theorem test_word_wr6 : decodeTableWord 16 0b1101100100000001 =
    some (.wr6 (some 0) .u16 false 1 [0, 0]) := by decide +kernel
theorem test_word_rd7 : decodeTableWord 16 0b0001110001111111 =
    some (.rd7 none .u8 false 127) := by decide +kernel
theorem test_word_wr7 : decodeTableWord 16 0b1101110100000001 =
    some (.wr7 (some 0) .u16 false 1 [0, 0]) := by decide +kernel

/-! ### Framing (vectors F1 to F5, BC3, X3b) -/

theorem test_frame_lone_byte : decode [0xAA] = .error .trailingByte := by decide
theorem test_frame_address_cut : decode [0x01, 0x42, 0x00] = .error .truncatedAddress := by decide
theorem test_frame_data_cut : decode [0x01, 0xC2, 0x00, 0x09, 0x01, 0x02] =
    .error .truncatedData := by decide
theorem test_frame_before_count : decode [0x80, 0x40] = .error .truncatedAddress := by decide

/-! ### One step of each instruction -/

/-- WR0d. -/
theorem test_badcount : ctrAfter (.badCount true false .s0 (some 0x2000) .u32 false) ex =
    some [1, 0, 0] := by decide +kernel
/-- R5b. -/
theorem test_rsv5 : ctrAfter (.rsv5 false true (some 0) .u16 false 1 []) ex = some [1, 0, 0] := by
  decide +kernel
/-- IA3. -/
theorem test_iabad8 : ctrAfter (.iaBadWidth8 false .s0 (some 0) false 1 []) ex = some [1, 0, 0] := by
  decide +kernel
/-- IA3b. -/
theorem test_iabad32 : ctrAfter (.iaBadWidth32 false .s0 (some 0) false 1 []) ex = some [1, 0, 0] := by
  decide +kernel
/-- IA3c. -/
theorem test_iabad64 : ctrAfter (.iaBadWidth64 false .s0 (some 0) false 1 []) ex = some [1, 0, 0] := by
  decide +kernel
/-- IA1. -/
theorem test_iard_record : replyAfter (.iard .s0 (some 0) true 8) ex =
    some [0x00, 0x5A, 0x00, 0x00, 0x00, 0x00, 0x00, 0x00, 0x53, 0x50, 0x41, 0x43, 0x45, 0x30, 0x20,
      0x20] := by decide +kernel
/-- IA7b. -/
theorem test_iard_range : ctrAfter (.iard .s0 (some 0x0F) true 1) ex = some [0, 1, 0] := by
  decide +kernel
/-- IA8. -/
theorem test_iawr_pointer :
    (nextOf (exec (.iawr .s0 (some 4) true 3 [0x11, 0x11, 0x22, 0x22, 0x33, 0x33]) ex)).map
      (fun t => (t.infoRecord .s0).bytes) =
    some [0x00, 0x5A, 0x00, 0x00, 0x00, 0x00, 0x22, 0x22, 0x53, 0x50, 0x41, 0x43, 0x45, 0x30, 0x20,
      0x20] := by decide +kernel
/-- IA13. -/
theorem test_iawr_odd : (nextOf (exec (.iawr .s0 (some 7) false 1 [0xAB, 0xCD]) ex)).map
    (fun t => (t.infoRecord .s0).pointer) = some 0xAB00 := by decide +kernel
/-- RD0b. -/
theorem test_rd0_id_block : (ex.read0 exEnv (some 0x0100) .u32 true 4).reply =
    [0xFE, 0xCA, 0xAA, 0x55, 0x48, 0x4F, 0x53, 0x54, 0x4D, 0x4F, 0x54, 0x32, 0x00, 0x04, 0x00,
      0x00] := by decide +kernel
/-- RD0c. -/
theorem test_rd0_no_increment : (ex.read0 exEnv (some 0x0100) .u8 false 3).reply =
    [0xFE, 0xFE, 0xFE] := by decide +kernel
/-- WR0a. -/
theorem test_wr0_status :
    (ex.write0 exEnv (some 0x0200) .u32 false 1 [0x01, 0x00, 0x00, 0x00]).rfWord 0x0200 = 1#32 := by
  decide +kernel
/-- B13b. -/
theorem test_wr0_range : ctr (ex.read0 exEnv (some 0xFFFC) .u32 true 2) = [0, 1, 0] := by
  decide +kernel
/-- DX1. -/
theorem test_datax1 : ctrAfter (.datax1 false (some 0) .u32 false 1 []) ex = some [0, 1, 0] := by
  decide +kernel
/-- DX3. -/
theorem test_datax3 : ctrAfter (.datax3 true (some 0) .u8 false 1 [0x00]) ex = some [0, 1, 0] := by
  decide +kernel
/-- RD2b. -/
theorem test_rd2 : replyAfter (.rd2 (some 0) .u32 true 2) ex =
    some [0x10, 0x11, 0x12, 0x13, 0x14, 0x15, 0x16, 0x17] := by decide +kernel
/-- RD2f. -/
theorem test_rd2_range : ctrAfter (.rd2 (some 7) .u16 true 1) ex = some [0, 1, 0] := by decide +kernel
/-- WR2. -/
theorem test_wr2 : ctrAfter (.wr2 (some 0) .u8 false 1 [0x00]) ex = some [0, 0, 1] := by decide +kernel
/-- RD4. -/
theorem test_rd4 : replyAfter (.rd4 (some 0) .u32 true 8) ex = some (List.replicate 32 0) := by
  decide +kernel
/-- WR4a. -/
theorem test_wr4 : (nextOf (exec (.wr4 (some 0x10) .u16 true 2 [0xAA, 0xBB, 0xCC, 0xDD]) ex)).map
    (fun t => (t.space4.drop 0x0F).take 6) = some [0x00, 0xAA, 0xBB, 0xCC, 0xDD, 0x00] := by
  decide +kernel
/-- WR4c. -/
theorem test_wr4_range : ctrAfter (.wr4 (some 0x39) .u64 true 1 [1, 2, 3, 4, 5, 6, 7, 8]) ex =
    some [0, 1, 0] := by decide +kernel
/-- RD6c. -/
theorem test_rd6_draws : (ex.read6 exEnv (some 4) .u32 true 1).reply = [0x00, 0x00, 0xEE, 0xEE] := by
  decide +kernel
/-- RD6d and RD6e. -/
theorem test_rd6_edge : (ex.read6 exEnv (some 0x11) .u8 true 2).reply = [0xEE, 0x00] := by
  decide +kernel
/-- WR6a. -/
theorem test_wr6_scratch : (nextOf (exec (.wr6 (some 0x16) .u16 false 1 [0x34, 0x12]) ex)).map
    (fun t => (statsWord t.stats 11, t.resetRequested)) = some (0x1234, false) := by decide +kernel
/-- WR6g: word 14 = 0x0100. -/
theorem test_wr6_reset :
    (nextOf (exec (.wr6 (some 0x1C) .u16 false 1 [0x00, 0x01]) { exBusy [1] with reply := [2] })).map
      (fun t => (t.resetRequested, t.request, t.outbox)) = some (true, .idle, []) := by decide +kernel
/-- RD7d. -/
theorem test_rd7 : replyAfter (.rd7 (some 8) .u64 true 1) ex =
    some [0x49, 0x44, 0x45, 0x4E, 0x54, 0x2D, 0x31, 0x36] := by decide +kernel
/-- WR7. -/
theorem test_wr7 : ctrAfter (.wr7 (some 0) .u16 false 1 [0x41, 0x41]) ex = some [0, 0, 1] := by
  decide +kernel
/-- CT1: a counter at 0xFFFF wraps. -/
theorem test_counter_wraps : ctrAfter (.datax1 false (some 0) .u32 false 1 [])
    { ex with stats := setStatsWord ex.stats 1 0xFFFF } = some [0, 0, 0] := by decide +kernel

/-! ### The register bus -/

/-- B4: a transfer that ends at the region's end reaches the handler. -/
theorem test_bus_exact_end : (exFix.read0 exEnv (some 0x3004) .u32 true 3).reply =
    [0x04, 0x00, 0x00, 0xA0, 0x05, 0x00, 0x00, 0xA0, 0x06, 0x00, 0x00, 0xA0] := by decide +kernel
/-- B4L: with the legacy test it does not. -/
theorem test_bus_legacy_end : ({ exFix with strictEnd := true }.read0 exEnv (some 0x3004) .u32 true 3).reply =
    List.replicate 12 0 := by decide +kernel
/-- B3: a transfer past the region's end is direct. -/
theorem test_bus_straddle : (exFix.read0 exEnv (some 0x3000) .u32 true 5).reply =
    List.replicate 20 0 := by decide +kernel
/-- B7: N = 0, 64-bit units: two calls of two words. -/
theorem test_bus_repeat : (exFix.read0 exEnv (some 0x3000) .u64 false 2).bus.calls =
    [.read 2 0 2, .read 2 0 2] := by decide +kernel
/-- B9: N = 0: two calls of one word. -/
theorem test_bus_write_repeat :
    (exFix.write0 exEnv (some 0x3008) .u32 false 2 [1, 2, 3, 4, 5, 6, 7, 8]).bus.calls =
      [.write 2 8 [0x04030201], .write 2 8 [0x08070605]] := by decide +kernel
/-- B9w8: byte units are direct, and the last unit stays. -/
theorem test_bus_sub_word : (exFix.write0 exEnv (some 0x3000) .u8 false 4 [1, 2, 3, 4]).rfWord 0x3000 =
    4#32 := by decide +kernel
/-- B10r: a nonzero status is counted, and the words are sent. -/
theorem test_bus_status :
    let E := { exEnv with readHandler := fun _ _ _ n _ => .finish (Vector.replicate n 0xCAFEF00D) 7 }
    let t := exFix.read0 E (some 0x3000) .u32 true 1
    (t.reply, ctr t) = ([0x0D, 0xF0, 0xFE, 0xCA], [0, 1, 0]) := by decide +kernel
/-- B11a and B11d: overlapping regions; the first that contains the transfer is called. -/
theorem test_bus_overlap :
    let s := State.boot (withRegions [region "A" 0x3000 0x10 false false true,
      region "B" 0x3000 0x20 false false true])
    ((s.read0 exEnv (some 0x3000) .u32 true 1).bus.calls,
      (s.read0 exEnv (some 0x300C) .u32 true 2).bus.calls) = ([.read 2 0 1], [.read 3 12 2]) := by
  decide +kernel
/-- REG1: the ninth registration fails. -/
theorem test_registration_full :
    ((State.boot (withRegions ((List.range 7).map fun k =>
      region "r" (BitVec.ofNat 16 (0x4000 + 16 * k)) 16 false false true))).regions.map (·.base)) =
      [0x0200, 0x1000, 0x4000, 0x4010, 0x4020, 0x4030, 0x4040, 0x4050] := by decide +kernel
/-- UP1: a pass calls the present hooks in order. -/
theorem test_update_pass :
    (Bus.updateRun exEnv [⟨"a", 0, 4, true, false, false⟩, ⟨"b", 8, 4, false, false, false⟩,
      ⟨"c", 16, 4, true, false, false⟩] 6 ex.bus).calls = [.update 0, .update 2] := by decide +kernel

/-! ### Boot -/

/-- DS2 and DS4: a module descriptor, the sentinel's tag, the last pin and the byte after it. -/
theorem test_boot_descriptors :
    ((List.range 13).map (fun k => ex.rfByte (0x0440 + k)), ex.rfWord 0x06BC, ex.rfWord 0x06C0) =
      ([0x03, 0x00, 0x01, 0x02, 0x00, 0x10, 0x05, 0x00, 0x1F, 0x00, 0x00, 0x00, 0x00], 0x03000000#32,
        0#32) := by decide +kernel

/-- The four ill-formed configurations of section 3.5. -/
theorem test_boot_refuses :
    [bootChecksPass { exParams with modules := List.replicate 37 exModule },
      bootChecksPass { exParams with modules := [{ exModule with gtag := 0 }] },
      bootChecksPass { exParams with pins := List.replicate 47 ⟨0, 0, 0, 3⟩ },
      bootChecksPass { exParams with ident7 := List.replicate 8 0 },
      bootChecksPass exParams] = [false, false, false, false, true] := by decide +kernel

/-- R7, R224: 144 pins are accepted, 145 are not. -/
theorem test_boot_max_pins :
    let withPins := fun n => { exParams with
      pins := List.replicate n ⟨0, 0, 0, 3⟩, board := { exBoard with ioWidth := BitVec.ofNat 32 n } }
    (bootChecksPass (withPins 144), bootChecksPass (withPins 145)) = (true, false) := by decide +kernel

/-- From the state after reset, an instruction placed at the fetch point runs. -/
theorem test_fetch_word_runs : ∃ t, step (State.reset.withFetchWord 16 0x5D88) = .next t := ⟨_, rfl⟩

/-! ### Witnesses: the hypotheses of the statements can be met -/

/-- EXCFG after boot meets the invariant. -/
theorem ex_inv : ex.Inv :=
  { canonical := by decide +kernel, tableFits := by decide +kernel, owners := by decide +kernel
    position := by decide +kernel, hookHere := by decide +kernel, cursor := by decide +kernel
    idleEmpty := by decide +kernel, stopped := by decide +kernel, trigger := by decide +kernel }

/-- EXCFG after a reset request. -/
def exReset : State :=
  { ex with resetRequested := true, stats := setStatsWord ex.stats 14 1 }

theorem exReset_inv : exReset.Inv :=
  { canonical := by decide +kernel, tableFits := by decide +kernel, owners := by decide +kernel
    position := by decide +kernel, hookHere := by decide +kernel, cursor := by decide +kernel
    idleEmpty := by decide +kernel, stopped := by decide +kernel, trigger := by decide +kernel }

theorem witness_DecodeOfEncode :
    (Instr.iawr .s7 (some 6) true 1 [0x34, 0x12]).wf = true ∧
      (Instr.wr0 none .u8 false 127 (List.replicate 127 0)).wf = true := by decide +kernel

theorem witness_EncodeOfDecode :
    decode [0x01, 0xCC, 0x00, 0x00, 0x00, 0xFF] =
      .ok (.datax3 true (some 0) .u8 false 1 [0x00], 5) := by decide +kernel

/-- Three, four, five and six bytes of a write that needs six: the clauses of the framing statement at
their boundaries. -/
theorem witness_FramingByRemainingBytes :
    decode [0x01, 0xC1, 0x00] = .error .truncatedAddress ∧
      decode [0x01, 0xC1, 0x00, 0x00] = .error .truncatedData ∧
      decode [0x01, 0xC1, 0x00, 0x00, 0x07] = .error .truncatedData ∧
      decode [0x01, 0xC1, 0x00, 0x00, 0x07, 0x08] =
        .ok (.wr0 (some 0) .u16 false 1 [0x07, 0x08], 6) := by decide +kernel

theorem witness_StepRunsDecodedCommand :
    let s := exBusy [0x88, 0x5D, 0x00, 0x00]
    s.request = .busy ∧ s.resetRequested = false ∧ s.cursor ≤ s.payload.length ∧
      decode (s.payload.drop s.cursor) = .ok (.rd7 (some 0) .u16 true 8, 4) := by decide +kernel

/-- Vector F4 after its read: a lone byte is left. -/
theorem witness_FramingErrorEndsPayload :
    let s := { exBusy [0x01, 0x42, 0x00, 0x04, 0xBB] with cursor := 4, reply := [2, 0, 0, 0] }
    s.request = .busy ∧ s.resetRequested = false ∧ s.cursor ≤ s.payload.length ∧
      decode (s.payload.drop s.cursor) = .error .trailingByte ∧
      DecodeError.trailingByte ≠ .noBytes := by decide +kernel

theorem witness_EndOfPayloadSendsOneFrame :
    let s := { exBusy [0x01, 0x42, 0x00, 0x04] with cursor := 4, reply := [2, 0, 0, 0] }
    s.request = .busy ∧ s.resetRequested = false ∧ s.cursor = s.payload.length := by decide +kernel

theorem witness_IdleTakesOldestPayload :
    let s := { ex with inbox := [[0xAA], [0x01, 0x42, 0x00, 0x04]] }
    s.request = .idle ∧ s.resetRequested = false ∧
      s.inbox = [0xAA] :: [[0x01, 0x42, 0x00, 0x04]] := by decide +kernel

theorem witness_ResetRequestStopsRequestContext :
    exReset.Inv ∧ exReset.request ≠ .unbooted ∧ exReset.resetRequested = true ∧
      ∃ t, step exReset = .next t :=
  ⟨exReset_inv, by decide +kernel, rfl, _, rfl⟩

/-- A rejected write is a command that is consumed; its step answers a next state. -/
theorem witness_CommandIsConsumedWhole :
    let s := exBusy [0x01, 0xC8, 0x00, 0x00, 0x00, 0x01, 0x48, 0x00, 0x00]
    s.request = .busy ∧ s.resetRequested = false ∧
      decode (s.payload.drop s.cursor) = .ok (.wr2 (some 0) .u8 false 1 [0x00], 5) ∧
      ∃ t, step s = .next t ∧ t.resetRequested = false :=
  ⟨rfl, rfl, by decide +kernel, _, rfl, rfl⟩

theorem witness_EffectsNeverChangePayloads :
    let s := exBusy [0x01, 0x4A, 0x00, 0x00]
    ∃ t, step s = .next t ∧ s.request = .busy ∧ t.request ≠ .idle :=
  ⟨_, rfl, rfl, by decide +kernel⟩

theorem witness_BootedMachineNeverStops : ex.Inv ∧ ex.request ≠ .unbooted :=
  ⟨ex_inv, by decide +kernel⟩

theorem witness_StepKeepsInvariant : ex.Inv ∧ ∃ t, step ex = .next t := ⟨ex_inv, _, rfl⟩

theorem witness_ReadOnlyStateNeverChanges :
    ∃ t, step (exBusy [0x01, 0xC8, 0x00, 0x00, 0x00]) = .next t := ⟨_, rfl⟩

theorem witness_InfoRecordsAreStaticButThePointer :
    ∃ t, step (exBusy [0x01, 0xE1, 0x06, 0x00, 0x34, 0x12]) = .next t := ⟨_, rfl⟩

/-- A data command, and a write of another space's info area, leave space 0's pointer. -/
theorem witness_AddressPointerContract :
    (∃ t, exec (.rd2 none .u16 true 2) ex = .next t) ∧
      (∀ a n c d, Instr.rd2 none .u16 true 2 ≠ .iawr .s0 a n c d) ∧
      (∃ t, exec (.iawr .s1 (some 6) false 1 [0x10, 0x00]) ex = .next t) ∧
      (∀ a n c d, Instr.iawr .s1 (some 6) false 1 [0x10, 0x00] ≠ .iawr .s0 a n c d) :=
  ⟨⟨_, rfl⟩, by simp, ⟨_, rfl⟩, by simp⟩

theorem witness_ScratchBlockChangesOnlyByCommand :
    (∃ t, exec (.rd4 (some 0) .u8 false 1) ex = .next t) ∧
      ∀ a z n c d, Instr.rd4 (some 0) .u8 false 1 ≠ .wr4 a z n c d := ⟨⟨_, rfl⟩, by simp⟩

theorem witness_ResetRequestRaisedByWr6NeverCleared :
    (∃ t, exec (.wr6 (some 0x1C) .u16 false 1 [0x01, 0x00]) ex = .next t ∧
      t.resetRequested = true) ∧
      ∃ t, step exReset = .next t ∧ exReset.resetRequested = true :=
  ⟨⟨_, rfl, by decide +kernel⟩, _, rfl, rfl⟩

theorem witness_UnownedBytesChangeByWr0Only :
    (∃ t, exec (.rd0 (some 0x2000) .u32 true 1) ex = .next t) ∧
      (∀ a z n c d, Instr.rd0 (some 0x2000) .u32 true 1 ≠ .wr0 a z n c d) ∧
      ex.unowned 0x01FF ∧ ex.unowned 0x0204 ∧ ex.unowned 0x1500 :=
  ⟨⟨_, rfl⟩, by simp, by decide +kernel, by decide +kernel, by decide +kernel⟩

/-- The status region of EXCFG. -/
def exStatus : Region := ⟨"status", 0x0200, 4, true, false, false⟩

/-- EXCFG while a payload of two reads is processed. -/
def exP1Busy : State := exBusy [0x01, 0x42, 0x00, 0x04, 0x01, 0x42, 0x00, 0x01]

theorem exP1Busy_inv : exP1Busy.Inv :=
  { canonical := by decide +kernel, tableFits := by decide +kernel, owners := by decide +kernel
    position := by decide +kernel, hookHere := by decide +kernel, cursor := by decide +kernel
    idleEmpty := by decide +kernel, stopped := by decide +kernel, trigger := by decide +kernel }

/-- EXCFG with the update context somewhere else. -/
def exAt (u : UpdateContext) : State := { ex with bus := { ex.bus with update := u } }

/-- The fixture's environment with a hook that writes the last byte of its region. -/
def writingEnv : Env := { exEnv with updateHook := fun _ _ _ => .act (.write 3 0xFF) }

/-- A running hook that changes the last byte of its slice; and the end of a pass. -/
theorem witness_UpdateContextStaysInItsSlice :
    ((exAt ⟨0, some ⟨0, []⟩⟩).updateStep writingEnv).rfByte 0x0203 ≠
        (exAt ⟨0, some ⟨0, []⟩⟩).rfByte 0x0203 ∧
      (exAt ⟨2, none⟩).regions.length ≤ (exAt ⟨2, none⟩).bus.update.index := by decide +kernel

theorem witness_UpdatePassCallsEveryHookInOrder :
    (∀ draw region, OwnerCode.returns (exEnv.updateHook draw region)) ∧
      ex.bus.update = { index := 0, hook := none } :=
  ⟨fun _ _ => ⟨0, fun _ => ⟨by simp [exEnv], fun _ => ⟨_, _, rfl⟩⟩⟩, by decide +kernel⟩

/-- One error for each counter; the three clauses exclude each other by k. -/
theorem witness_ErrorCountersWrap :
    ErrorCode.trailingByte ∈ [ErrorCode.trailingByte, .truncatedAddress, .truncatedData, .badCount,
        .reservedSpace5, .infoAreaWidth] ∧
      ErrorCode.handlerStatus ∈ [ErrorCode.unsupportedSpace, .outOfRange, .handlerStatus] ∧
      ErrorCode.readOnlySpace = .readOnlySpace := by decide

/-- Spans that end one byte past each space: vectors IA7b, B13d, RD2f, WR4c, RD7c and a read of space 6 at
offset 31. -/
theorem witness_OutOfRangeCommandsOnlyCount :
    16 < ex.startAddress .s0 (some 0x0F) + span .u16 true 1 ∧
      65536 < ex.startAddress .s0 (some 0xFFFF) + span .u16 false 2 ∧
      ex.space2.length < ex.startAddress .s2 (some 7) + span .u16 true 1 ∧
      ex.space4.length < ex.startAddress .s4 (some 0x39) + span .u64 true 1 ∧
      32 < ex.startAddress .s6 (some 31) + span .u16 true 1 ∧
      ex.space7.length < ex.startAddress .s7 (some 9) + span .u64 true 1 ∧
      ([.iard .s0 (some 0x0F) true 1, .iawr .s0 (some 0x0F) true 1 [1, 2],
        .rd0 (some 0xFFFF) .u16 false 2, .wr0 (some 0xFFFF) .u16 false 2 [1, 2, 3, 4],
        .rd2 (some 7) .u16 true 1, .rd4 (some 0x39) .u64 true 1,
        .wr4 (some 0x39) .u64 true 1 [1, 2, 3, 4, 5, 6, 7, 8], .rd6 (some 31) .u16 true 1,
        .wr6 (some 31) .u16 true 1 [1, 2], .rd7 (some 9) .u64 true 1].all Instr.wf) = true := by
  decide +kernel

/-- Reads that end exactly at the end of spaces 2, 4 and 7. -/
theorem witness_SpaceReadsAppendUnits :
    ex.startAddress .s2 (some 0) + span .u64 false 3 ≤ ex.space2.length ∧
      ex.startAddress .s4 (some 0x38) + span .u64 true 1 ≤ ex.space4.length ∧
      ex.startAddress .s7 (some 8) + span .u64 true 1 ≤ ex.space7.length := by decide +kernel

/-- WR4b: the write ends exactly at `SIZE_4`. -/
theorem witness_Wr4StoresUnits :
    (Instr.wr4 (some 0x38) .u64 true 1 [1, 2, 3, 4, 5, 6, 7, 8]).wf = true ∧
      ex.startAddress .s4 (some 0x38) + span .u64 true 1 ≤ ex.space4.length := by decide +kernel

/-- Reads whose bytes lie at both edges of the transport words, offsets 5 to 6 and 17 to 18. -/
theorem witness_Rd6ReadsStoredBytesAndDraws :
    ex.startAddress .s6 (some 5) + span .u8 true 2 ≤ 32 ∧
      ex.startAddress .s6 (some 0x11) + span .u8 true 2 ≤ 32 ∧
      ex.startAddress .s6 (some 0x1E) + span .u16 true 1 ≤ 32 := by decide +kernel

/-- Both outcomes of a write of memory space 6: word 14 zero (WR6c) and nonzero (WR6d). -/
theorem witness_Wr6StoresUnitsAndTriggersReset :
    (Instr.wr6 (some 0x1C) .u16 false 1 [0x00, 0x00]).wf = true ∧
      (Instr.wr6 (some 0x1C) .u16 false 1 [0x01, 0x00]).wf = true ∧
      ex.startAddress .s6 (some 0x1C) + span .u16 false 1 ≤ 32 ∧
      (nextOf (exec (.wr6 (some 0x1C) .u16 false 1 [0x00, 0x00]) ex)).map
        (fun t => decide (statsWord t.stats 14 = 0#16)) = some true ∧
      (nextOf (exec (.wr6 (some 0x1C) .u16 false 1 [0x01, 0x00]) ex)).map
        (fun t => decide (statsWord t.stats 14 = 0#16)) = some false := by decide +kernel

/-- A read of the record's last two bytes, in a space without data (IA5, D25). -/
theorem witness_IardAppendsRecordUnits :
    (Instr.iard .s1 (some 0x0E) true 1).wf = true ∧ ex.startAddress .s1 (some 0x0E) + span .u16 true 1 ≤ 16 := by decide +kernel

theorem witness_IawrStoresPointerBytesOnly :
    (Instr.iawr .s0 (some 7) false 1 [0xAB, 0xCD]).wf = true ∧
      ex.startAddress .s0 (some 7) + span .u16 false 1 ≤ 16 := by decide +kernel

/-- A transfer no region contains, and one whose region has no handler (R107's example); both bus
operations then fall back. -/
theorem witness_BusFallsBackWithoutEffect :
    resolve ex.strictEnd ex.regions 0x0300 1 = none ∧
      (resolve ex.strictEnd ex.regions 0x0200 1).map (fun p => (p.1.read, p.1.write, p.2)) =
        some (false, false, 0) ∧
      (ex.busRead exEnv 0x0300 1).1 = .unmapped ∧ (ex.busRead exEnv 0x0200 1).1 = .noHandler ∧
      ([1, 2, 3, 4] : List Byte).length = 4 * 1 ∧
      (ex.busWrite exEnv 0x0200 (wordsOf [1, 2, 3, 4])).1 = .noHandler := by decide +kernel

/-- The last word of the register file (B13). -/
theorem witness_Rd0CompletesInEveryForm :
    ex.startAddress .s0 (some 0xFFFC) + span .u32 true 1 ≤ 65536 ∧ ex.unowned 0xFFFF := by
  decide +kernel

/-- The fixture's hooks write nothing, so they spare every byte. -/
theorem exEnv_hooksSpare (s : State) (x : Nat) : s.hooksSpare exEnv x :=
  fun _ _ _ _ _ _ _ _ h => nomatch h

/-- A hook that writes the last byte of the status register spares the first. -/
theorem writingEnv_hooksSpare : ex.hooksSpare writingEnv 0x0200 := by
  intro idx r hr _ draw seen off v h hx
  have hb : r.base.toNat ≠ 0x01FD := by
    have hm : r ∈ ex.regions := List.mem_of_getElem? hr
    have : ∀ r ∈ ex.regions, r.base.toNat ≠ 0x01FD := by decide +kernel
    exact this r hm
  simp only [writingEnv, OwnerMove.act.injEq, SliceAct.write.injEq] at h
  exact hb (by omega)

/-- RD0 of the status register, which a region with a hook covers (R43). -/
theorem witness_Rd0DirectAppendsRegisterFileBytes :
    (ex.startAddress .s0 (some 0x0200) + span .u32 false 1 ≤ 65536 ∧ ex.request ≠ .hung ∧
      ex.readsDirectly 0x0200 .u32 false 1 ∧ 0 < (1#7).toNat ∧ 3 < UnitSize.u32.bytes) ∧
      ex.hooksSpare exEnv 0x0203 ∧ ex.hooksSpare writingEnv 0x0200 :=
  ⟨by decide +kernel, exEnv_hooksSpare _ _, writingEnv_hooksSpare⟩

/-- An environment whose handlers never return. -/
def stuckEnv : Env :=
  { exEnv with readHandler := fun _ _ _ _ _ => .stuck, writeHandler := fun _ _ _ _ _ => .stuck }

/-- B4: the transfer ends at the region's end. The fixture's handler returns; one that never returns meets
the other clause. -/
theorem witness_Rd0HandlerOneCall :
    busUnit .u32 = true ∧ exFix.startAddress .s0 (some 0x3004) + span .u32 true 3 ≤ 65536 ∧
      resolve exFix.strictEnd exFix.regions 0x3004 3 = some (fix.region, 2) ∧
      fix.region.read = true ∧
      (Bus.runRead exEnv exFix.regions 2 fix.region 0 4 3 exFix.bus).1.isSome = true ∧
      (Bus.runRead stuckEnv exFix.regions 2 fix.region 0 4 3 exFix.bus).1 = none := by
  decide +kernel

theorem witness_Wr0HandlerOneCall :
    (busUnit .u64 = true ∧
      (Instr.wr0 (some 0x3008) .u64 true 1 [1, 2, 3, 4, 5, 6, 7, 8]).wf = true ∧
      exFix.startAddress .s0 (some 0x3008) + span .u64 true 1 ≤ 65536 ∧
      resolve exFix.strictEnd exFix.regions 0x3008 2 = some (fix.region, 2) ∧
      fix.region.write = true ∧
      (Bus.runWrite exEnv exFix.regions 2 fix.region 0 8 [1, 2] exFix.bus).1 = some ((), 0) ∧
      (Bus.runWrite stuckEnv exFix.regions 2 fix.region 0 8 [1, 2] exFix.bus).1 = none ∧
      exFix.unowned 0x3010) ∧
    exFix.hooksSpare exEnv 0x3008 ∧
    OwnerCode.writesNothing (exEnv.writeHandler 0 2 8 [1, 2]) :=
  ⟨by decide +kernel, exEnv_hooksSpare _ _, fun _ _ _ => by simp [exEnv]⟩

theorem exEnv_runRead (regions : List Region) (idx : Nat) (r : Region) (draw off n : Nat) (b : Bus) :
    (Bus.runRead exEnv regions idx r draw off n b).1.isSome = true := rfl

theorem exEnv_runWrite (regions : List Region) (idx : Nat) (r : Region) (draw off : Nat)
    (words : List Word) (b : Bus) :
    (Bus.runWrite exEnv regions idx r draw off words b).1.isSome = true := rfl

theorem witness_RepeatedUnitsCallHandlerCTimes :
    (busUnit .u32 = true ∧
      (Instr.wr0 (some 0x3008) .u32 false 2 [1, 2, 3, 4, 5, 6, 7, 8]).wf = true ∧
      exFix.startAddress .s0 (some 0x3008) + span .u32 false 2 ≤ 65536 ∧ exFix.request ≠ .hung ∧
      resolve exFix.strictEnd exFix.regions 0x3008 1 = some (fix.region, 2) ∧
      fix.region.read = true ∧ fix.region.write = true) ∧
    (∀ draw b, (Bus.runRead exEnv exFix.regions 2 fix.region draw 8 1 b).1.isSome = true) ∧
    ∀ draw words b,
      (Bus.runWrite exEnv exFix.regions 2 fix.region draw 8 words b).1.isSome = true :=
  ⟨by decide +kernel, fun _ _ => exEnv_runRead .., fun _ _ _ => exEnv_runWrite ..⟩

theorem witness_Wr0CompletesInEveryForm :
    (Instr.wr0 (some 0xFFFC) .u32 true 1 [1, 2, 3, 4]).wf = true ∧
      ex.startAddress .s0 (some 0xFFFC) + span .u32 true 1 ≤ 65536 ∧ ex.unowned 0xFFFB ∧
      ¬ (ex.startAddress .s0 (some 0xFFFC) ≤ 0xFFFB ∧
        0xFFFB < ex.startAddress .s0 (some 0xFFFC) + span .u32 true 1) := by decide +kernel

/-- DS5, a write of the IDROM, which no region covers; and a write of the status register, which a region with
a hook covers (R43, R151's example), beside the byte that one hook writes. -/
theorem witness_Wr0DirectStoresUnits :
    ((Instr.wr0 (some 0x0400) .u32 false 1 [7, 0, 0, 0]).wf = true ∧
      ex.startAddress .s0 (some 0x0400) + span .u32 false 1 ≤ 65536 ∧ ex.request ≠ .hung ∧
      Memory.wf ex.bus.rf = true ∧ ex.writesDirectly 0x0400 .u32 false 1 ∧
      ex.startAddress .s0 (some 0x0200) + span .u32 false 1 ≤ 65536 ∧
      ex.writesDirectly 0x0200 .u32 false 1) ∧
    ex.hooksSpare exEnv 0x0203 ∧ ex.hooksSpare exEnv 0x0404 ∧ ex.hooksSpare writingEnv 0x0200 :=
  ⟨by decide +kernel, exEnv_hooksSpare _ _, exEnv_hooksSpare _ _, writingEnv_hooksSpare⟩

theorem witness_SubWordUnitsNeverCallHandlers :
    UnitSize.u16.bits ≤ 16 ∧ UnitSize.u8.bits ≤ 16 ∧
      (∃ t, exec (.rd0 (some 0x3000) .u16 false 1) exFix = .next t) ∧
      ∃ t, exec (.wr0 (some 0x3000) .u8 false 1 [1]) exFix = .next t :=
  ⟨by decide, by decide, ⟨_, rfl⟩, _, rfl⟩

/-- Program P1, with N = 1. -/
def exP1 : State :=
  exBusy [0x81, 0xC2, 0x00, 0x08, 0x78, 0x56, 0x34, 0x12, 0x81, 0x42, 0x00, 0x08]

theorem witness_WriteThenReadRoundTrip :
    (exP1.request = .busy ∧ exP1.resetRequested = false ∧ exP1.cursor ≤ exP1.payload.length ∧
      Memory.wf exP1.bus.rf = true ∧
      (Instr.wr0 (some 0x0800) .u32 true 1 [0x78, 0x56, 0x34, 0x12]).wf = true ∧
      exP1.payload.drop exP1.cursor =
        encode (.wr0 (some 0x0800) .u32 true 1 [0x78, 0x56, 0x34, 0x12]) ++
          (encode (.rd0 (some 0x0800) .u32 true 1) ++ []) ∧
      (0x0800#16).toNat + span .u32 true 1 ≤ 65536 ∧
      exP1.writesDirectly (0x0800#16).toNat .u32 true 1 ∧
      exP1.readsDirectly (0x0800#16).toNat .u32 true 1) ∧
    ∀ x, 0x0800 ≤ x → x < 0x0800 + span .u32 true 1 → exP1.hooksSpare exEnv x :=
  ⟨by decide +kernel, fun _ _ _ => exEnv_hooksSpare _ _⟩

theorem witness_WaitingStepMovesUpdateContextOnly :
    ex.request = .idle ∧ ex.inbox = [] ∧ { ex with request := .hung }.request = .hung := by
  decide +kernel

/-- The table of REG1 holds 8 regions; EXCFG's holds 2. -/
theorem witness_BootRegistersTheFirstEight :
    (List.replicate 8 fix.region).length = 8 ∧ ex.regions.length < 8 := by decide +kernel

theorem witness_UnitsAreTouchedInOrder :
    1 < (2#7).toNat ∧ 3 < UnitSize.u32.bytes ∧ (2#7 : BitVec 7) ≠ 0#7 := by decide

theorem witness_BootWritesModuleDescriptors :
    bootChecksPass exParams = true ∧ exParams.modules[0]? = some exModule := by decide +kernel

theorem witness_BootWritesPinDescriptors :
    exParams.pins[47]? = some ⟨0, 0, 0, 3⟩ ∧ 0x0600 + 4 * 47 + 3 < 65536 := by decide +kernel

/-- DS4: the byte after the module array's sentinel and the byte after the last pin, next to the four
areas. -/
theorem witness_BootLeavesTheRestZero :
    bootChecksPass exParams = true ∧
      (∀ x ∈ [0x0110, 0x03FF, 0x0458, 0x05FF, 0x06C0],
        ¬ (0x0100 ≤ x ∧ x ≤ 0x010F) ∧ ¬ (0x0400 ≤ x ∧ x ≤ 0x043F) ∧
        ¬ (0x0440 ≤ x ∧ x < 0x0440 + 12 * (exParams.modules.length + 1)) ∧
        ¬ (0x0600 ≤ x ∧ x < 0x0600 + 4 * exParams.pins.length)) := by decide +kernel

/-- EXCFG is accepted; each check alone refuses a configuration: 37 modules, a module with GTag 0, 47 pins for
48, 145 pins, 15 bytes of IDENT_7. -/
theorem witness_BootStateOfTheOtherFields :
    (exParams.modules.length ≤ 36 ∧ (∀ m ∈ exParams.modules, m.gtag ≠ 0#8) ∧
      exParams.pins.length = exParams.board.ioWidth.toNat ∧ exParams.pins.length ≤ 144 ∧
      16 ≤ exParams.ident7.length) ∧
    ∀ c ∈ [{ exParams with modules := List.replicate 37 exModule },
        { exParams with modules := [{ exModule with gtag := 0 }] },
        { exParams with pins := List.replicate 47 ⟨0, 0, 0, 3⟩ },
        { exParams with pins := List.replicate 145 ⟨0, 0, 0, 3⟩
                        board := { exBoard with ioWidth := 145 } },
        { exParams with ident7 := exIdent.take 15 }],
      bootChecksPass c = false := by decide +kernel

/-- The status region's hook about to be called, and running, where it writes the last byte of its slice, stays
stuck or returns. -/
theorem witness_OwnerReadsSeeTheLastWrite :
    (Memory.wf ex.bus.rf = true ∧ ex.regions[0]? = some exStatus ∧ exStatus.update = true ∧
      ex.bus.update = { index := 0, hook := none } ∧
      (exAt ⟨0, some ⟨0, []⟩⟩).bus.update = { index := 0, hook := some ⟨0, []⟩ }) ∧
    writingEnv.updateHook 0 0 [] = .act (.write 3 0xFF) ∧ exEnv.updateHook 0 0 [] = .finish () 0 ∧
    { exEnv with updateHook := fun _ _ _ => .stuck }.updateHook 0 0 [] = .stuck ∧
    ex.hooksSpare exEnv 0x0203 :=
  ⟨by decide +kernel, rfl, rfl, rfl, exEnv_hooksSpare _ _⟩

/-- Every move of a handler's code: an access, a return, and none. -/
theorem witness_OwnerReadsSeeTheLastWrite_code :
    (fun _ => .act (.read 3) : OwnerCode Unit) [] = .act (.read 3) ∧
      (fun _ => .act (.keep [1]) : OwnerCode (Vector Word 1)) [] = .act (.keep [1]) ∧
      (fun _ => .finish () 7 : OwnerCode Unit) [] = .finish () 7 ∧
      (fun _ => .stuck : OwnerCode Unit) [] = .stuck := ⟨rfl, rfl, rfl, rfl⟩

/-- A schedule in which the update context moves at every third point. -/
theorem witness_InterleavingsAreTheFairOnes :
    ∀ d, ∃ d', d ≤ d' ∧ 0 < (fun k : Nat => if k % 3 = 0 then 2 else 0) d' :=
  fun d => ⟨3 * d, by omega, by simp⟩

theorem witness_BothContextsMakeProgress :
    exP1Busy.Inv ∧ exP1Busy.request ≠ .unbooted ∧ exP1Busy.request = .busy :=
  ⟨exP1Busy_inv, by decide +kernel, rfl⟩

/-! ### Handlers and hooks that read -/

/-- A read handler that gives back the four bytes it reads of its slice. -/
def copyEnv : Env :=
  { exEnv with
    readHandler := fun _ _ off n seen =>
      if seen.length < 4 then .act (.read (off + seen.length))
      else .finish (Vector.replicate n ((wordsOf seen.flatten).headD 0)) 0 }

/-- R102, R72: the handler sees what a byte write before left in its slice. -/
theorem test_handler_reads_last_write :
    ((exFix.write0 copyEnv (some 0x3009) .u8 false 1 [0xAB]).read0 copyEnv (some 0x3008) .u32 true
      1).reply = [0x00, 0xAB, 0x00, 0x00] := by decide +kernel

/-- R245: with its patience at 2, the update context moves at the third point. -/
theorem test_patience :
    (List.range 6).map (stepsAt { exEnv with updatePatience := fun _ => 2 }) = [0, 0, 1, 0, 0, 1] := by
  decide +kernel

end Sys2Proof.Tests
end

section
/-! Proofs of the statements about the info-area table and about the rest of the state after boot. -/

namespace Sys2Proof.Machine

/-! ### The info-area table (R30, R36, R37) -/

theorem State.infoRecord_of_info_eq {s t : State} (h : t.info = s.info) (sp : Space) :
    t.infoRecord sp = s.infoRecord sp := by
  unfold State.infoRecord; rw [h]

/-- A command leaves a space's record as it was, unless it is an info-area write of that space, which
replaces the record's address pointer (R195). -/
theorem exec_infoRecord {i : Instr} {s t : State} (h : exec i s = .next t) (sp : Space) :
    t.infoRecord sp = s.infoRecord sp ∨
      ∃ a n c d p, i = .iawr sp a n c d ∧ t.infoRecord sp = { s.infoRecord sp with pointer := p } := by
  have busOnly : ∀ {u}, s.busEffect (fun _ => True) u → u.infoRecord sp = s.infoRecord sp := by
    intro u hu
    obtain ⟨-, -, hinfo, -⟩ := State.busEffect_fields hu
    exact State.infoRecord_of_info_eq hinfo sp
  cases exec_effect_of_next h with
  | pointer sp' a n c d p hi =>
    rw [State.setInfoRecord_infoRecord]
    by_cases hsp : sp = sp'
    · subst hsp
      exact .inr ⟨a, n, c, d, p, hi, if_pos rfl⟩
    · exact .inl (if_neg hsp)
  | read0 => exact .inl (busOnly (State.space0Read_busOnly ..))
  | write0 => exact .inl (busOnly (State.busEffect_of_write (State.space0Write_busOnly ..)))
  | _ => exact .inl rfl

/-- A step changes a space's record in its address pointer at most, and never space 5's record: no
well-formed command writes that one (R86, R192). -/
theorem step_infoRecord {s t : State} (h : step s = .next t) (sp : Space) :
    t.infoRecord sp = s.infoRecord sp ∨
      sp ≠ .s5 ∧ ∃ p, t.infoRecord sp = { s.infoRecord sp with pointer := p } := by
  obtain ⟨-, -, rfl⟩ | ⟨p, rest, -, -, -, rfl⟩ |
    ⟨-, -, -, ⟨-, rfl⟩ | ⟨e, -, -, rfl⟩ | ⟨i, len, -, hwf, hexec⟩⟩ := step_cases h
  · exact .inl rfl
  · exact .inl rfl
  · exact .inl (State.infoRecord_of_info_eq (by simp) sp)
  · exact .inl (State.infoRecord_of_info_eq (by simp [State.stop]) sp)
  · obtain heq | ⟨a, n, c, d, p, rfl, heq⟩ := exec_infoRecord hexec sp
    · exact .inl heq
    · have hsp : sp ≠ .s5 := by
        rintro rfl; simp [Instr.wf, infoSpaceOk] at hwf
      exact .inr ⟨hsp, p, heq⟩

/-- Settles O19: by what one step does to a record (`step_infoRecord`). -/
theorem infoRecordsAreStaticButThePointer : Obligations.InfoRecordsAreStaticButThePointer := by
  refine ⟨fun s t h => ⟨fun sp => ?_, ?_⟩, fun E s => State.updateStep_info E s⟩
  · obtain heq | ⟨-, p, heq⟩ := step_infoRecord h sp <;> rw [heq]
  · obtain heq | ⟨hne, -⟩ := step_infoRecord h .s5
    · exact heq
    · exact absurd rfl hne

/-! ### The state after boot (R280, R281) -/

theorem State.boot_infoRecord (c : BootParams) (sp : Space) :
    (State.boot c).infoRecord sp = InfoRecord.boot (c.info.get (spaceIndex sp)) := by
  simp [State.infoRecord, Vector.get_eq_getElem]

/-- Every word of space 6 is 0 while all its bytes are. -/
theorem statsWord_replicate_zero (k : Nat) : statsWord (Vector.replicate 32 0#8) k = 0#16 := by
  have hbyte (a : Nat) : statsByte (Vector.replicate 32 0#8) a = 0#8 := by
    rw [statsByte, Vector.toList_replicate, List.getD_eq_getElem?_getD,
      List.getElem?_getD_replicate_default_eq]
  rw [statsWord, hbyte, hbyte]
  decide

/-- The checks of R280 step 5, as conditions on the configuration. -/
theorem bootChecksPass_iff (c : BootParams) :
    bootChecksPass c = true ↔
      c.modules.length ≤ 36 ∧ (∀ m ∈ c.modules, m.gtag ≠ 0#8) ∧
        c.pins.length = c.board.ioWidth.toNat ∧ c.pins.length ≤ 144 ∧ 16 ≤ c.ident7.length := by
  rw [show 144 = Config.maxPins from rfl]
  simp [bootChecksPass, and_assoc]

theorem step_of_unbooted {s : State} (h : s.request = .unbooted) :
    step s = .refused .illFormedConfiguration := by
  unfold step; rw [h]

/-- Settles O56: the fields as `State.boot` sets them, and acceptance by `bootChecksPass_iff`. -/
theorem bootStateOfTheOtherFields : Obligations.BootStateOfTheOtherFields := by
  intro c s accepted
  have hacc : bootChecksPass c = true ↔ accepted := bootChecksPass_iff c
  refine ⟨fun sp => ?_, fun k _ => ?_, State.boot_bus_update c, State.boot_payload c,
    State.boot_cursor c, State.boot_reply c, hacc, fun h => ?_, fun h => ?_⟩
  · simp only [s, State.boot_infoRecord]
    exact ⟨rfl, rfl, rfl, rfl, rfl⟩
  · simp only [s, State.boot_stats, statsWord_replicate_zero]
  · rw [State.boot_request, if_pos (hacc.2 h)]
  · apply step_of_unbooted
    rw [State.boot_request, if_neg (mt hacc.1 h)]

end Sys2Proof.Machine
end

section
/-! Proofs of the statements about the register bus and about the owners' code (40_bus.md). -/

namespace Sys2Proof.Machine

/-! ### Containment and resolution (R104 to R106) -/

theorem Region.contains_inclusive_iff (r : Region) (a n : Nat) :
    r.contains false a n = true ↔
      r.base.toNat ≤ a ∧ a + 4 * n ≤ r.base.toNat + r.size.toNat := by
  simp [Region.contains]

theorem Region.contains_strict_iff (r : Region) (a n : Nat) :
    r.contains true a n = true ↔
      r.base.toNat ≤ a ∧ a + 4 * n < r.base.toNat + r.size.toNat := by
  simp [Region.contains]

/-- Settles O36: the two tests, of which `≤` and `<` differ on equality alone. -/
theorem containmentIsInclusive : Obligations.ContainmentIsInclusive := by
  intro r a n
  refine ⟨Region.contains_inclusive_iff r a n, Region.contains_strict_iff r a n, ?_⟩
  rw [Ne, Bool.eq_iff_iff, Region.contains_inclusive_iff, Region.contains_strict_iff]
  omega

/-- Settles O37: what `resolve` finds, by `resolve_eq_some` and `resolve_eq_none`. -/
theorem resolutionIsFirstMatch : Obligations.ResolutionIsFirstMatch :=
  fun _ _ _ _ => ⟨fun _ _ => resolve_eq_some, resolve_eq_none⟩

/-! ### Bus operations without a handler (R107, R108, R110) -/

section
variable {E : Env} {s : State} {a n : Nat} {words : List Word} {r : Region} {i : Nat}

theorem State.busRead_of_unmapped (h : resolve s.strictEnd s.regions a n = none) :
    s.busRead E a n = (.unmapped, s) := by
  simp only [State.busRead, h]

theorem State.busRead_of_mapped (h : resolve s.strictEnd s.regions a n = some (r, i)) :
    s.busRead E a n = if r.read then s.callRead E r i a n else (.noHandler, s) := by
  simp only [State.busRead, h]

theorem State.busWrite_of_unmapped (h : resolve s.strictEnd s.regions a words.length = none) :
    s.busWrite E a words = (.unmapped, s) := by
  simp only [State.busWrite, h]

theorem State.busWrite_of_mapped (h : resolve s.strictEnd s.regions a words.length = some (r, i)) :
    s.busWrite E a words = if r.write then s.callWrite E r i a words else (.noHandler, s) := by
  simp only [State.busWrite, h]

/-- A handler that was called gives neither `Unmapped` nor `NoHandler`. -/
theorem BusReply.ofResult_called {α β : Type} (f : α → β) (o : Option (α × Nat)) :
    ¬ (BusReply.ofResult f o = .unmapped ∨ BusReply.ofResult f o = .noHandler) := by
  cases o <;> simp [BusReply.ofResult]

/-- A bus read gives `Unmapped` or `NoHandler` only when it reaches no read handler. -/
theorem State.servedDirectly_of_busRead
    (h : (s.busRead E a n).1 = .unmapped ∨ (s.busRead E a n).1 = .noHandler) :
    s.servedDirectly (·.read) a n := by
  rintro ⟨r, i⟩ hres
  rw [State.busRead_of_mapped hres] at h
  by_contra hread
  rw [if_pos (by simpa using hread)] at h
  exact BusReply.ofResult_called _ _ h

/-- A bus write gives `Unmapped` or `NoHandler` only when it reaches no write handler. -/
theorem State.servedDirectly_of_busWrite
    (h : (s.busWrite E a words).1 = .unmapped ∨ (s.busWrite E a words).1 = .noHandler) :
    s.servedDirectly (·.write) a words.length := by
  rintro ⟨r, i⟩ hres
  rw [State.busWrite_of_mapped hres] at h
  by_contra hwrite
  rw [if_pos (by simpa using hwrite)] at h
  exact BusReply.ofResult_called _ _ h

end

/-- Settles O38: by the bus operations' equations, and the direct transfers of R110. -/
theorem busFallsBackWithoutEffect : Obligations.BusFallsBackWithoutEffect := by
  intro E s a n words
  refine ⟨State.busRead_of_unmapped, fun r i hres hread => ?_, State.busWrite_of_unmapped,
    fun r i hres hwrite => ?_, fun h => ?_, fun data hd h => ?_⟩
  · rw [State.busRead_of_mapped hres, hread]; rfl
  · rw [State.busWrite_of_mapped hres, hwrite]; rfl
  · have hdirect := State.readTransfer_direct (E := E) (State.servedDirectly_of_busRead h)
    exact ⟨hdirect, hdirect ▸ rfl⟩
  · have hserved := State.servedDirectly_of_busWrite h
    rw [wordsOf_length n data hd] at hserved
    have hdirect := State.writeTransfer_direct (E := E) hd hserved
    exact ⟨hdirect, hdirect ▸ rfl⟩

/-! ### One step of the update context, by its position and the hook's next move (R113, R240) -/

section
variable {E : Env} {regions : List Region} {b : Bus} {idx : Nat} {r : Region} {h : HookProgress}

theorem Bus.updateStep_of_end (hr : regions[b.update.index]? = none) :
    b.updateStep E regions = { b.newPass with turns := b.turns + 1 } := by
  simp only [Bus.updateStep, Bus.updateMove, hr]

theorem Bus.updateStep_of_turn (hr : regions[idx]? = some r)
    (hu : b.update = { index := idx, hook := none }) :
    b.updateStep E regions =
      { (if r.update then b.startHook idx else b.nextRegion) with turns := b.turns + 1 } := by
  simp only [Bus.updateStep, Bus.updateMove, hu, hr]

theorem Bus.updateStep_of_running (hr : regions[idx]? = some r)
    (hu : b.update = { index := idx, hook := some h }) :
    b.updateStep E regions = { b.hookStep E idx r h with turns := b.turns + 1 } := by
  simp only [Bus.updateStep, Bus.updateMove, hu, hr]

theorem Bus.hookStep_act {a : SliceAct} (hm : E.updateHook h.draw idx h.seen = .act a) :
    b.hookStep E idx r h =
      { b.act idx r a with
        update := { index := idx
                    hook := some ⟨h.draw, h.seen ++ [b.observe idx r a]⟩ } } := by
  simp only [Bus.hookStep, hm]

theorem Bus.hookStep_finish {st : Nat} (hm : E.updateHook h.draw idx h.seen = .finish () st) :
    b.hookStep E idx r h = b.nextRegion := by
  simp only [Bus.hookStep, hm]

theorem Bus.hookStep_stuck (hm : E.updateHook h.draw idx h.seen = .stuck) :
    b.hookStep E idx r h = b := by
  simp only [Bus.hookStep, hm]

end

/-! ### The end of a handler's run (R109, R114) -/

section
variable {α : Type} {E : Env} {regions : List Region} {idx : Nat} {r : Region} {code : OwnerCode α}
  {seen : List (List Byte)}

/-- A handler past its limit of accesses never returns. -/
theorem Bus.runCode_limit {a : SliceAct} (hm : code seen = .act a) (b : Bus) :
    Bus.runCode E regions idx r code 0 seen b = (none, b) := by
  simp only [Bus.runCode, hm]

theorem Bus.runCode_finish {v : α} {st : Nat} (hm : code seen = .finish v st) (k : Nat) (b : Bus) :
    Bus.runCode E regions idx r code k seen b = (some (v, st), b) := by
  cases k <;> simp only [Bus.runCode, hm]

theorem Bus.runCode_stuck (hm : code seen = .stuck) (k : Nat) (b : Bus) :
    Bus.runCode E regions idx r code k seen b = (none, b) := by
  cases k <;> simp only [Bus.runCode, hm]

end

/-! ### Every move of an owner's code -/

/-- A step of the update context is a step of the bus. -/
theorem State.updateStep_eq (E : Env) (s : State) :
    s.updateStep E = { s with bus := s.bus.updateStep E s.regions } := rfl

/-- Settles O57: move by move, by the equations of a hook's step and of a handler's run; an access is
`Bus.act_accessed`, and what interleaving points leave is `Bus.interleave_hooksSpare`. -/
theorem ownerReadsSeeTheLastWrite : Obligations.OwnerReadsSeeTheLastWrite := by
  intro E s r idx hwf
  refine ⟨fun hr hu hup => ?_, fun h hr hu => ⟨fun a hm => ?_, fun st hm => ?_, fun hm => ?_⟩,
    fun α code k seen => ⟨fun a hm => ⟨?_, Bus.runCode_limit hm _⟩,
      fun v st hm => Bus.runCode_finish hm k _, fun hm => Bus.runCode_stuck hm k _⟩,
    fun _ _ _ => rfl, fun _ _ _ => rfl, fun x hx => (Bus.interleave_hooksSpare hx).2⟩
  · rw [State.updateStep_eq, Bus.updateStep_of_turn hr hu, if_pos hup]
    rfl
  · refine ⟨_, _, Bus.act_accessed a hwf, ?_⟩
    rw [State.updateStep_eq, Bus.updateStep_of_running hr hu, Bus.hookStep_act hm]
  · rw [State.updateStep_eq, Bus.updateStep_of_running hr hu, Bus.hookStep_finish hm,
      Bus.nextRegion, hu]
  · rw [State.updateStep_eq, Bus.updateStep_of_running hr hu, Bus.hookStep_stuck hm]
  · exact ⟨_, _, Bus.act_accessed a (Bus.interleave_canonical hwf), Bus.runCode_act hm⟩

/-! ### A pass of the update context (R113) -/

/-- Some number of update steps brings the update context to `u`, and `calls` are the calls made on the
way, oldest first. -/
def Bus.leadsTo (E : Env) (regions : List Region) (b : Bus) (u : UpdateContext)
    (calls : List OwnerCall) : Prop :=
  ∃ k, (Bus.updateRun E regions k b).update = u ∧
    (Bus.updateRun E regions k b).calls = b.calls ++ calls

/-- The calls of a pass over regions with their indices: a call of each hook that is present. -/
def updateCalls (regions : List (Region × Nat)) : List OwnerCall :=
  (regions.filter fun p => p.1.update).map fun p => OwnerCall.update p.2

theorem updateCalls_cons (r : Region) (idx : Nat) (rest : List (Region × Nat)) :
    updateCalls ((r, idx) :: rest) = (if r.update then [.update idx] else []) ++ updateCalls rest := by
  cases hu : r.update <;> simp [updateCalls, hu]

theorem Bus.updateRun_add (E : Env) (regions : List Region) (j k : Nat) (b : Bus) :
    Bus.updateRun E regions (j + k) b = Bus.updateRun E regions k (Bus.updateRun E regions j b) := by
  induction j generalizing b with
  | zero => rw [Nat.zero_add]; rfl
  | succ j ih => rw [Nat.succ_add]; exact ih _

section
variable {E : Env} {regions : List Region} {b : Bus} {u v : UpdateContext} {cs ds : List OwnerCall}
  {idx : Nat} {r : Region}

theorem Bus.leadsTo_of_step (hu : (b.updateStep E regions).update = u)
    (hc : (b.updateStep E regions).calls = b.calls ++ cs) : b.leadsTo E regions u cs :=
  ⟨1, hu, hc⟩

theorem Bus.leadsTo_trans (h : b.leadsTo E regions u cs)
    (h' : ∀ b' : Bus, b'.update = u → b'.leadsTo E regions v ds) :
    b.leadsTo E regions v (cs ++ ds) := by
  obtain ⟨j, hu, hc⟩ := h
  obtain ⟨k, hv, hd⟩ := h' _ hu
  refine ⟨j + k, ?_, ?_⟩ <;> rw [Bus.updateRun_add]
  · exact hv
  · rw [hd, hc, List.append_assoc]

/-- A running hook that makes at most n more accesses returns, and its run makes no call. -/
theorem Bus.hook_leadsTo_nextRegion (hr : regions[idx]? = some r) {draw K : Nat}
    (hK : ∀ seen : List (List Byte), E.updateHook draw idx seen ≠ .stuck ∧
      (K ≤ seen.length → ∃ w st, E.updateHook draw idx seen = .finish w st))
    (n : Nat) (seen : List (List Byte)) (hn : K ≤ seen.length + n) {b : Bus}
    (hu : b.update = { index := idx, hook := some ⟨draw, seen⟩ }) :
    b.leadsTo E regions { index := idx + 1, hook := none } [] := by
  have hstep := Bus.updateStep_of_running (E := E) hr hu
  obtain ⟨hstuck, hfinish⟩ := hK seen
  cases hm : E.updateHook draw idx seen with
  | act a =>
    rw [Bus.hookStep_act hm] at hstep
    cases n with
    | zero =>
      obtain ⟨w, st, hf⟩ := hfinish hn
      cases hm.symm.trans hf
    | succ n =>
      have haccess : b.leadsTo E regions
          { index := idx, hook := some ⟨draw, seen ++ [b.observe idx r a]⟩ } [] :=
        Bus.leadsTo_of_step (by rw [hstep]) (by simp [hstep])
      exact Bus.leadsTo_trans haccess fun b' hu' =>
        Bus.hook_leadsTo_nextRegion hr hK n _ (by simp; omega) hu'
  | finish w st =>
    rw [Bus.hookStep_finish hm] at hstep
    exact Bus.leadsTo_of_step (by simp [hstep, Bus.nextRegion, hu]) (by simp [hstep, Bus.nextRegion])
  | stuck => exact absurd hm hstuck

variable (hret : ∀ draw region, OwnerCode.returns (E.updateHook draw region))
include hret

/-- A region's turn calls its hook, if it has one, and makes room for the next region. -/
theorem Bus.turn_leadsTo_nextRegion (hr : regions[idx]? = some r)
    (hu : b.update = { index := idx, hook := none }) :
    b.leadsTo E regions { index := idx + 1, hook := none }
      (if r.update then [.update idx] else []) := by
  have hstep := Bus.updateStep_of_turn (E := E) hr hu
  split <;> rename_i hup
  · rw [if_pos hup] at hstep
    have hcall : b.leadsTo E regions { index := idx, hook := some ⟨b.fresh, []⟩ } [.update idx] :=
      Bus.leadsTo_of_step (by simp [hstep, Bus.startHook]) (by simp [hstep, Bus.startHook])
    obtain ⟨K, hK⟩ := hret b.fresh idx
    exact Bus.leadsTo_trans hcall fun b' hu' =>
      Bus.hook_leadsTo_nextRegion hr hK K [] (by simp) hu'
  · rw [if_neg hup] at hstep
    exact Bus.leadsTo_of_step (by simp [hstep, Bus.nextRegion, hu]) (by simp [hstep, Bus.nextRegion])

/-- From region idx's turn the rest of the pass calls the hooks of the regions from there on. -/
theorem Bus.turns_leadTo_newPass (rest : List Region) (hrest : regions.drop idx = rest)
    (hu : b.update = { index := idx, hook := none }) :
    b.leadsTo E regions { index := 0, hook := none } (updateCalls (rest.zipIdx idx)) := by
  have hhead : regions[idx]? = rest.head? := by rw [← hrest, List.head?_drop]
  induction rest generalizing idx b with
  | nil =>
    have hstep := Bus.updateStep_of_end (E := E) (b := b) (by rw [hu]; exact hhead)
    exact Bus.leadsTo_of_step (by rw [hstep]; rfl) (by simp [hstep, Bus.newPass, updateCalls])
  | cons r rest ih =>
    have htail : regions.drop (idx + 1) = rest := by rw [← List.tail_drop, hrest, List.tail_cons]
    rw [List.zipIdx_cons, updateCalls_cons]
    exact Bus.leadsTo_trans (Bus.turn_leadsTo_nextRegion hret hhead hu) fun b' hu' =>
      ih htail hu' (by rw [← htail, List.head?_drop])

end

/-- Settles O25: the turns of all regions, from the first on. -/
theorem updatePassCallsEveryHookInOrder : Obligations.UpdatePassCallsEveryHookInOrder :=
  fun _ _ _ hret hu => Bus.turns_leadTo_newPass hret _ List.drop_zero hu

end Sys2Proof.Machine
end

section
/-! Proofs of the statements about the command word and the decoder (30_encoding.md, 41_codec.md). -/

namespace Sys2Proof

open Machine

/-! ### The fields of a command word as numbers (R83, R130) -/

theorem UnitSize.bytes_eq_two_pow_code (z : UnitSize) : z.bytes = 2 ^ z.code.toNat := by
  cases z <;> rfl

theorem Space.spaceIndex_val_eq_code (s : Space) : (spaceIndex s).val = s.code.toNat := by
  cases s <;> rfl

theorem getLsbD_eq_true_iff_div {n : Nat} (w : BitVec n) (i : Nat) :
    w.getLsbD i = true ↔ w.toNat / 2 ^ i % 2 = 1 := by
  rw [BitVec.getLsbD, Nat.testBit_eq_decide_div_mod_eq, decide_eq_true_iff]

theorem toNat_extractLsb'_eq_div {n : Nat} (w : BitVec n) (i len : Nat) :
    (w.extractLsb' i len).toNat = w.toNat / 2 ^ i % 2 ^ len := by
  rw [BitVec.extractLsb'_toNat, Nat.shiftRight_eq_div_pow]

theorem decodeWord_space_index (w : Half) :
    (spaceIndex (decodeWord w).space).val = w.toNat / 2 ^ 10 % 2 ^ 3 := by
  rw [Space.spaceIndex_val_eq_code, decodeWord, Space.code_ofCode, toNat_extractLsb'_eq_div]

theorem decodeWord_size_bytes (w : Half) :
    (decodeWord w).size.bytes = 2 ^ (w.toNat / 2 ^ 8 % 2 ^ 2) := by
  rw [UnitSize.bytes_eq_two_pow_code, decodeWord, UnitSize.code_ofCode, toNat_extractLsb'_eq_div]

theorem decodeWord_count_toNat (w : Half) : (decodeWord w).count.toNat = w.toNat % 2 ^ 7 := by
  rw [decodeWord, toNat_extractLsb'_eq_div, Nat.pow_zero, Nat.div_one]

/-- Settles O2: the flags are single bits of the word, and the codes of the space and of the unit size,
which lose nothing by `code_ofCode`, are runs of bits. -/
theorem commandWordFields : Obligations.CommandWordFields := by
  intro w
  exact ⟨getLsbD_eq_true_iff_div w 15, getLsbD_eq_true_iff_div w 14, getLsbD_eq_true_iff_div w 13,
    decodeWord_space_index w, decodeWord_size_bytes w,
    congrArg (8 * ·) (decodeWord_size_bytes w), getLsbD_eq_true_iff_div w 7,
    decodeWord_count_toNat w⟩

end Sys2Proof
end

section
/-! Proof of the statement about the dispatcher's unit addresses (42_dispatch.md). -/

namespace Sys2Proof.Machine

/-- Settles O49: the number of the touched bytes, each one's place in the order, the span by its
definition, and the set of them (`mem_touched_iff`), which needs at least one unit. -/
theorem unitsAreTouchedInOrder : Obligations.UnitsAreTouchedInOrder := by
  intro a z n c
  refine ⟨touched_length a z n c, fun i hi j hj => touched_getElem? hi hj, rfl, fun hc x => ?_⟩
  have hunits : 0 < c.toNat := BitVec.toNat_pos_of_ne_zero hc
  exact mem_touched_iff hunits

end Sys2Proof.Machine
end

section
/-! Proofs of the statements about the descriptors boot writes (44_descriptors.md). -/

namespace Sys2Proof.Machine

/-! ### Byte runs of the register file -/

/-- The register file holds these bytes from address a on. -/
def State.holdsBytes (s : State) (a : Nat) (bytes : List Byte) : Prop :=
  (List.range bytes.length).map (fun k => s.rfByte (a + k)) = bytes

theorem State.holdsBytes_of_getD {s : State} {a : Nat} {bytes : List Byte}
    (h : ∀ k < bytes.length, s.rfByte (a + k) = bytes.getD k 0#8) : s.holdsBytes a bytes := by
  refine List.ext_getElem (by simp) fun k _ hk => ?_
  simp [h k hk, List.getElem?_eq_getElem hk]

/-- Adjacent fields are read apart. -/
theorem State.holdsBytes_append (s : State) (a : Nat) (xs ys : List Byte) :
    s.holdsBytes a (xs ++ ys) ↔ s.holdsBytes a xs ∧ s.holdsBytes (a + xs.length) ys := by
  simp only [State.holdsBytes, List.length_append, List.range_add, List.map_append, List.map_map,
    Function.comp_def, Nat.add_assoc]
  exact ⟨fun h => List.append_inj h (by simp), fun ⟨hxs, hys⟩ => by rw [hxs, hys]⟩

/-- A u32 field is little-endian (R60). -/
theorem State.rfWord_of_holdsBytes {s : State} {a : Nat} {w : Word}
    (h : s.holdsBytes a (wordBytes w)) : s.rfWord a = w := by
  obtain ⟨h0, h1, h2, h3⟩ : s.rfByte a = byteOf w 0 ∧ s.rfByte (a + 1) = byteOf w 1 ∧
      s.rfByte (a + 2) = byteOf w 2 ∧ s.rfByte (a + 3) = byteOf w 3 := by
    simpa [State.holdsBytes, wordBytes, List.range_succ] using h
  rw [State.rfWord, h0, h1, h2, h3, le32_byteOf]

/-! ### The placed blocks after boot (R210) -/

theorem lastCell_place_inside {a k : Nat} {bs : List Byte} (hk : k < bs.length) :
    lastCell (place a bs) (a + k) = some (bs.getD k 0#8) := by
  rw [lastCell_place, if_pos (by omega), Nat.add_sub_cancel_left]

theorem lastCell_place_below {a x : Nat} (bs : List Byte) (hx : x < a) :
    lastCell (place a bs) x = none := by
  rw [lastCell_place, if_neg (by omega)]

/-- No later block reaches down to the ID block. -/
theorem State.boot_holds_idBlock (c : BootParams) :
    (State.boot c).holdsBytes 0x0100 idBlockBytes := by
  refine State.holdsBytes_of_getD fun k hk => ?_
  have hlt : k < 16 := hk
  have hrf : 0x0100 + k < Config.rfSize := by rw [Config.rfSize]; omega
  rw [State.rfByte, State.boot_bus_rf, bootRegisterFile_read c hrf,
    lastCell_place_below _ (by omega), lastCell_place_below _ (by omega),
    lastCell_place_below _ (by omega), lastCell_place_inside hk]
  rfl

/-- The header's 64 bytes end where the module array starts, so no later block reaches them. -/
theorem State.boot_holds_idrom (c : BootParams) :
    (State.boot c).holdsBytes 0x0400 (idromBytes c.board) := by
  refine State.holdsBytes_of_getD fun k hk => ?_
  have hlt : k < 64 := by rwa [idromBytes_length] at hk
  have hrf : 0x0400 + k < Config.rfSize := by rw [Config.rfSize]; omega
  rw [State.rfByte, State.boot_bus_rf, bootRegisterFile_read c hrf,
    lastCell_place_below _ (by omega), lastCell_place_below _ (by omega),
    lastCell_place_inside hk]
  rfl

/-! ### The ID block and the start of the IDROM header (R211, R213, R214) -/

/-- Settles O51: the two blocks boot places, read field by field. -/
theorem bootWritesIdBlock : Obligations.BootWritesIdBlock := by
  intro c
  have hid := State.boot_holds_idBlock c
  have hidrom := State.boot_holds_idrom c
  simp only [idBlockBytes, idromBytes, List.append_assoc, State.holdsBytes_append] at hid hidrom
  obtain ⟨hcookie, hname, hpointer⟩ := hid
  obtain ⟨htype, hmodules, hpins, -⟩ := hidrom
  exact ⟨State.rfWord_of_holdsBytes hcookie, hname, State.rfWord_of_holdsBytes hpointer, htype,
    State.rfWord_of_holdsBytes hmodules, State.rfWord_of_holdsBytes hpins⟩

end Sys2Proof.Machine
end

section
/-! Proof of the statement about what one step of the update context may touch (45_update_scheduler.md). -/

namespace Sys2Proof.Machine

/-! ### The byte a step changes (R102) -/

/-- An owner's access changes only a byte of its region and of the register file. -/
theorem Bus.covers_of_act_read_ne {idx : Nat} {r : Region} {b : Bus} {a : SliceAct} {x : Nat}
    (h : Memory.read (b.act idx r a).rf x ≠ Memory.read b.rf x) :
    r.covers x ∧ x < Config.rfSize := by
  cases a with
  | write off v =>
    simp only [Bus.act] at h
    split at h
    · next hreach =>
      obtain ⟨hoff, hrf⟩ := Region.reaches_iff.1 hreach
      have hx : x = r.base.toNat + off := by
        by_contra hne
        exact h (Memory.read_write_ne hne)
      exact ⟨⟨by omega, by omega⟩, by omega⟩
    · exact absurd rfl h
  | _ => exact absurd rfl h

/-- A step of the update context that changes a byte is an access of the running hook. -/
theorem Bus.covers_of_updateStep_read_ne {E : Env} {regions : List Region} {b : Bus} {x : Nat}
    (h : Memory.read (b.updateStep E regions).rf x ≠ Memory.read b.rf x) :
    ∃ r, regions[b.update.index]? = some r ∧ r.covers x ∧ x < Config.rfSize ∧
      b.update.hook.isSome = true := by
  obtain ⟨-, e⟩ | ⟨r, hr, ⟨_, a, hhook, -, e⟩ | ⟨-, e⟩ | ⟨-, e⟩ | ⟨-, -, e⟩ | ⟨-, -, e⟩⟩ :=
    Bus.updateStep_cases E regions b <;> rw [e] at h
  · exact absurd rfl h
  · obtain ⟨hcovers, hrf⟩ := Bus.covers_of_act_read_ne h
    exact ⟨r, hr, hcovers, hrf, by rw [hhook]; rfl⟩
  all_goals exact absurd rfl h

/-- Settles O24: a step of the update context is a step of the bus, which calls no handler
(`Bus.updateStep_handlerCalls`), changes only a byte of the running hook's slice, and past the last region
begins a new pass (`Bus.updateStep_of_end`). -/
theorem updateContextStaysInItsSlice : Obligations.UpdateContextStaysInItsSlice := by
  intro E s
  refine ⟨State.updateStep_eq E s, Bus.updateStep_handlerCalls E s.regions s.bus,
    fun x => Bus.covers_of_updateStep_read_ne, fun hend => ?_⟩
  rw [State.updateStep_eq, Bus.updateStep_of_end (List.getElem?_eq_none hend), Bus.newPass]

end Sys2Proof.Machine
end

section
/-! Proofs of the statements about encoding and decoding whole instructions (30_encoding.md, 42_dispatch.md
section 1). -/

namespace Sys2Proof

open Machine

/-! ### An instruction and its own command word (R81, R82, R86) -/

/-- A well-formed instruction is the class of its own command word, address field and data. -/
theorem Instr.classify_eq_self {i : Instr} (h : i.wf = true) :
    classify i.command i.addr i.data = i := by
  cases i with
  | badCount => exact Laws.ClassifyCommand.badCount _ _ _ _ _ _ h
  | rsv5 => exact Laws.ClassifyCommand.rsv5 _ _ _ _ _ _ _ h
  | iaBadWidth8 => exact Laws.ClassifyCommand.iaBadWidth8 _ _ _ _ _ _ h
  | iaBadWidth32 => exact Laws.ClassifyCommand.iaBadWidth32 _ _ _ _ _ _ h
  | iaBadWidth64 => exact Laws.ClassifyCommand.iaBadWidth64 _ _ _ _ _ _ h
  | iard => exact Laws.ClassifyCommand.iard _ _ _ _ h
  | iawr => exact Laws.ClassifyCommand.iawr _ _ _ _ _ h
  | rd0 => exact Laws.ClassifyCommand.rd0 _ _ _ _ h
  | wr0 => exact Laws.ClassifyCommand.wr0 _ _ _ _ _ h
  | datax1 => exact Laws.ClassifyCommand.datax1 _ _ _ _ _ _ h
  | datax3 => exact Laws.ClassifyCommand.datax3 _ _ _ _ _ _ h
  | rd2 => exact Laws.ClassifyCommand.rd2 _ _ _ _ h
  | wr2 => exact Laws.ClassifyCommand.wr2 _ _ _ _ _ h
  | rd4 => exact Laws.ClassifyCommand.rd4 _ _ _ _ h
  | wr4 => exact Laws.ClassifyCommand.wr4 _ _ _ _ _ h
  | rd6 => exact Laws.ClassifyCommand.rd6 _ _ _ _ h
  | wr6 => exact Laws.ClassifyCommand.wr6 _ _ _ _ _ h
  | rd7 => exact Laws.ClassifyCommand.rd7 _ _ _ _ h
  | wr7 => exact Laws.ClassifyCommand.wr7 _ _ _ _ _ h

/-- A well-formed instruction carries the data bytes its command word declares. -/
theorem Instr.data_length {i : Instr} (h : i.wf = true) : i.data.length = i.command.dataLength := by
  cases i with
  | badCount => exact Laws.DataLength.badCount _ _ _ _ _ _ h
  | rsv5 => exact Laws.DataLength.rsv5 _ _ _ _ _ _ _ h
  | iaBadWidth8 => exact Laws.DataLength.iaBadWidth8 _ _ _ _ _ _ h
  | iaBadWidth32 => exact Laws.DataLength.iaBadWidth32 _ _ _ _ _ _ h
  | iaBadWidth64 => exact Laws.DataLength.iaBadWidth64 _ _ _ _ _ _ h
  | iard => exact Laws.DataLength.iard _ _ _ _ h
  | iawr => exact Laws.DataLength.iawr _ _ _ _ _ h
  | rd0 => exact Laws.DataLength.rd0 _ _ _ _ h
  | wr0 => exact Laws.DataLength.wr0 _ _ _ _ _ h
  | datax1 => exact Laws.DataLength.datax1 _ _ _ _ _ _ h
  | datax3 => exact Laws.DataLength.datax3 _ _ _ _ _ _ h
  | rd2 => exact Laws.DataLength.rd2 _ _ _ _ h
  | wr2 => exact Laws.DataLength.wr2 _ _ _ _ _ h
  | rd4 => exact Laws.DataLength.rd4 _ _ _ _ h
  | wr4 => exact Laws.DataLength.wr4 _ _ _ _ _ h
  | rd6 => exact Laws.DataLength.rd6 _ _ _ _ h
  | wr6 => exact Laws.DataLength.wr6 _ _ _ _ _ h
  | rd7 => exact Laws.DataLength.rd7 _ _ _ _ h
  | wr7 => exact Laws.DataLength.wr7 _ _ _ _ _ h

theorem Instr.command_hasAddr (i : Instr) : i.command.hasAddr = i.addr.isSome := by
  cases i <;> rfl

theorem Command.headerLength_eq (c : Command) :
    c.headerLength = 2 + (if c.hasAddr then 2 else 0) := by
  cases h : c.hasAddr <;> simp [Command.headerLength, h]

/-- The length of R82. -/
theorem Command.length_eq (c : Command) :
    c.length = 2 + (if c.hasAddr then 2 else 0) +
      (if c.write then c.count.toNat * c.size.bytes else 0) := by
  rw [Command.length, Command.headerLength_eq, Command.dataLength, dataBytes]

theorem Instr.length_eq_command_length {i : Instr} (h : i.wf = true) :
    i.length = i.command.length := by
  rw [Instr.length, Instr.data_length h, Command.length]

/-! ### Decoding and encoding are each other's inverses (R81, R82, R141) -/

/-- Decoding the bytes of a well-formed instruction, whatever follows them. -/
theorem decode_encode_append {i : Instr} (h : i.wf = true) (rest : List Byte) :
    decode (encode i ++ rest) = .ok (i, i.length) := by
  have hdecode := decode_command i.command i.addr i.data rest i.command_hasAddr (Instr.data_length h)
  rw [Instr.classify_eq_self h, ← Instr.length_eq_command_length h] at hdecode
  simpa only [encode, List.append_assoc] using hdecode

/-- Settles O4: the decoder reads back the command word, the address field and the data
(`decode_command`), and these classify to the instruction (`Instr.classify_eq_self`). -/
theorem decodeOfEncode : Obligations.DecodeOfEncode := fun i rest h =>
  ⟨decode_encode_append h rest, by rw [Instr.length_eq_command_length h, Command.length_eq]⟩

theorem Instr.length_classify {c : Command} {addr : Option Half} {data : List Byte}
    (ha : c.hasAddr = addr.isSome) (hd : data.length = c.dataLength) :
    (classify c addr data).length = c.length := by
  rw [Instr.length_eq_command_length (classify_wf hd), classify_command ha]

theorem encode_classify {c : Command} {addr : Option Half} {data : List Byte}
    (ha : c.hasAddr = addr.isSome) (hd : data.length = c.dataLength) :
    encode (classify c addr data) = halfBytes (encodeWord c) ++ (addressBytes addr ++ data) := by
  rw [encode, classify_command ha, classify_addr, classify_data hd]

theorem encode_length {i : Instr} (h : i.wf = true) : (encode i).length = i.length := by
  rw [Instr.length_eq_command_length h, encode, List.length_append, List.length_append,
    halfBytes_length, addressBytes_length, Instr.data_length h, ← Instr.command_hasAddr,
    Command.length, Command.headerLength_eq, Nat.add_assoc]

/-- Settles O5: a successful decode splits the bytes it read into the instruction's command word, address
field and data (`decode_ok`). -/
theorem encodeOfDecode : Obligations.EncodeOfDecode := by
  intro bytes i len h
  have hwf := decode_wf h
  have hle := decode_length_le h
  obtain ⟨c, addr, data, rest, rfl, rfl, ha, hd, rfl⟩ := decode_ok h
  have hlen := Instr.length_classify ha hd
  refine ⟨hwf, hlen.symm, hle, ?_⟩
  have hbytes : halfBytes (encodeWord c) ++ (addressBytes addr ++ (data ++ rest)) =
      encode (classify c addr data) ++ rest := by
    rw [encode_classify ha hd]; simp only [List.append_assoc]
  rw [hbytes, List.take_left' ((encode_length hwf).trans hlen)]

/-! ### Framing by the number of bytes that remain (R141) -/

theorem le16_eq_ofNat (b0 b1 : Byte) : le16 b0 b1 = BitVec.ofNat 16 (b0.toNat + 256 * b1.toNat) := by
  apply BitVec.eq_of_toNat_eq
  have h0 := b0.isLt
  have h1 := b1.isLt
  rw [le16, BitVec.toNat_append, ← Nat.shiftLeft_add_eq_or_of_lt h0, Nat.shiftLeft_eq,
    BitVec.toNat_ofNat]
  omega

/-- The decoder after the command word, once the address field is taken. -/
theorem decode_of_takeAddress {b0 b1 : Byte} {rest more : List Byte} {addr : Option Half}
    (h : takeAddress (decodeWord (le16 b0 b1)).hasAddr rest = some (addr, more)) :
    decode (b0 :: b1 :: rest) =
      let c := decodeWord (le16 b0 b1)
      if more.length < c.dataLength then .error .truncatedData
      else .ok (classify c addr (more.take c.dataLength), c.length) := by
  simp only [decode, h]

theorem decode_of_takeAddress_none {b0 b1 : Byte} {rest : List Byte}
    (h : takeAddress (decodeWord (le16 b0 b1)).hasAddr rest = none) :
    decode (b0 :: b1 :: rest) = .error .truncatedAddress := by
  simp only [decode, h]

theorem takeAddress_of_short {rest : List Byte} (h : rest.length < 2) :
    takeAddress true rest = none := by
  match rest, h with
  | [], _ => rfl
  | [_], _ => rfl

/-- Settles O6: without an address field the data follow the command word; with one, they follow its two
bytes, which must be there. -/
theorem framingByRemainingBytes : Obligations.FramingByRemainingBytes := by
  refine ⟨rfl, fun _ => rfl, fun b0 b1 rest => ?_⟩
  intro c bytes hdr dlen
  have hc : decodeWord (le16 b0 b1) = c := by rw [le16_eq_ofNat]
  have hdlen : c.dataLength = dlen := rfl
  have hlen : c.length = hdr + dlen := Command.length_eq c
  cases ha : c.hasAddr with
  | false =>
    have hhdr : hdr = 2 := by simp only [hdr, ha]; rfl
    have hdec := decode_of_takeAddress (b0 := b0) (b1 := b1) (rest := rest) (more := rest)
      (addr := none) (by rw [hc, ha]; rfl)
    simp only [hc, hdlen, hlen] at hdec
    have hbytes : bytes.length = rest.length + 2 := rfl
    refine ⟨fun h => by omega, fun _ h => ?_, fun h => ?_⟩
    · exact hdec.trans (if_pos (by omega))
    · rw [hhdr] at hdec ⊢
      exact hdec.trans (if_neg (by omega))
  | true =>
    have hhdr : hdr = 4 := by simp only [hdr, ha]; rfl
    by_cases hshort : rest.length < 2
    · have hbytes : bytes.length = rest.length + 2 := rfl
      have hnone := decode_of_takeAddress_none (b0 := b0) (b1 := b1) (rest := rest)
        (by rw [hc, ha]; exact takeAddress_of_short hshort)
      exact ⟨fun _ => hnone, fun h => by omega, fun h => by omega⟩
    · obtain ⟨a0, a1, more, rfl⟩ : ∃ a0 a1 more, rest = a0 :: a1 :: more := by
        match rest, hshort with
        | a0 :: a1 :: more, _ => exact ⟨a0, a1, more, rfl⟩
        | [], h => exact absurd (by decide) h
        | [_], h => exact absurd (by simp) h
      have hdec := decode_of_takeAddress (b0 := b0) (b1 := b1) (rest := a0 :: a1 :: more)
        (more := more) (addr := some (le16 a0 a1)) (by rw [hc, ha]; rfl)
      simp only [hc, hdlen, hlen] at hdec
      have hbytes : bytes.length = more.length + 4 := rfl
      refine ⟨fun h => by omega, fun _ h => ?_, fun h => ?_⟩
      · exact hdec.trans (if_pos (by omega))
      · rw [hhdr, le16_eq_ofNat] at hdec
        rw [hhdr]
        exact hdec.trans (if_neg (by omega))

end Sys2Proof
end

section
/-! Proofs of the statements about the opcode map (30_encoding.md sections 3 and 4). -/

namespace Sys2Proof

open Machine

/-! ### The rows of the opcode table, field by field (R80, R86) -/

/-- The fields of a masked command word, from those of the word and of the mask. -/
def Command.masked (c m : Command) : Command where
  write    := c.write && m.write
  hasAddr  := c.hasAddr && m.hasAddr
  infoArea := c.infoArea && m.infoArea
  space    := Space.ofCode (c.space.code &&& m.space.code)
  size     := UnitSize.ofCode (c.size.code &&& m.size.code)
  incr     := c.incr && m.incr
  count    := c.count &&& m.count

theorem decodeWord_and (w m : Half) : decodeWord (w &&& m) = (decodeWord w).masked (decodeWord m) := by
  simp only [decodeWord, Command.masked, BitVec.getLsbD_and, BitVec.extractLsb'_and,
    Space.code_ofCode, UnitSize.code_ofCode]

/-- What a row of R86 asks of the fields of a command: a value where it asks for one, and whether C = 0. -/
structure RowFields where
  mnemonic  : Mnemonic
  write     : Option Bool
  infoArea  : Option Bool
  space     : Option Space
  size      : Option UnitSize
  zeroCount : Bool

/-- The row's mask: every bit of a field the row asks about. -/
def RowFields.mask (f : RowFields) : Command where
  write    := f.write.isSome
  hasAddr  := false
  infoArea := f.infoArea.isSome
  space    := if f.space.isSome then .s7 else .s0
  size     := if f.size.isSome then .u64 else .u8
  incr     := false
  count    := if f.zeroCount then 127#7 else 0#7

/-- The row's pattern: the values asked for, every other field 0. -/
def RowFields.pattern (f : RowFields) : Command where
  write    := f.write.getD false
  hasAddr  := false
  infoArea := f.infoArea.getD false
  space    := f.space.getD .s0
  size     := f.size.getD .u8
  incr     := false
  count    := 0#7

def RowFields.row (f : RowFields) : OpcodeRow :=
  ⟨f.mnemonic, encodeWord f.mask, encodeWord f.pattern⟩

/-- The command has the fields the row asks for. -/
def RowFields.accepts (f : RowFields) (c : Command) : Bool :=
  f.write.all (· == c.write) && f.infoArea.all (· == c.infoArea) && f.space.all (· == c.space) &&
    f.size.all (· == c.size) && (!f.zeroCount || c.count == 0#7)

theorem Space.ofCode_masked (s : Space) (want : Option Space) :
    Space.ofCode (s.code &&& (if want.isSome then Space.s7 else .s0).code) = want.getD .s0 ↔
      want.all (· == s) = true := by
  cases want with
  | none => cases s <;> decide
  | some v => cases s <;> cases v <;> decide

theorem UnitSize.ofCode_masked (z : UnitSize) (want : Option UnitSize) :
    UnitSize.ofCode (z.code &&& (if want.isSome then UnitSize.u64 else .u8).code) =
      want.getD .u8 ↔ want.all (· == z) = true := by
  cases want with
  | none => cases z <;> decide
  | some v => cases z <;> cases v <;> decide

theorem flag_masked (b : Bool) (want : Option Bool) :
    (b && want.isSome) = want.getD false ↔ want.all (· == b) = true := by
  cases want with
  | none => cases b <;> decide
  | some v => cases b <;> cases v <;> decide

theorem count_masked (c : BitVec 7) (zero : Bool) :
    c &&& (if zero then 127#7 else 0#7) = 0#7 ↔ (!zero || c == 0#7) = true := by
  have hall : (127#7 : BitVec 7) = BitVec.allOnes 7 := by decide
  cases zero with
  | false => simp
  | true => rw [if_pos rfl, hall, BitVec.and_allOnes]; simp

/-- A word matches a row exactly when its command has the fields the row asks for. -/
theorem RowFields.row_matches_iff (f : RowFields) (w : Half) :
    w &&& f.row.mask = f.row.pattern ↔ f.accepts (decodeWord w) = true := by
  have hdecode : w &&& f.row.mask = f.row.pattern ↔ (decodeWord w).masked f.mask = f.pattern := by
    rw [← decodeWord_encodeWord f.mask, ← decodeWord_and]
    exact ⟨fun h => (congrArg decodeWord h).trans (decodeWord_encodeWord _),
      fun h => by rw [RowFields.row, ← h, encodeWord_decodeWord]⟩
  rw [hdecode]
  simp only [Command.masked, RowFields.mask, RowFields.pattern, Command.mk.injEq, Bool.and_false,
    true_and, flag_masked, Space.ofCode_masked, UnitSize.ofCode_masked, count_masked,
    RowFields.accepts, Bool.and_eq_true, and_assoc]

/-- The rows of R86, in their order. -/
def opcodeFields : List RowFields :=
  [⟨.BADCOUNT, none, none, none, none, true⟩,
    ⟨.RSV5, none, none, some .s5, none, false⟩,
    ⟨.IA_BADWIDTH, none, some true, none, some .u8, false⟩,
    ⟨.IA_BADWIDTH, none, some true, none, some .u32, false⟩,
    ⟨.IA_BADWIDTH, none, some true, none, some .u64, false⟩,
    ⟨.IARD, some false, some true, none, some .u16, false⟩,
    ⟨.IAWR, some true, some true, none, some .u16, false⟩,
    ⟨.RD0, some false, some false, some .s0, none, false⟩,
    ⟨.WR0, some true, some false, some .s0, none, false⟩,
    ⟨.DATAX, none, some false, some .s1, none, false⟩,
    ⟨.DATAX, none, some false, some .s3, none, false⟩,
    ⟨.RD2, some false, some false, some .s2, none, false⟩,
    ⟨.WR2, some true, some false, some .s2, none, false⟩,
    ⟨.RD4, some false, some false, some .s4, none, false⟩,
    ⟨.WR4, some true, some false, some .s4, none, false⟩,
    ⟨.RD6, some false, some false, some .s6, none, false⟩,
    ⟨.WR6, some true, some false, some .s6, none, false⟩,
    ⟨.RD7, some false, some false, some .s7, none, false⟩,
    ⟨.WR7, some true, some false, some .s7, none, false⟩]

theorem opcodeTable_eq_rows : opcodeTable = opcodeFields.map RowFields.row := by decide

theorem tableMnemonic_eq_accepts (w : Half) :
    tableMnemonic w =
      (opcodeFields.find? fun f => f.accepts (decodeWord w)).map (·.mnemonic) := by
  have hrow (f : RowFields) : ((w &&& f.row.mask) == f.row.pattern) = f.accepts (decodeWord w) := by
    rw [Bool.eq_iff_iff, beq_iff_eq, RowFields.row_matches_iff]
  simp only [tableMnemonic, opcodeTable_eq_rows, List.find?_map, Function.comp_def, hrow,
    Option.map_map]
  rfl

/-- The class `classify` gives is that of the first row that accepts the command. -/
theorem classify_mnemonic_eq_accepts (c : Command) (addr : Option Half) (data : List Byte) :
    (opcodeFields.find? fun f => f.accepts c).map (·.mnemonic) =
      some (classify c addr data).mnemonic := by
  obtain ⟨w, h, ia, sp, z, n, ct⟩ := c
  by_cases hc : ct = 0#7
  · simp [opcodeFields, RowFields.accepts, classify, Instr.mnemonic, hc]
  · by_cases hs : sp = .s5
    · simp [opcodeFields, RowFields.accepts, classify, Instr.mnemonic, hc, hs]
    · have hs' : (Space.s5 == sp) = false := by simpa using Ne.symm hs
      cases ia with
      | true =>
        cases z <;> cases w <;>
          simp [opcodeFields, RowFields.accepts, classify, Instr.mnemonic, hc, hs, hs']
      | false =>
        cases sp <;> cases w <;>
          simp [opcodeFields, RowFields.accepts, classify, Instr.mnemonic, hc]

/-! ### The ordered conditions of R86 -/

/-- The class, by the ordered conditions of R86 on the fields. -/
theorem classify_mnemonic (c : Command) (addr : Option Half) (data : List Byte) :
    (classify c addr data).mnemonic =
      if c.count = 0#7 then .BADCOUNT
      else if c.space = .s5 then .RSV5
      else if c.infoArea = true ∧ c.size ≠ .u16 then .IA_BADWIDTH
      else if c.infoArea = true ∧ c.write = false then .IARD
      else if c.infoArea = true then .IAWR
      else if c.space = .s0 then (if c.write = false then .RD0 else .WR0)
      else if c.space = .s1 ∨ c.space = .s3 then .DATAX
      else if c.space = .s2 then (if c.write = false then .RD2 else .WR2)
      else if c.space = .s4 then (if c.write = false then .RD4 else .WR4)
      else if c.space = .s6 then (if c.write = false then .RD6 else .WR6)
      else (if c.write = false then .RD7 else .WR7) := by
  obtain ⟨w, h, ia, sp, z, n, ct⟩ := c
  by_cases hc : ct = 0#7
  · simp [classify, Instr.mnemonic, hc]
  · by_cases hs : sp = .s5
    · simp [classify, Instr.mnemonic, hc, hs]
    · cases ia with
      | true => cases z <;> cases w <;> simp [classify, Instr.mnemonic, hc, hs]
      | false => cases sp <;> cases w <;> simp [classify, Instr.mnemonic, hc]

theorem Space.eq_iff_spaceIndex (s v : Space) : s = v ↔ (spaceIndex s).val = (spaceIndex v).val :=
  ⟨fun h => by rw [h], fun h => spaceIndex_inj (Fin.ext h)⟩

theorem decodeWord_size_eq_u16_iff (w : Half) :
    (decodeWord w).size = .u16 ↔ w.toNat / 256 % 4 = 1 := by
  have hcode : w.toNat / 256 % 4 = (decodeWord w).size.code.toNat := by
    rw [decodeWord, UnitSize.code_ofCode, toNat_extractLsb'_eq_div]; rfl
  rw [hcode]
  cases (decodeWord w).size <;> decide

theorem decodeWord_write_eq_false_iff (w : Half) :
    (decodeWord w).write = false ↔ w.toNat / 32768 = 0 := by
  have hlt := w.isLt
  have hbit := getLsbD_eq_true_iff_div w 15
  rw [← Bool.not_eq_true, decodeWord, hbit]
  omega

theorem decodeWord_count_eq_zero_iff (w : Half) :
    (decodeWord w).count = 0#7 ↔ w.toNat % 128 = 0 := by
  rw [← BitVec.toNat_inj, decodeWord_count_toNat]
  rfl

theorem decodeWord_infoArea_iff (w : Half) :
    (decodeWord w).infoArea = true ↔ w.toNat / 8192 % 2 = 1 :=
  getLsbD_eq_true_iff_div w 13

theorem decodeWord_space_iff (w : Half) (v : Space) :
    (decodeWord w).space = v ↔ w.toNat / 1024 % 8 = (spaceIndex v).val := by
  rw [Space.eq_iff_spaceIndex, decodeWord_space_index]
  exact Iff.rfl

/-- Settles O3: the table's rows ask for whole fields (`RowFields.row_matches_iff`), in the order in which
`classify` asks for them; and each field is a run of bits of the word's number. -/
theorem opcodeMapFirstMatch : Obligations.OpcodeMapFirstMatch := by
  intro w addr data
  refine ⟨by rw [tableMnemonic_eq_accepts, classify_mnemonic_eq_accepts], ?_⟩
  rw [classify_mnemonic]
  simp only [decodeWord_count_eq_zero_iff, decodeWord_space_iff, decodeWord_infoArea_iff,
    decodeWord_write_eq_false_iff, decodeWord_size_eq_u16_iff, Ne, spaceIndex]
  rfl

/-- Settles O1: each vector is a closed run of the decoder. -/
theorem specWordsDecode : Obligations.SpecWordsDecode := by
  unfold Obligations.SpecWordsDecode
  decide

end Sys2Proof
end

section
/-! Proofs of the statements about one step of the request context (42_dispatch.md section 1). -/

namespace Sys2Proof.Machine

/-! ### A step by the request context's mode (R140, R141, R283) -/

section
variable {s : State}

theorem step_of_waiting (h : s.request = .hung ∨ s.request = .idle ∧ s.inbox = []) :
    step s = .next (s.updateStep Config.env) := by
  unfold step
  obtain hq | ⟨hq, hi⟩ := h
  · rw [hq]
  · rw [hq, hi]; exact ite_self _

theorem step_of_resetRequested (hq : s.request = .idle) (hr : s.resetRequested = true) :
    step s = .next (s.updateStep Config.env) := by
  unfold step
  rw [hq, hr]; rfl

theorem step_of_delivered {p : List Byte} {rest : List (List Byte)} (hq : s.request = .idle)
    (hr : s.resetRequested = false) (hi : s.inbox = p :: rest) :
    step s = .next ((s.interleave Config.env).takePayload p rest) := by
  unfold step
  rw [hq, hr, hi]; rfl

theorem step_of_busy (hq : s.request = .busy) (hr : s.resetRequested = false) :
    step s = requestStep s := by
  unfold step
  rw [hq, hr]; rfl

variable (hq : s.request = .busy) (hr : s.resetRequested = false)
  (hc : s.cursor ≤ s.payload.length)
include hq hr hc

theorem step_of_decode_ok {i : Instr} {len : Nat}
    (hd : decode (s.payload.drop s.cursor) = .ok (i, len)) :
    step s = exec i ((s.interleave Config.env).advance len) := by
  rw [step_of_busy hq hr, requestStep, if_neg (Nat.not_lt.2 hc), hd]

theorem step_of_decode_error {e : DecodeError} (hd : decode (s.payload.drop s.cursor) = .error e)
    (he : e ≠ .noBytes) : step s = .next ((s.interleave Config.env).stop (framingError e)) := by
  rw [step_of_busy hq hr, requestStep, if_neg (Nat.not_lt.2 hc), hd]
  cases e with
  | noBytes => exact absurd rfl he
  | _ => rfl

theorem step_of_noBytes (hd : s.payload.drop s.cursor = []) :
    step s = .next (s.interleave Config.env).finishPayload := by
  rw [step_of_busy hq hr, requestStep, if_neg (Nat.not_lt.2 hc), hd]; rfl

end

/-- Settles O7: by the equation of a step whose bytes decode. -/
theorem stepRunsDecodedCommand : Obligations.StepRunsDecodedCommand :=
  fun _ _ _ hq hr hc hd => step_of_decode_ok hq hr hc hd

/-- Settles O9: no byte is left at the cursor, and the end of a payload is `State.finishPayload_eq`. -/
theorem endOfPayloadSendsOneFrame : Obligations.EndOfPayloadSendsOneFrame := by
  intro s hq hr hc
  have hend : s.payload.drop s.cursor = [] := by rw [hc, List.drop_length]
  rw [step_of_noBytes hq hr hc.le hend, State.finishPayload_eq]
  rfl

/-- Settles O10: by the equation of a step that finds a payload delivered. -/
theorem idleTakesOldestPayload : Obligations.IdleTakesOldestPayload :=
  fun _ _ _ hq hr hi => step_of_delivered hq hr hi

/-- Settles O15: by the equation of a step in which the request context waits. -/
theorem waitingStepMovesUpdateContextOnly : Obligations.WaitingStepMovesUpdateContextOnly :=
  fun _ h => step_of_waiting h

/-! ### Framing errors (R145, R253) -/

theorem framingError_counter (e : DecodeError) : (framingError e).counter = some 0 := by
  cases e <;> rfl

/-- Settles O8: a Stop counts the framing error (`bumpCounter_spec`) and ends the payload. -/
theorem framingErrorEndsPayload : Obligations.FramingErrorEndsPayload := by
  intro s e hq hr hc hd he
  obtain ⟨hword, hrest⟩ := bumpCounter_spec (m := s.stats) (framingError_counter e)
  refine ⟨_, step_of_decode_error hq hr hc hd he, ?_, ?_, fun j _ hj => ?_⟩
  · rw [State.stop, State.finishPayload_eq]; rfl
  · rw [State.stop, State.finishPayload_stats]; exact hword
  · rw [State.stop, State.finishPayload_stats]; exact hrest j (by omega) (by omega)

/-! ### Commands and payloads (R76, R144) -/

theorem cursor_le_of_decode_ok {payload : List Byte} {cursor : Nat} {i : Instr} {len : Nat}
    (hd : decode (payload.drop cursor) = .ok (i, len)) : cursor + len ≤ payload.length := by
  have hle := decode_length_le hd
  have hpos := decode_length_pos hd
  rw [List.length_drop] at hle
  omega

/-- Settles O12: the step runs the command with the cursor behind it, and no command but a WR6 that raises
the reset request moves the cursor or changes the payload (`exec_payload`). -/
theorem commandIsConsumedWhole : Obligations.CommandIsConsumedWhole := by
  intro s t i len hq hr hd hstep ht
  have hle := cursor_le_of_decode_ok hd
  obtain ⟨hwf, hlen, -, -⟩ := encodeOfDecode _ i len hd
  have hlength := (decodeOfEncode i [] hwf).2
  rw [step_of_decode_ok hq hr (by omega) hd] at hstep
  obtain ⟨hpayload, hcursor, -⟩ | ⟨-, -, -, hreset, -⟩ := exec_payload hstep
  · have hcur : t.cursor = s.cursor + len := hcursor
    have hpay : t.payload = s.payload := hpayload
    exact ⟨by rw [hcur, hlen, hlength], by rw [hcur, hpay]; exact hle, hpay⟩
  · exact absurd (hreset.symm.trans ht) (by decide)

/-- Settles O13: case by case of what a step can do (`step_cases`). -/
theorem effectsNeverChangePayloads : Obligations.EffectsNeverChangePayloads := by
  intro s t h
  obtain ⟨-, -, rfl⟩ | ⟨p, rest, hq, -, hi, rfl⟩ |
    ⟨-, -, -, ⟨-, rfl⟩ | ⟨e, -, -, rfl⟩ | ⟨i, len, -, -, hexec⟩⟩ := step_cases h
  · exact ⟨fun _ _ => rfl, .inl rfl⟩
  · exact ⟨fun hb => absurd (hq.symm.trans hb) (by decide), .inr ⟨p, hi, rfl, rfl⟩⟩
  · exact ⟨fun _ hne => absurd (State.finishPayload_request _) hne, .inl (by simp)⟩
  · exact ⟨fun _ hne => absurd (State.finishPayload_request _) hne, .inl (by simp [State.stop])⟩
  · obtain ⟨-, -, -, -, hinbox, -⟩ := exec_fixed hexec
    refine ⟨fun _ hne => ?_, .inl hinbox⟩
    obtain ⟨hpayload, -⟩ | ⟨-, -, -, -, hidle⟩ := exec_payload hexec
    · exact hpayload
    · exact absurd hidle hne

end Sys2Proof.Machine
end

section
/-! Proofs of the statements about the invariant of a booted machine and about what no step changes
(10_state.md). -/

namespace Sys2Proof.Machine

/-! ### The invariant's share of the bus (R21, R24, R45, R113) -/

/-- What `State.Inv` asks of the bus: a canonical register file, an owner for each region, and an update
context in its place. -/
structure Bus.Sound (regions : List Region) (b : Bus) : Prop where
  canonical : Memory.wf b.rf = true
  owners    : b.owners.length = regions.length
  placed    : b.placed regions

section
variable {E : Env} {regions : List Region} {b : Bus}

theorem Bus.Sound.updateStep (h : b.Sound regions) : (b.updateStep E regions).Sound regions :=
  ⟨Bus.updateStep_canonical h.canonical, Bus.updateStep_owners.trans h.owners,
    Bus.updateStep_placed h.placed⟩

theorem Bus.Sound.interleave (h : b.Sound regions) : (b.interleave E regions).Sound regions :=
  ⟨Bus.interleave_canonical h.canonical, (Bus.interleave_owners b).trans h.owners,
    Bus.interleave_placed h.placed⟩

theorem Bus.Sound.act (h : b.Sound regions) (idx : Nat) (r : Region) (a : SliceAct) :
    (b.act idx r a).Sound regions :=
  ⟨Bus.act_canonical a h.canonical, (Bus.act_owners_length ..).trans h.owners, by
    rw [Bus.placed, Bus.act_update]; exact h.placed⟩

theorem Bus.Sound.write (h : b.Sound regions) {x : Nat} (hx : x < Config.rfSize) (v : Byte) :
    Bus.Sound regions { b with rf := Memory.write b.rf x v } :=
  ⟨Memory.wf_write v h.canonical hx, h.owners, h.placed⟩

end

theorem Bus.kept_sound (E : Env) (regions : List Region) :
    Bus.Kept E regions (Bus.Sound regions) where
  interleave := fun _ h => h.interleave
  call := fun _ _ h => ⟨h.canonical, h.owners, h.placed⟩
  act := fun r _ idx _ a h => h.act idx r a

/-! ### What changes keep the invariant -/

section
variable {s t : State}

theorem State.Inv.sound (h : s.Inv) : s.bus.Sound s.regions :=
  ⟨h.canonical, h.owners, h.position, h.hookHere⟩

theorem State.Inv.with_bus (h : s.Inv) {b : Bus} (hb : b.Sound s.regions) :
    State.Inv { s with bus := b } :=
  { h with
    canonical := hb.canonical
    owners := hb.owners
    position := hb.placed.1
    hookHere := hb.placed.2 }

/-- A request context that processes a payload, or is stuck in one, meets the invariant while no reset is
requested. -/
theorem State.inv_of_running (hb : t.bus.Sound t.regions)
    (hfit : t.regions.length ≤ Config.maxRegions) (hq : t.request = .busy ∨ t.request = .hung)
    (hc : t.cursor ≤ t.payload.length) (hr : t.resetRequested = false)
    (hw : statsWord t.stats 14 = 0#16) : t.Inv := by
  have hmode : ¬ (t.request = .idle ∨ t.request = .unbooted) := by
    rcases hq with hq | hq <;> rw [hq] <;> simp
  exact
    { canonical := hb.canonical
      tableFits := hfit
      owners := hb.owners
      position := hb.placed.1
      hookHere := hb.placed.2
      cursor := hc
      idleEmpty := fun h => absurd h hmode
      stopped := fun h => absurd (h.symm.trans hr) (by decide)
      trigger := by simp [hr, hw] }

/-- An idle request context that holds nothing meets the invariant when the reset request agrees with the
reset-trigger word. -/
theorem State.inv_of_idle (hb : t.bus.Sound t.regions)
    (hfit : t.regions.length ≤ Config.maxRegions)
    (hq : t.request = .idle ∨ t.request = .unbooted)
    (hempty : t.payload = [] ∧ t.cursor = 0 ∧ t.reply = [])
    (hw : t.resetRequested = true ↔ statsWord t.stats 14 ≠ 0#16) : t.Inv where
  canonical := hb.canonical
  tableFits := hfit
  owners := hb.owners
  position := hb.placed.1
  hookHere := hb.placed.2
  cursor := by rw [hempty.2.1]; exact Nat.zero_le _
  idleEmpty := fun _ => hempty
  stopped := fun _ => hq
  trigger := hw

/-- While a payload is processed no reset is requested, so the reset-trigger word is zero. -/
theorem State.Inv.running (h : s.Inv) (hq : s.request = .busy) :
    s.resetRequested = false ∧ statsWord s.stats 14 = 0#16 := by
  have hr : s.resetRequested = false := by
    by_contra hr
    have := h.stopped (by simpa using hr)
    rw [hq] at this
    simp at this
  refine ⟨hr, ?_⟩
  by_contra hw
  exact absurd ((h.trigger.2 hw).symm.trans hr) (by decide)

theorem State.Inv.advance (h : s.Inv) (hq : s.request = .busy) {k : Nat}
    (hk : s.cursor + k ≤ s.payload.length) : (s.advance k).Inv :=
  State.inv_of_running h.sound h.tableFits (.inl hq) hk (h.running hq).1 (h.running hq).2

theorem State.Inv.takePayload (h : s.Inv) (hr : s.resetRequested = false) (p : List Byte)
    (rest : List (List Byte)) : (s.takePayload p rest).Inv := by
  refine State.inv_of_running (t := s.takePayload p rest) h.sound h.tableFits (.inl rfl)
    (Nat.zero_le _) hr ?_
  by_contra hw
  exact absurd ((h.trigger.2 hw).symm.trans hr) (by decide)

theorem State.Inv.finishPayload (h : s.Inv) : s.finishPayload.Inv := by
  refine State.inv_of_idle ?_ ?_ (.inl (by simp)) (by simp) ?_
  · rw [State.finishPayload_bus, State.finishPayload_regions]; exact h.sound
  · rw [State.finishPayload_regions]; exact h.tableFits
  · rw [State.finishPayload_resetRequested, State.finishPayload_stats]; exact h.trigger

theorem State.Inv.count (h : s.Inv) (e : ErrorCode) : (s.count e).Inv :=
  { h with
    trigger := by
      rw [State.count_stats, statsWord_bumpCounter _ _ (by decide)]; exact h.trigger }

end

/-! ### What a command keeps -/

theorem statsWord_countFailures (m : Vector Byte 32) (n : Nat) {k : Nat} (hk : 3 ≤ k) :
    statsWord (countFailures m n) k = statsWord m k := by
  induction n generalizing m with
  | zero => rfl
  | succ n ih => rw [countFailures, ih, statsWord_bumpCounter _ _ hk]

section
variable {s t : State}

theorem State.Inv.busEffect (h : s.Inv) (hq : s.request = .busy)
    (he : s.busEffect (Bus.Sound s.regions) t) : t.Inv := by
  obtain ⟨b, bs, k, q, hb, hmode, rfl⟩ := he
  refine State.inv_of_running hb h.tableFits ?_ h.cursor (h.running hq).1 ?_
  · rwa [hq] at hmode
  · exact (statsWord_countFailures _ _ (by decide)).trans (h.running hq).2

/-- Every well-formed command keeps the invariant. -/
theorem State.Inv.exec (h : s.Inv) (hq : s.request = .busy) {i : Instr} (hwf : i.wf = true)
    (hexec : exec i s = .next t) : t.Inv := by
  obtain ⟨hr, hw⟩ := h.running hq
  cases exec_effect_of_next hexec with
  | counts e => exact h.count e
  | emits bs => exact State.inv_of_running h.sound h.tableFits (.inl hq) h.cursor hr hw
  | pointer => exact State.inv_of_running h.sound h.tableFits (.inl hq) h.cursor hr hw
  | scratch => exact State.inv_of_running h.sound h.tableFits (.inl hq) h.cursor hr hw
  | draws => exact State.inv_of_running h.sound h.tableFits (.inl hq) h.cursor hr hw
  | stats a z n c d m hi h0 =>
    exact State.inv_of_running h.sound h.tableFits (.inl hq) h.cursor hr h0
  | reset a z n c d m hi h0 =>
    exact State.inv_of_idle h.sound h.tableFits (.inl rfl) ⟨rfl, rfl, rfl⟩
      ⟨fun _ => h0, fun _ => rfl⟩
  | read0 a z n c =>
    exact h.busEffect hq (State.space0Read_effect (Bus.kept_sound _ _) h.sound _ _ _ _)
  | write0 a z n c d hi hin =>
    subst hi
    refine h.busEffect hq (State.busEffect_of_write (State.space0Write_effect
      (Bus.kept_sound _ _) h.sound _ _ _ _ _ (Instr.data_length hwf) fun b x v _ hx hb =>
        hb.write (Nat.lt_of_lt_of_le hx hin) v))

end

/-- Settles O16: case by case of what a step can do (`step_cases`); the update context's steps keep the bus
sound, and a command keeps the invariant (`State.Inv.exec`). -/
theorem stepKeepsInvariant : Obligations.StepKeepsInvariant := by
  intro s t h hstep
  have hi : (s.interleave Config.env).Inv := h.with_bus h.sound.interleave
  obtain ⟨-, -, rfl⟩ | ⟨p, rest, -, hr, -, rfl⟩ |
    ⟨hq, -, -, ⟨-, rfl⟩ | ⟨e, -, -, rfl⟩ | ⟨i, len, hd, hwf, hexec⟩⟩ := step_cases hstep
  · exact h.with_bus h.sound.updateStep
  · exact hi.takePayload hr p rest
  · exact hi.finishPayload
  · exact (hi.count _).finishPayload
  · exact (hi.advance hq (cursor_le_of_decode_ok hd)).exec hq hwf hexec

/-! ### Progress and boot (R250, R281, R283) -/

/-- Every booted state that meets the invariant takes a step. -/
theorem State.Inv.exists_step {s : State} (h : s.Inv) (hq : s.request ≠ .unbooted) :
    ∃ t, step s = .next t := by
  cases hmode : s.request with
  | unbooted => exact absurd hmode hq
  | hung => exact ⟨_, step_of_waiting (.inl hmode)⟩
  | idle =>
    cases hr : s.resetRequested with
    | true => exact ⟨_, step_of_resetRequested hmode hr⟩
    | false =>
      cases hi : s.inbox with
      | nil => exact ⟨_, step_of_waiting (.inr ⟨hmode, hi⟩)⟩
      | cons p rest => exact ⟨_, step_of_delivered hmode hr hi⟩
  | busy =>
    have hr := (h.running hmode).1
    cases hd : decode (s.payload.drop s.cursor) with
    | ok p =>
      obtain ⟨t, ht, -⟩ := exec_effect p.1 ((s.interleave Config.env).advance p.2)
      exact ⟨t, (step_of_decode_ok hmode hr h.cursor hd).trans ht⟩
    | error e =>
      by_cases he : e = .noBytes
      · subst he
        exact ⟨_, step_of_noBytes hmode hr h.cursor (decode_noBytes.1 hd)⟩
      · exact ⟨_, step_of_decode_error hmode hr h.cursor hd he⟩

theorem step_ne_unbooted {s t : State} (h : step s = .next t) : t.request ≠ .unbooted := by
  obtain ⟨hq, -, rfl⟩ | ⟨p, rest, -, -, -, rfl⟩ |
    ⟨hq, -, -, ⟨-, rfl⟩ | ⟨e, -, -, rfl⟩ | ⟨i, len, -, -, hexec⟩⟩ := step_cases h
  · exact hq
  · simp [State.takePayload]
  · simp
  · simp [State.stop]
  · obtain ⟨-, -, -, hmode⟩ | ⟨-, -, -, -, hmode⟩ := exec_payload hexec
    · rcases hmode with hmode | hmode <;> rw [hmode]
      · simp [hq]
      · decide
    · rw [hmode]; decide

/-- Settles O14: there is a step (`State.Inv.exists_step`), it keeps the invariant (`stepKeepsInvariant`), and it
leaves the machine booted. -/
theorem bootedMachineNeverStops : Obligations.BootedMachineNeverStops := by
  intro s h hq
  obtain ⟨t, ht⟩ := h.exists_step hq
  exact ⟨t, ht, stepKeepsInvariant s t h ht, step_ne_unbooted ht⟩

theorem State.boot_inv (c : BootParams) : (State.boot c).Inv := by
  have hregions := registerAll_fst c.regions [] [] (Nat.zero_le _)
  refine State.inv_of_idle ⟨?_, ?_, ?_⟩ ?_ ?_ ⟨rfl, rfl, rfl⟩ ?_
  · rw [State.boot_bus_rf]; exact bootRegisterFile_wf c
  · rw [State.boot_bus_owners, State.boot_regions]; exact registerAll_snd_length _ _ _ rfl
  · rw [Bus.placed, State.boot_bus_update]; exact ⟨Nat.zero_le _, by simp⟩
  · rw [State.boot_regions, hregions]; simp
  · rw [State.boot_request]; split <;> simp
  · rw [State.boot_resetRequested, State.boot_stats, statsWord_replicate_zero]; simp

/-- Settles O17: the reset state is a boot. -/
theorem bootMeetsInvariant : Obligations.BootMeetsInvariant :=
  ⟨State.boot_inv, State.boot_inv _⟩

/-- Settles O11: a reset request stands only while the request context is idle (`State.Inv.stopped`). -/
theorem resetRequestStopsRequestContext : Obligations.ResetRequestStopsRequestContext := by
  intro s h hq hr
  have hidle : s.request = .idle := (h.stopped hr).resolve_right hq
  have hstep := step_of_resetRequested hidle hr
  refine ⟨hstep, fun t ht => ?_⟩
  have hinv := stepKeepsInvariant s t h ht
  rw [hstep] at ht
  cases ht
  exact ⟨hr, hinv⟩

end Sys2Proof.Machine
end

section
/-! Proofs of the statements about what commands and steps leave as it is (10_state.md). -/

namespace Sys2Proof.Machine

/-! ### The read-only state (R24, R38, R41) -/

/-- Settles O18: no command changes the read-only state (`exec_fixed`), and nothing else of a step does. -/
theorem readOnlyStateNeverChanges : Obligations.ReadOnlyStateNeverChanges := by
  refine ⟨fun c => ⟨State.boot_space2 c, State.boot_space7 c⟩, fun s t h => ?_⟩
  obtain ⟨-, -, rfl⟩ | ⟨p, rest, -, -, -, rfl⟩ |
    ⟨-, -, -, ⟨-, rfl⟩ | ⟨e, -, -, rfl⟩ | ⟨i, len, -, -, hexec⟩⟩ := step_cases h
  · exact ⟨rfl, rfl, rfl, rfl⟩
  · exact ⟨rfl, rfl, rfl, rfl⟩
  · simp
  · simp [State.stop]
  · obtain ⟨hregions, hstrict, h2, h7, -, -⟩ := exec_fixed hexec
    exact ⟨h2, h7, hregions, hstrict⟩

/-! ### The address pointer (R34, R146) -/

/-- Settles O20: an absent address field is read from the pointer (`State.startAddress`), and what a command
does to a record is `exec_infoRecord`. -/
theorem addressPointerContract : Obligations.AddressPointerContract := by
  refine ⟨fun c sp => by rw [State.boot_infoRecord]; rfl,
    fun s sp z n c d => ⟨rfl, rfl, rfl, rfl, rfl, rfl, rfl, rfl, rfl, rfl⟩,
    fun s t i sp h hne => ?_⟩
  obtain heq | ⟨a, n, c, d, p, hi, -⟩ := exec_infoRecord h sp
  · rw [heq]
  · exact absurd hi (hne a n c d)

/-! ### The scratch block (R39) -/

/-- A command leaves the scratch block's size, and its bytes unless it is a WR4. -/
theorem exec_space4 {i : Instr} {s t : State} (h : exec i s = .next t) :
    t.space4 = s.space4 ∨
      (∃ a z n c d, i = .wr4 a z n c d) ∧ t.space4.length = s.space4.length := by
  have busOnly : ∀ {u}, s.busEffect (fun _ => True) u → u.space4 = s.space4 := by
    intro u hu
    obtain ⟨-, -, -, -, h4, -⟩ := State.busEffect_fields hu
    exact h4
  cases exec_effect_of_next h with
  | scratch a z n c d m hi hl => exact .inr ⟨⟨a, z, n, c, d, hi⟩, hl⟩
  | read0 => exact .inl (busOnly (State.space0Read_busOnly ..))
  | write0 => exact .inl (busOnly (State.busEffect_of_write (State.space0Write_busOnly ..)))
  | _ => exact .inl rfl

/-- Settles O21: by what a command does to the scratch block (`exec_space4`). -/
theorem scratchBlockChangesOnlyByCommand : Obligations.ScratchBlockChangesOnlyByCommand := by
  refine ⟨State.boot_space4, fun s t i h => ?_, State.updateStep_space4⟩
  obtain heq | ⟨⟨a, z, n, c, d, hi⟩, hl⟩ := exec_space4 h
  · exact ⟨congrArg _ heq, fun _ => heq⟩
  · exact ⟨hl, fun hne => absurd hi (hne a z n c d)⟩

/-! ### The reset request (R48, R157) -/

/-- Settles O22: a step of a state with the reset request up is one of the update context or of a state in
which no command runs; and a command other than WR6 leaves the request (`exec_payload`). -/
theorem resetRequestRaisedByWr6NeverCleared :
    Obligations.ResetRequestRaisedByWr6NeverCleared := by
  refine ⟨State.boot_resetRequested, fun s t h hr => ?_, fun s t i h ht => ?_⟩
  · obtain ⟨-, -, rfl⟩ | ⟨_, _, -, hr', -, -⟩ | ⟨-, hr', -, -⟩ := step_cases h
    · exact hr
    · exact absurd (hr.symm.trans hr') (by decide)
    · exact absurd (hr.symm.trans hr') (by decide)
  · obtain ⟨-, -, hkeep, -⟩ | ⟨hi, -⟩ := exec_payload h
    · exact .inl (hkeep.symm.trans ht)
    · exact .inr hi

/-! ### Bytes that no region covers (R22) -/

/-- A read of memory space 0 changes no byte that no region covers. -/
theorem State.space0Read_unowned {E : Env} {s : State} {x : Nat} (hx : s.unowned x) (a : Nat)
    (z : UnitSize) (n : Bool) (c : BitVec 7) :
    (s.space0Read E a z n c).rfByte x = s.rfByte x := by
  obtain ⟨b, bs, k, q, hb, -, ht⟩ :=
    State.space0Read_effect (Bus.kept_uncovered E (s.rfByte x) hx) rfl a z n c
  rw [ht]; exact hb

/-- Settles O23: the only other command that touches the bus is RD0, whose handlers keep to their regions
(`Bus.kept_uncovered`), as hooks do. -/
theorem unownedBytesChangeByWr0Only : Obligations.UnownedBytesChangeByWr0Only := by
  refine ⟨fun s t i x h hne hx => ?_, fun E s x hx =>
    (Bus.updateStep_hooksSpare (Bus.hooksSpare_of_uncovered hx)).2⟩
  cases exec_effect_of_next h with
  | read0 => exact State.space0Read_unowned hx ..
  | write0 a z n c d hi => exact absurd hi (hne a z n c d)
  | _ => rfl

end Sys2Proof.Machine
end

section
/-! Proofs of the statements about rejected commands and the error counters (60_exceptions.md), and about the
memory spaces with storage of their own and the info areas (42_dispatch.md section 3, 43_info_area.md). -/

namespace Sys2Proof.Machine

/-! ### Counting an error (R252, R254) -/

theorem Half.toNat_add_one (v : Half) : (v + 1#16).toNat = (v.toNat + 1) % 65536 := by
  rw [BitVec.toNat_add]; rfl

/-- Settles O26: by what counting an error with a counter changes (`bumpCounter_spec`). -/
theorem errorCountersWrap : Obligations.ErrorCountersWrap := by
  intro s e k hk
  have hcounter : e.counter = some k := by
    rcases hk with ⟨rfl, he⟩ | ⟨rfl, he⟩ | ⟨rfl, rfl⟩
    · simp only [List.mem_cons, List.not_mem_nil, or_false] at he
      rcases he with rfl | rfl | rfl | rfl | rfl | rfl <;> rfl
    · simp only [List.mem_cons, List.not_mem_nil, or_false] at he
      rcases he with rfl | rfl | rfl <;> rfl
    · rfl
  obtain ⟨hword, hrest⟩ := bumpCounter_spec (m := s.stats) hcounter
  refine ⟨?_, fun j _ => hrest j, rfl, fun E => State.updateStep_stats E s⟩
  rw [State.count_stats, hword, Half.toNat_add_one]

/-- Settles O27: the meaning of each of these classes is a Reject (`State.onlyCounts_count`). -/
theorem alwaysRejectedClassesOnlyCount : Obligations.AlwaysRejectedClassesOnlyCount := by
  intro s w ia sp a z n c d
  exact ⟨⟨_, rfl, State.onlyCounts_count rfl⟩, ⟨_, rfl, State.onlyCounts_count rfl⟩,
    ⟨_, rfl, State.onlyCounts_count rfl⟩, ⟨_, rfl, State.onlyCounts_count rfl⟩,
    ⟨_, rfl, State.onlyCounts_count rfl⟩, ⟨_, rfl, State.onlyCounts_count rfl⟩,
    ⟨_, rfl, State.onlyCounts_count rfl⟩, ⟨_, rfl, State.onlyCounts_count rfl⟩,
    ⟨_, rfl, State.onlyCounts_count rfl⟩⟩

/-! ### The range check (R148) -/

section
variable {s : State} {sp : Space} {storage : List Byte} {a : Option Half} {z : UnitSize} {n : Bool}
  {c : BitVec 7} {d : List Byte} {E : Env}

theorem inRange_of_le {start limit : Nat} (h : start + span z n c ≤ limit) :
    inRange start z n c limit = true := inRange_iff.2 h

theorem inRange_of_lt {start limit : Nat} (h : limit < start + span z n c) :
    inRange start z n c limit = false := by
  rw [← Bool.not_eq_true, inRange_iff]; omega

theorem State.spaceRead_outOfRange (h : storage.length < s.startAddress sp a + span z n c) :
    s.spaceRead sp storage a z n c = s.count .outOfRange := by
  simp only [State.spaceRead, inRange_of_lt h]; rfl

theorem State.write4_outOfRange (h : s.space4.length < s.startAddress .s4 a + span z n c) :
    s.write4 a z n c d = s.count .outOfRange := by
  simp only [State.write4, inRange_of_lt h]; rfl

theorem State.read6_outOfRange (h : 32 < s.startAddress .s6 a + span z n c) :
    s.read6 E a z n c = s.count .outOfRange := by
  simp only [State.read6, Config.statsSize, inRange_of_lt h]; rfl

theorem State.write6_outOfRange (h : 32 < s.startAddress .s6 a + span z n c) :
    s.write6 a z n c d = s.count .outOfRange := by
  simp only [State.write6, Config.statsSize, inRange_of_lt h]; rfl

theorem State.infoRead_outOfRange (h : 16 < s.startAddress sp a + span .u16 n c) :
    s.infoRead sp a n c = s.count .outOfRange := by
  simp only [State.infoRead, Config.infoSize, inRange_of_lt h]; rfl

theorem State.infoWrite_outOfRange (h : 16 < s.startAddress sp a + span .u16 n c) :
    s.infoWrite sp a n c d = s.count .outOfRange := by
  simp only [State.infoWrite, Config.infoSize, inRange_of_lt h]; rfl

theorem State.read0_outOfRange (h : 65536 < s.startAddress .s0 a + span z n c) :
    s.read0 E a z n c = s.count .outOfRange := by
  simp only [State.read0, Config.rfSize, inRange_of_lt h]; rfl

theorem State.write0_outOfRange (h : 65536 < s.startAddress .s0 a + span z n c) :
    s.write0 E a z n c d = s.count .outOfRange := by
  simp only [State.write0, Config.rfSize, inRange_of_lt h]; rfl

theorem State.onlyCounts_outOfRange {o : Host.Outcome State Fault Refusal} {t : State}
    (ho : o = .next t) (ht : t = s.count .outOfRange) : ∃ u, o = .next u ∧ s.onlyCounts u 1 :=
  ⟨t, ho, ht ▸ State.onlyCounts_count rfl⟩

/-! ### The same commands inside their space -/

theorem State.spaceRead_inRange (h : s.startAddress sp a + span z n c ≤ storage.length) :
    s.spaceRead sp storage a z n c =
      s.emit (spaceBytes storage (touched (s.startAddress sp a) z n c)) := by
  simp only [State.spaceRead, inRange_of_le h, if_true]

theorem State.write4_inRange (h : s.startAddress .s4 a + span z n c ≤ s.space4.length) :
    s.write4 a z n c d = { s with
      space4 := storeBytes s.space4 ((touched (s.startAddress .s4 a) z n c).zip d) } := by
  simp only [State.write4, inRange_of_le h, if_true]

theorem State.read6_inRange (h : s.startAddress .s6 a + span z n c ≤ 32) :
    s.read6 E a z n c =
      let r := statsRead E s.stats (touched (s.startAddress .s6 a) z n c) s.draws
      { s with reply := s.reply ++ r.1, draws := r.2 } := by
  simp only [State.read6, Config.statsSize, inRange_of_le h, if_true]

theorem State.write6_inRange (h : s.startAddress .s6 a + span z n c ≤ 32) :
    s.write6 a z n c d = State.checkResetTrigger { s with
      stats := statsStore s.stats ((touched (s.startAddress .s6 a) z n c).zip d) } := by
  simp only [State.write6, Config.statsSize, inRange_of_le h, if_true]

theorem State.infoRead_inRange (h : s.startAddress sp a + span .u16 n c ≤ 16) :
    s.infoRead sp a n c =
      s.emit (spaceBytes (s.infoRecord sp).bytes (touched (s.startAddress sp a) .u16 n c)) := by
  simp only [State.infoRead, Config.infoSize, inRange_of_le h, if_true]

theorem State.infoWrite_inRange (h : s.startAddress sp a + span .u16 n c ≤ 16) :
    s.infoWrite sp a n c d = s.setInfoRecord sp
      ((s.infoRecord sp).storeBytes ((touched (s.startAddress sp a) .u16 n c).zip d)) := by
  simp only [State.infoWrite, Config.infoSize, inRange_of_le h, if_true]

theorem State.read0_inRange (h : s.startAddress .s0 a + span z n c ≤ 65536) :
    s.read0 E a z n c = s.space0Read E (s.startAddress .s0 a) z n c := by
  simp only [State.read0, Config.rfSize, inRange_of_le h, if_true]

theorem State.write0_inRange (h : s.startAddress .s0 a + span z n c ≤ 65536) :
    s.write0 E a z n c d = s.space0Write E (s.startAddress .s0 a) z n c d := by
  simp only [State.write0, Config.rfSize, inRange_of_le h, if_true]

end

/-- Settles O28: each command's effect past the end of its space is the Reject of E12. -/
theorem outOfRangeCommandsOnlyCount : Obligations.OutOfRangeCommandsOnlyCount := by
  intro s sp a z n c d rejected
  exact ⟨fun h => ⟨fun _ => State.onlyCounts_outOfRange rfl (State.infoRead_outOfRange h),
      fun _ => State.onlyCounts_outOfRange rfl (State.infoWrite_outOfRange h)⟩,
    fun h => ⟨fun _ => State.onlyCounts_outOfRange rfl (State.read0_outOfRange h),
      fun _ => State.onlyCounts_outOfRange rfl (State.write0_outOfRange h)⟩,
    fun h _ => State.onlyCounts_outOfRange rfl (State.spaceRead_outOfRange h),
    fun h => ⟨fun _ => State.onlyCounts_outOfRange rfl (State.spaceRead_outOfRange h),
      fun _ => State.onlyCounts_outOfRange rfl (State.write4_outOfRange h)⟩,
    fun h => ⟨fun _ => State.onlyCounts_outOfRange rfl (State.read6_outOfRange h),
      fun _ => State.onlyCounts_outOfRange rfl (State.write6_outOfRange h)⟩,
    fun h _ => State.onlyCounts_outOfRange rfl (State.spaceRead_outOfRange h)⟩

/-! ### Spaces 2, 4 and 7 (R152, R154, R155, R158) -/

theorem State.spaceRead_repliesUnits {s : State} {sp : Space} {storage : List Byte}
    {a : Option Half} {z : UnitSize} {n : Bool} {c : BitVec 7}
    (h : s.startAddress sp a + span z n c ≤ storage.length) :
    ∃ bytes, s.spaceRead sp storage a z n c = { s with reply := s.reply ++ bytes } ∧
      repliesUnits (s.startAddress sp a) z n c (fun x => storage.getD x 0#8) bytes :=
  ⟨_, State.spaceRead_inRange h, repliesUnits_spaceBytes ..⟩

/-- Settles O29: all three are reads of a space's storage. -/
theorem spaceReadsAppendUnits : Obligations.SpaceReadsAppendUnits := by
  intro s a z n c
  refine ⟨fun h => ?_, fun h => ?_, fun h => ?_⟩ <;>
    obtain ⟨bytes, heq, hunits⟩ := State.spaceRead_repliesUnits h <;>
    exact ⟨bytes, congrArg _ heq, hunits⟩

/-- A well-formed write has at least one unit and the data bytes of all its units. -/
theorem write_operands {c : BitVec 7} {z : UnitSize} {d : List Byte}
    (h : (countOk c && d.length == dataBytes true c z) = true) :
    0 < c.toNat ∧ d.length = c.toNat * z.bytes := by
  simp only [countOk, dataBytes, Bool.and_eq_true, bne_iff_ne, beq_iff_eq, if_true] at h
  exact ⟨countOk_pos h.1, h.2⟩

/-- Settles O30: by what a store leaves at each place (`storeBytes_getD`). -/
theorem wr4StoresUnits : Obligations.Wr4StoresUnits := by
  intro s a z n c d hwf h
  obtain ⟨hC, hd⟩ := write_operands hwf
  exact ⟨_, congrArg Host.Outcome.next (State.write4_inRange h), rfl, storeBytes_length _ _,
    fun x => storeBytes_getD hC hd h x⟩

/-! ### Space 6 (R156, R157, R166) -/

/-- The touched bytes by their position: with N = 0 every unit lies at the same place. -/
theorem touched_eq_map (a : Nat) (z : UnitSize) (n : Bool) (c : BitVec 7) :
    touched a z n c =
      (List.range (c.toNat * z.bytes)).map fun p => a + if n then p else p % z.bytes := by
  apply List.ext_getElem?
  intro p
  have hB := UnitSize.bytes_pos z
  by_cases hp : p < c.toNat * z.bytes
  · have hi : p / z.bytes < c.toNat := (Nat.div_lt_iff_lt_mul hB).2 hp
    have hsplit : p / z.bytes * z.bytes + p % z.bytes = p := Nat.div_add_mod' p z.bytes
    have htouched := touched_getElem? (a := a) (incr := n) hi (Nat.mod_lt p hB)
    rw [hsplit] at htouched
    rw [htouched]
    cases n <;> simp [hp]
    rw [Nat.add_assoc, hsplit]
  · rw [List.getElem?_eq_none (by simpa using hp), List.getElem?_eq_none (by simpa using hp)]

/-- Settles O31: the touched bytes in order (`touched_eq_map`), of which each transport byte takes the next
draw (`statsRead_getElem?`, `statsRead_draws`). -/
theorem rd6ReadsStoredBytesAndDraws : Obligations.Rd6ReadsStoredBytesAndDraws := by
  intro s a z n c addr drawn h
  have htouched : touched (s.startAddress .s6 a) z n c =
    (List.range (c.toNat * z.bytes)).map addr := touched_eq_map ..
  have htransport (x : Nat) : isTransportByte x = decide (6 ≤ x ∧ x ≤ 0x11) := by
    simp [isTransportByte]
  have hdrawn (p : Nat) : (((List.range p).map addr).filter isTransportByte).length = drawn p := by
    simp only [List.filter_map, List.length_map, drawn, Function.comp_def, htransport]
  refine ⟨_, (statsRead Config.env s.stats (touched (s.startAddress .s6 a) z n c) s.draws).1,
    congrArg Host.Outcome.next (State.read6_inRange h), ?_, ?_, fun p hp => ?_⟩
  · simp only [statsRead_draws, htouched, hdrawn]
  · rw [statsRead_length, touched_length]
  · have hget : (touched (s.startAddress .s6 a) z n c)[p]? = some (addr p) := by
      simp [htouched, hp]
    have htake : (touched (s.startAddress .s6 a) z n c).take p = (List.range p).map addr := by
      rw [htouched, ← List.map_take, List.take_range, Nat.min_eq_left hp.le]
    rw [statsRead_getElem? _ _ _ _ hget, htake, hdrawn, htransport]
    simp only [decide_eq_true_eq, Config.env]

/-- Settles O32: the stored bytes are `statsByte_statsStore`'s, and the reset-trigger word decides between the
two outcomes of `State.checkResetTrigger`. -/
theorem wr6StoresUnitsAndTriggersReset : Obligations.Wr6StoresUnitsAndTriggersReset := by
  intro s a z n c d hwf h
  obtain ⟨hC, hd⟩ := write_operands hwf
  have hbyte := statsByte_statsStore (m := s.stats) hC hd h
  refine ⟨_, congrArg Host.Outcome.next (State.write6_inRange h), ?_⟩
  generalize statsStore s.stats _ = m at hbyte
  unfold State.checkResetTrigger
  split
  · next h0 => exact ⟨fun x _ => hbyte x, fun _ => rfl, fun hne => absurd h0 hne⟩
  · next h0 => exact ⟨fun x _ => hbyte x, fun he => absurd he h0, fun _ => rfl⟩

/-! ### Info areas (R30, R194, R195) -/

/-- Settles O33: the record's bytes are its fields one after another. -/
theorem infoRecordLayout : Obligations.InfoRecordLayout := by
  intro r
  refine ⟨InfoRecord.bytes_length r, ?_, ?_, ?_, ?_, fun k hk => ?_⟩
  · exact le16_byteOf r.cookie
  · exact le16_byteOf r.memsizes
  · exact le16_byteOf r.memranges
  · exact le16_byteOf r.pointer
  · have hbytes : r.bytes = (halfBytes r.cookie ++ halfBytes r.memsizes ++ halfBytes r.memranges ++
        halfBytes r.pointer) ++ r.name.toList := by simp [InfoRecord.bytes]
    rw [hbytes, List.getD_append_right _ _ _ _ (by simp)]
    simp [hk]

/-- Settles O34: the record's bytes at the touched offsets (`repliesUnits_spaceBytes`). -/
theorem iardAppendsRecordUnits : Obligations.IardAppendsRecordUnits :=
  fun _ _ _ _ _ _ h =>
    ⟨_, congrArg Host.Outcome.next (State.infoRead_inRange h), repliesUnits_spaceBytes ..⟩

/-- Settles O35: a store into the record changes its pointer alone (`InfoRecord.storeBytes_static`), whose
two bytes are `InfoRecord.storeBytes_pointer`'s. -/
theorem iawrStoresPointerBytesOnly : Obligations.IawrStoresPointerBytesOnly := by
  intro s sp a n c d hwf h
  have hwf' : (countOk c && d.length == dataBytes true c .u16) = true := by
    simp only [Instr.wf, Bool.and_eq_true] at hwf ⊢
    exact ⟨hwf.1.1, hwf.2⟩
  obtain ⟨hC, hd⟩ := write_operands hwf'
  refine ⟨_, congrArg Host.Outcome.next (State.infoWrite_inRange h), rfl, fun sp' hne => ?_, ?_⟩
  · rw [State.setInfoRecord_infoRecord, if_neg hne]
  · rw [State.setInfoRecord_infoRecord, if_pos rfl]
    exact ⟨InfoRecord.storeBytes_static _ _, InfoRecord.storeBytes_pointer hC hd⟩

end Sys2Proof.Machine
end

section
/-! Proofs of the statements about commands of memory space 0 that reach no handler, and about every form of
RD0 and WR0 (40_bus.md section 3, 42_dispatch.md sections 3 and 4). -/

namespace Sys2Proof.Machine

/-! ### Every form (R150, R151, R257) -/

/-- A handler failure counts in the memory-access counter, bytes 2 and 3. -/
theorem statsByte_countFailures (m : Vector Byte 32) (k : Nat) {j : Nat} (h2 : j ≠ 2) (h3 : j ≠ 3) :
    statsByte (countFailures m k) j = statsByte m j := by
  induction k generalizing m with
  | zero => rfl
  | succ k ih => rw [countFailures, ih, (bumpCounter_spec (k := 1) rfl).2 j h2 h3]

theorem State.busEffect.onlyBusAndReply {P : Bus → Prop} {s t : State} (h : s.busEffect P t) :
    s.onlyBusAndReply t := by
  obtain ⟨b, bs, k, q, -, hq, rfl⟩ := h
  exact ⟨rfl, hq, List.prefix_append _ _, fun j _ h2 h3 => statsByte_countFailures _ _ h2 h3⟩

theorem State.busWriteEffect.reply {P : Bus → Prop} {s t : State} (h : s.busWriteEffect P t) :
    t.reply = s.reply := by
  obtain ⟨b, k, q, -, -, rfl⟩ := h
  rfl

/-- Settles O39: what a read of space 0 can change (`State.space0Read_busOnly`), its reply's length
(`State.space0Read_length`), and the bytes no region covers (`State.space0Read_unowned`). -/
theorem rd0CompletesInEveryForm : Obligations.Rd0CompletesInEveryForm := by
  intro s a z n c h
  obtain ⟨hlength, hbound⟩ := State.space0Read_length Config.env s (s.startAddress .s0 a) z n c
  exact ⟨_, congrArg Host.Outcome.next (State.read0_inRange h),
    (State.space0Read_busOnly ..).onlyBusAndReply, hlength, hbound,
    fun x hx => State.space0Read_unowned hx ..⟩

/-- A write of memory space 0 changes no byte outside its span that no region covers. -/
theorem State.space0Write_unowned {E : Env} {s : State} {a x : Nat} {z : UnitSize} {n : Bool}
    {c : BitVec 7} {d : List Byte} (hd : d.length = c.toNat * z.bytes) (hx : s.unowned x)
    (hout : ¬ (a ≤ x ∧ x < a + span z n c)) :
    (s.space0Write E a z n c d).rfByte x = s.rfByte x := by
  obtain ⟨b, k, q, hb, -, ht⟩ :=
    State.space0Write_effect (Bus.kept_uncovered E (s.rfByte x) hx) rfl a z n c d hd
      fun b y v h1 h2 hb => (Memory.read_write_ne (by rintro rfl; exact hout ⟨h1, h2⟩)).trans hb
  rw [ht]; exact hb

/-- Settles O44: what a write of space 0 can change (`State.space0Write_busOnly`), and the bytes outside its
span that no region covers (`State.space0Write_unowned`). -/
theorem wr0CompletesInEveryForm : Obligations.Wr0CompletesInEveryForm := by
  intro s a z n c d hwf h
  obtain ⟨-, hd⟩ := write_operands hwf
  have heffect := State.space0Write_busOnly Config.env s (s.startAddress .s0 a) z n c d
  exact ⟨_, congrArg Host.Outcome.next (State.write0_inRange h),
    (State.busEffect_of_write heffect).onlyBusAndReply, heffect.reply,
    fun x hx hout => State.space0Write_unowned hd hx hout⟩

/-! ### Direct access (R110, R165) -/

section
variable (E : Env) (s : State)

variable {E s} in
theorem State.read0_direct {a : Option Half} {z : UnitSize} {n : Bool} {c : BitVec 7}
    (h : s.startAddress .s0 a + span z n c ≤ 65536) (hq : s.request ≠ .hung)
    (hdirect : s.readsDirectly (s.startAddress .s0 a) z n c) :
    s.read0 E a z n c = s.directRead E (touched (s.startAddress .s0 a) z n c) :=
  (State.read0_inRange h).trans (State.space0Read_direct hq hdirect)

variable {E s} in
theorem State.write0_direct {a : Option Half} {z : UnitSize} {n : Bool} {c : BitVec 7}
    {d : List Byte} (hd : d.length = c.toNat * z.bytes)
    (h : s.startAddress .s0 a + span z n c ≤ 65536) (hq : s.request ≠ .hung)
    (hdirect : s.writesDirectly (s.startAddress .s0 a) z n c) :
    s.write0 E a z n c d = s.directWrite E ((touched (s.startAddress .s0 a) z n c).zip d) :=
  (State.write0_inRange h).trans (State.space0Write_direct hq hd hdirect)

theorem State.directRead_handlerCalls (as : List Nat) :
    (s.directRead E as).handlerCalls = s.handlerCalls :=
  Bus.readBytes_induct (P := fun b => Machine.handlerCalls b.calls = s.handlerCalls)
    (fun _ h => (Bus.interleave_handlerCalls ..).trans h) rfl

theorem State.directWrite_handlerCalls (cells : List Host.Cell) :
    (s.directWrite E cells).handlerCalls = s.handlerCalls :=
  Bus.writeBytes_induct (P := fun b => Machine.handlerCalls b.calls = s.handlerCalls)
    (fun _ h => (Bus.interleave_handlerCalls ..).trans h) (fun _ _ _ _ h => h) rfl

end

/-- Settles O40: the read is a direct read of the touched bytes (`State.space0Read_direct`), in which a byte
no hook writes is the register file's (`Bus.readBytes_getElem?`). -/
theorem rd0DirectAppendsRegisterFileBytes : Obligations.Rd0DirectAppendsRegisterFileBytes := by
  intro E s a z n c start t h hq hdirect
  have ht : t = s.directRead E (touched start z n c) := State.read0_direct h hq hdirect
  clear_value t
  subst ht
  refine ⟨⟨_, rfl, ?_, fun i hi j hj hx => ?_⟩, State.directRead_handlerCalls .., fun x hx => ?_, rfl⟩
  · rw [Bus.readBytes_length, touched_length]
  · exact Bus.readBytes_getElem? (touched_getElem? hi hj) hx
  · exact (Bus.readBytes_read hx).2

/-- The register file after a command's data is written to the touched bytes. -/
theorem Memory.read_writeAll_touched {m : Memory} {a : Nat} {z : UnitSize} {n : Bool} {c : BitVec 7}
    {d : List Byte} (hC : 0 < c.toNat) (hd : d.length = c.toNat * z.bytes)
    (hin : a + span z n c ≤ Config.rfSize) (hw : Memory.wf m = true) (x : Nat) :
    Memory.read (Memory.writeAll m ((touched a z n c).zip d)) x =
      afterStore a z n c d x (Memory.read m x) := by
  refine foldl_store_touched (get := (Memory.read · x)) (I := fun m => Memory.wf m = true) hC hd ?_ hw
  intro m' cell hcell hw'
  have hcell := mem_zip_touched hcell
  refine ⟨Memory.wf_write _ hw' (by omega), ?_⟩
  simp only [Memory.read_write hw', eq_comm]

section
variable {E : Env} {s : State} {a : Nat} {z : UnitSize} {n : Bool} {c : BitVec 7} {d : List Byte}
  (hin : a + span z n c ≤ Config.rfSize) (hw : Memory.wf s.bus.rf = true)
include hin hw

/-- A direct write of the touched bytes keeps the register file canonical. -/
theorem State.directWrite_canonical :
    Memory.wf (s.directWrite E ((touched a z n c).zip d)).bus.rf = true :=
  Bus.writeBytes_canonical (fun cell hcell => by have := mem_zip_touched hcell; omega) hw

/-- A direct write of the touched bytes stores the data in every byte that no hook writes. -/
theorem State.directWrite_rfByte (hC : 0 < c.toNat) (hd : d.length = c.toNat * z.bytes) {x : Nat}
    (hx : s.hooksSpare E x) :
    (s.directWrite E ((touched a z n c).zip d)).rfByte x = afterStore a z n c d x (s.rfByte x) :=
  (Bus.writeBytes_read hw (fun cell hcell => by have := mem_zip_touched hcell; omega) hx).trans
    (Memory.read_writeAll_touched hC hd hin hw x)

end

/-- Settles O45: the write is a direct write of the touched bytes (`State.space0Write_direct`), which stores
the data in them (`State.directWrite_rfByte`). -/
theorem wr0DirectStoresUnits : Obligations.Wr0DirectStoresUnits := by
  intro E s a z n c d start t hwf h hq hw hdirect
  obtain ⟨hC, hd⟩ := write_operands hwf
  have ht : t = s.directWrite E ((touched start z n c).zip d) :=
    State.write0_direct hd h hq hdirect
  clear_value t
  subst ht
  exact ⟨rfl, State.directWrite_handlerCalls .., State.directWrite_canonical h hw,
    fun x hx => State.directWrite_rfByte h hw hC hd hx, rfl⟩

/-! ### Units of one and two bytes (R286) -/

section
variable {E : Env} {s : State} {a : Option Half} {z : UnitSize} {n : Bool} {c : BitVec 7}
  {d : List Byte} (hz : busUnit z = false)
include hz

theorem State.read0_handlerCalls_of_subWord :
    (s.read0 E a z n c).handlerCalls = s.handlerCalls := by
  by_cases h : s.startAddress .s0 a + span z n c ≤ 65536
  · simp only [State.read0_inRange h, State.space0Read, hz, Bool.false_eq_true, if_false]
    exact State.directRead_handlerCalls ..
  · rw [State.read0_outOfRange (Nat.lt_of_not_le h)]; rfl

theorem State.write0_handlerCalls_of_subWord :
    (s.write0 E a z n c d).handlerCalls = s.handlerCalls := by
  by_cases h : s.startAddress .s0 a + span z n c ≤ 65536
  · simp only [State.write0_inRange h, State.space0Write, hz, Bool.false_eq_true, if_false]
    exact State.directWrite_handlerCalls ..
  · rw [State.write0_outOfRange (Nat.lt_of_not_le h)]; rfl

end

/-- Settles O46: units of one or two bytes are accessed directly, and direct accesses call no handler. -/
theorem subWordUnitsNeverCallHandlers : Obligations.SubWordUnitsNeverCallHandlers := by
  intro s t a z n c d hbits h
  have hz : busUnit z = false := by
    cases z with
    | u8 => rfl
    | u16 => rfl
    | u32 => exact absurd hbits (by decide)
    | u64 => exact absurd hbits (by decide)
  rcases h with h | h <;> cases h
  · exact State.read0_handlerCalls_of_subWord hz
  · exact State.write0_handlerCalls_of_subWord hz

/-! ### A payload that writes and reads back (R167) -/

theorem afterStore_map_run {a : Nat} {z : UnitSize} {c : BitVec 7} {d : List Byte}
    (hd : d.length = c.toNat * z.bytes) (before : Nat → Byte) :
    (touched a z true c).map (fun x => afterStore a z true c d x (before x)) = d := by
  rw [touched_incr, addressRun, List.map_map]
  refine List.ext_getElem (by simp [hd]) fun p hp hp' => ?_
  have hlt : p < c.toNat * z.bytes := hd ▸ hp'
  simp [afterStore, finalIndex, span, hlt, List.getElem?_eq_getElem hp']

theorem State.directWrite_hooksSpare {E : Env} {s : State} {x : Nat} (hx : s.hooksSpare E x)
    (cells : List Host.Cell) : (s.directWrite E cells).hooksSpare E x :=
  Bus.writeBytes_induct (P := fun b => b.hooksSpare E s.regions x)
    (fun _ h => (Bus.interleave_hooksSpare h).1) (fun _ _ _ _ h => h) hx

section
variable {E : Env} {s : State} {a : Half} {z : UnitSize} {c : BitVec 7} {d : List Byte}
  (hC : 0 < c.toNat) (hd : d.length = c.toNat * z.bytes) (hw : Memory.wf s.bus.rf = true)
  (hin : a.toNat + span z true c ≤ 65536)
  (hspare : ∀ x ∈ touched a.toNat z true c, s.hooksSpare E x)
include hC hd hw hin hspare

/-- After a direct write of bytes no hook writes, and whatever the update context does at the next
interleaving point, a direct read of the same bytes gives the data. -/
theorem Bus.readBytes_after_directWrite :
    let t := s.directWrite E ((touched a.toNat z true c).zip d)
    (Bus.readBytes E s.regions (touched a.toNat z true c) (t.bus.interleave E s.regions)).1 = d := by
  intro t
  have hspare_t : ∀ x ∈ touched a.toNat z true c, t.bus.hooksSpare E s.regions x :=
    fun x hx => State.directWrite_hooksSpare (hspare x hx) _
  have hbyte : ∀ x ∈ touched a.toNat z true c,
      Memory.read (t.bus.interleave E s.regions).rf x =
        afterStore a.toNat z true c d x (s.rfByte x) := fun x hx =>
    (Bus.interleave_hooksSpare (hspare_t x hx)).2.trans
      (State.directWrite_rfByte hin hw hC hd (hspare x hx))
  rw [Bus.readBytes_hooksSpare fun x hx => (Bus.interleave_hooksSpare (hspare_t x hx)).1,
    List.map_congr_left hbyte, afterStore_map_run hd]

end

/-- Settles O47: both commands are direct (`State.write0_direct`, `State.read0_direct`), and the read gives
the data (`Bus.readBytes_after_directWrite`). -/
theorem writeThenReadRoundTrip : Obligations.WriteThenReadRoundTrip := by
  intro E s a z c d rest w r t u hq hr hc hw hwf hpayload hin hwrite hread hspare
  obtain ⟨hC, hd⟩ := write_operands hwf
  have hrwf : r.wf = true := by
    simp only [w, r, Instr.wf, Bool.and_eq_true] at hwf ⊢
    exact hwf.1
  have hdecode_w : decode (s.payload.drop s.cursor) = .ok (w, w.length) := by
    rw [hpayload]; exact decode_encode_append hwf _
  have ht : t = ((s.interleave E).advance w.length).directWrite E
      ((touched a.toNat z true c).zip d) :=
    State.write0_direct (s := (s.interleave E).advance w.length) (a := some a) hd hin
      (by simp [hq]) hwrite
  have hcursor : t.cursor = s.cursor + w.length := by rw [ht]; rfl
  have hpayload_t : t.payload.drop t.cursor = encode r ++ rest := by
    rw [hcursor, ← List.drop_drop, ht]
    exact (congrArg _ hpayload).trans (List.drop_left' (encode_length hwf))
  have hdecode_r : decode (t.payload.drop t.cursor) = .ok (r, r.length) := by
    rw [hpayload_t]; exact decode_encode_append hrwf _
  have hu : u = ((t.interleave E).advance r.length).directRead E (touched a.toNat z true c) :=
    State.read0_direct (s := (t.interleave E).advance r.length) (a := some a) hin
      (by rw [ht]; simp [State.directWrite, hq]) (by rw [ht]; exact hread)
  have hreply : u.reply = s.reply ++ d := by
    rw [hu, ht]
    refine congrArg (s.reply ++ ·) (Bus.readBytes_after_directWrite
      (s := (s.interleave E).advance w.length) hC hd (Bus.interleave_canonical hw) hin
      (fun x hx => (Bus.interleave_hooksSpare (hspare x (mem_touched hx).1 (mem_touched hx).2)).1))
  have hcursor_u : u.cursor = t.cursor + r.length := by rw [hu]; rfl
  have hpayload_u : u.payload = t.payload := by rw [hu]; rfl
  refine ⟨by rw [ht]; rfl, hreply, by rw [hpayload_u, ht]; rfl, ?_, ?_⟩
  · rw [hcursor_u, hpayload_u, ← List.drop_drop, hpayload_t]
    exact List.drop_left' (encode_length hrwf)
  · rintro rfl
    have hq_t : t.request = .busy := by rw [ht]; exact hq
    have hr_t : t.resetRequested = false := by rw [ht]; exact hr
    have hc_t := cursor_le_of_decode_ok hdecode_r
    exact ⟨(step_of_decode_ok hq hr hc hdecode_w).trans rfl,
      (step_of_decode_ok hq_t hr_t (by omega) hdecode_r).trans rfl⟩

end Sys2Proof.Machine
end

section
/-! Proofs of the statements about commands of memory space 0 that a handler serves (40_bus.md section 3,
42_dispatch.md section 4). -/

namespace Sys2Proof.Machine

/-! ### One call of a handler (R107, R108, R165, R257) -/

theorem countsStatus_ite (m : Vector Byte 32) (st : Nat) :
    countsStatus m (if st = 0 then m else bumpCounter m .handlerStatus) st := by
  obtain ⟨hword, hrest⟩ := bumpCounter_spec (m := m) (e := .handlerStatus) (k := 1) rfl
  refine ⟨fun h => if_pos h, fun h => ?_⟩
  rw [if_neg h]
  exact ⟨hword, fun j _ => hrest j⟩

section
variable (E : Env) (s : State) (r : Region) (idx a : Nat)

/-- The run of region idx's read handler that a served read transfer makes (R107, R109). -/
def State.readHandlerRun (n : Nat) : Option (Vector Word n × Nat) × Bus :=
  let b := s.bus.interleave E s.regions
  let off := a - r.base.toNat
  Bus.runRead E s.regions idx r b.fresh off n (b.called (.read idx off n))

/-- The run of region idx's write handler that a served write transfer makes (R108, R109). -/
def State.writeHandlerRun (words : List Word) : Option (Unit × Nat) × Bus :=
  let b := s.bus.interleave E s.regions
  let off := a - r.base.toNat
  Bus.runWrite E s.regions idx r b.fresh off words (b.called (.write idx off words))

/-- The call itself is the one handler call that is added. -/
theorem State.readHandlerRun_handlerCalls (n : Nat) :
    Machine.handlerCalls (s.readHandlerRun E r idx a n).2.calls =
      s.handlerCalls ++ [.read idx (a - r.base.toNat) n] :=
  (Bus.runCode_handlerCalls ..).trans
    ((handlerCalls_append ..).trans (congrArg (· ++ _) (Bus.interleave_handlerCalls ..)))

theorem State.writeHandlerRun_handlerCalls (words : List Word) :
    Machine.handlerCalls (s.writeHandlerRun E r idx a words).2.calls =
      s.handlerCalls ++ [.write idx (a - r.base.toNat) words] :=
  (Bus.runCode_handlerCalls ..).trans
    ((handlerCalls_append ..).trans (congrArg (· ++ _) (Bus.interleave_handlerCalls ..)))

end

section
variable {E : Env} {s : State} {r : Region} {idx a n st : Nat} {d : List Byte}

section
variable (hres : resolve s.strictEnd s.regions a n = some (r, idx)) (hread : r.read = true)
include hres hread

theorem State.busRead_of_served :
    s.busRead E a n = (BusReply.ofResult Vector.toList (s.readHandlerRun E r idx a n).1,
      { s with bus := (s.readHandlerRun E r idx a n).2 }) := by
  rw [State.busRead_of_mapped hres, if_pos hread]; rfl

theorem State.readTransfer_of_hung (h : (s.readHandlerRun E r idx a n).1 = none) :
    s.readTransfer E a n = State.hang { s with bus := (s.readHandlerRun E r idx a n).2 } := by
  rw [State.readTransfer, State.busRead_of_served hres hread, h]; rfl

theorem State.readTransfer_of_returned {words : Vector Word n}
    (h : (s.readHandlerRun E r idx a n).1 = some (words, st)) :
    s.readTransfer E a n =
      (State.countStatus { s with bus := (s.readHandlerRun E r idx a n).2 } st).emit
        (wordsBytes words.toList) := by
  rw [State.readTransfer, State.busRead_of_served hres hread, h]; rfl

/-- A read transfer that a read handler serves is one call of it. -/
theorem State.readTransfer_served : s.servedRead E r idx a n (s.readTransfer E a n) := by
  have hcalls := State.readHandlerRun_handlerCalls E s r idx a n
  cases hrun : (s.readHandlerRun E r idx a n).1 with
  | none =>
    rw [State.readTransfer_of_hung hres hread hrun]
    exact ⟨rfl, hcalls, fun _ _ h => (nomatch hrun.symm.trans h), fun _ => rfl⟩
  | some result =>
    obtain ⟨words, st⟩ := result
    rw [State.readTransfer_of_returned hres hread hrun, State.countStatus_eq]
    refine ⟨rfl, hcalls, fun _ _ h => ?_, fun h => (nomatch hrun.symm.trans h)⟩
    cases hrun.symm.trans h
    exact ⟨rfl, countsStatus_ite s.stats st⟩

end

section
variable (hres : resolve s.strictEnd s.regions a (wordsOf d).length = some (r, idx))
  (hwrite : r.write = true)
include hres hwrite

theorem State.busWrite_of_served :
    s.busWrite E a (wordsOf d) =
      (BusReply.ofResult id (s.writeHandlerRun E r idx a (wordsOf d)).1,
        { s with bus := (s.writeHandlerRun E r idx a (wordsOf d)).2 }) := by
  rw [State.busWrite_of_mapped hres, if_pos hwrite]; rfl

theorem State.writeTransfer_of_hung (h : (s.writeHandlerRun E r idx a (wordsOf d)).1 = none) :
    s.writeTransfer E a d =
      State.hang { s with bus := (s.writeHandlerRun E r idx a (wordsOf d)).2 } := by
  simp only [State.writeTransfer, State.busWrite_of_served hres hwrite, h]; rfl

theorem State.writeTransfer_of_returned
    (h : (s.writeHandlerRun E r idx a (wordsOf d)).1 = some ((), st)) :
    s.writeTransfer E a d =
      State.countStatus { s with bus := (s.writeHandlerRun E r idx a (wordsOf d)).2 } st := by
  simp only [State.writeTransfer, State.busWrite_of_served hres hwrite, h]; rfl

/-- A write transfer that a write handler serves is one call of it. -/
theorem State.writeTransfer_served : s.servedWrite E r idx a d (s.writeTransfer E a d) := by
  have hcalls := State.writeHandlerRun_handlerCalls E s r idx a (wordsOf d)
  cases hrun : (s.writeHandlerRun E r idx a (wordsOf d)).1 with
  | none =>
    rw [State.writeTransfer_of_hung hres hwrite hrun]
    exact ⟨rfl, hcalls, fun _ h => (nomatch hrun.symm.trans h), fun _ => rfl⟩
  | some result =>
    obtain ⟨_, st⟩ := result
    rw [State.writeTransfer_of_returned hres hwrite hrun, State.countStatus_eq]
    refine ⟨rfl, hcalls, fun _ h => ?_, fun h => (nomatch hrun.symm.trans h)⟩
    cases hrun.symm.trans h
    exact ⟨rfl, countsStatus_ite s.stats st⟩

end

end

section
variable {E : Env} {s : State} {a : Option Half} {z : UnitSize} {c : BitVec 7} {d : List Byte}
  (hz : busUnit z = true)
include hz

/-- With N = 1 a read of 4- or 8-byte units is one transfer. -/
theorem State.read0_eq_readTransfer (h : s.startAddress .s0 a + span z true c ≤ 65536) :
    s.read0 E a z true c = s.readTransfer E (s.startAddress .s0 a) (c.toNat * z.bytes / 4) := by
  rw [State.read0_inRange h, State.space0Read, if_pos hz, if_pos rfl]

theorem State.write0_eq_writeTransfer (h : s.startAddress .s0 a + span z true c ≤ 65536) :
    s.write0 E a z true c d = s.writeTransfer E (s.startAddress .s0 a) d := by
  rw [State.write0_inRange h, State.space0Write, if_pos hz, if_pos rfl]

/-- With N = 0 it is one transfer per unit. -/
theorem State.read0_eq_readTransfers (h : s.startAddress .s0 a + span z false c ≤ 65536) :
    s.read0 E a z false c =
      State.readTransfers E (s.startAddress .s0 a) (z.bytes / 4) c.toNat s := by
  rw [State.read0_inRange h, State.space0Read, if_pos hz, if_neg (by decide)]

theorem State.write0_eq_writeTransfers (h : s.startAddress .s0 a + span z false c ≤ 65536) :
    s.write0 E a z false c d =
      State.writeTransfers E (s.startAddress .s0 a) z.bytes c.toNat d s := by
  rw [State.write0_inRange h, State.space0Write, if_pos hz, if_neg (by decide)]

end

/-- Settles O41: the whole run is one transfer that the handler serves (`State.readTransfer_served`). -/
theorem rd0HandlerOneCall : Obligations.Rd0HandlerOneCall := by
  intro E s a z c r idx start n hz h hres hread
  refine ⟨?_, rfl⟩
  rw [State.read0_eq_readTransfer hz h]
  exact State.readTransfer_served hres hread

/-! ### What a write handler leaves (R22, R102) -/

/-- A handler that makes no write leaves every byte that no hook writes. -/
theorem Bus.runCode_writesNothing {α : Type} {E : Env} {regions : List Region} {idx : Nat}
    {r : Region} {code : OwnerCode α} (hcode : OwnerCode.writesNothing code) (k : Nat)
    (seen : List (List Byte)) {b : Bus} {x : Nat} (hx : b.hooksSpare E regions x) :
    Memory.read (Bus.runCode E regions idx r code k seen b).2.rf x = Memory.read b.rf x := by
  refine (Bus.runCode_induct
    (P := fun b' => b'.hooksSpare E regions x ∧ Memory.read b'.rf x = Memory.read b.rf x)
    (fun b' h => ?_) (fun b' act hact h => ?_) k seen ⟨hx, rfl⟩).2
  · obtain ⟨hspare, hread⟩ := Bus.interleave_hooksSpare h.1
    exact ⟨hspare, hread.trans h.2⟩
  · obtain ⟨seen', hseen⟩ := hact
    have hrf : (Bus.act idx r b' act).rf = b'.rf :=
      Bus.act_rf fun off v hw => hcode seen' off v (hw ▸ hseen)
    refine ⟨Bus.hooksSpare_of h.1 fun hs => ?_, by rw [hrf]; exact h.2⟩
    rw [Bus.act_update] at hs ⊢
    exact ⟨rfl, .inl hs⟩

/-- A handler leaves every byte that no region covers. -/
theorem Bus.runCode_uncovered {α : Type} {E : Env} {regions : List Region} {idx : Nat} {r : Region}
    (hr : r ∈ regions) (code : OwnerCode α) (k : Nat) (seen : List (List Byte)) {b : Bus} {x : Nat}
    (hx : ∀ r ∈ regions, ¬ r.covers x) :
    Memory.read (Bus.runCode E regions idx r code k seen b).2.rf x = Memory.read b.rf x :=
  have hkept := Bus.kept_uncovered E (Memory.read b.rf x) hx
  Bus.runCode_induct hkept.interleave (fun b' act _ => hkept.act r hr idx b' act) k seen rfl

/-- Settles O42: the whole run is one transfer that the handler serves (`State.writeTransfer_served`), so
that the register file is as the handler's run leaves it. -/
theorem wr0HandlerOneCall : Obligations.Wr0HandlerOneCall := by
  intro E s a z c d r idx start n t hz hwf h hres hwrite
  obtain ⟨-, hd⟩ := write_operands hwf
  have hd4 : d.length = 4 * n := by rw [hd]; exact (busUnit_count hz c.toNat).symm
  have hwords := wordsOf_length n d hd4
  have ht : t = s.writeTransfer E start d := State.write0_eq_writeTransfer hz h
  have hserved : s.servedWrite E r idx start d t := by
    rw [ht]; exact State.writeTransfer_served (by rw [hwords]; exact hres) hwrite
  refine ⟨hserved, hwords, wordsBytes_wordsOf n d hd4, fun x hx => ?_, fun hcode x hx => ?_, rfl⟩ <;>
    rw [State.rfByte, hserved.1]
  · exact (Bus.runCode_uncovered (mem_of_resolve hres) _ _ _ hx).trans
      (Bus.interleave_hooksSpare (Bus.hooksSpare_of_uncovered hx)).2
  · obtain ⟨hspare, hread⟩ := Bus.interleave_hooksSpare hx
    have hrun := Bus.runCode_writesNothing (idx := idx) (r := r)
      (b := (s.bus.interleave E s.regions).called (.write idx (start - r.base.toNat) (wordsOf d)))
      hcode (E.handlerLimit (s.bus.interleave E s.regions).fresh) [] hspare
    exact hrun.trans hread

end Sys2Proof.Machine
end

section
/-! Proof of the statement about repeated units that a handler serves (42_dispatch.md section 4). -/

namespace Sys2Proof.Machine

/-! ### Chains of calls -/

/-- From s to t in at most C calls, of which call i does what `call i` says: exactly C, unless one of them
leaves the request context stuck, which ends the chain. -/
def callChain (call : Nat → State → State → Prop) (C : Nat) (s t : State) : Prop :=
  ∃ (m : Nat) (u : Nat → State), m ≤ C ∧ u 0 = s ∧ t = u m ∧
    (∀ i < m, (u i).request ≠ .hung ∧ call i (u i) (u (i + 1))) ∧
    (m = C ∨ (u m).request = .hung)

section
variable {call : Nat → State → State → Prop} {C : Nat} {s t v : State}

theorem callChain_zero : callChain call 0 s s :=
  ⟨0, fun _ => s, le_rfl, rfl, rfl, fun _ h => absurd h (Nat.not_lt_zero _), .inl rfl⟩

theorem callChain_hung (hs : s.request ≠ .hung) (hcall : call 0 s t) (ht : t.request = .hung) :
    callChain call (C + 1) s t := by
  refine ⟨1, fun | 0 => s | _ + 1 => t, by omega, rfl, rfl, fun i hi => ?_, .inr ht⟩
  obtain rfl := Nat.lt_one_iff.1 hi
  exact ⟨hs, hcall⟩

theorem callChain_succ (hs : s.request ≠ .hung) (hcall : call 0 s t)
    (hrest : callChain (fun i => call (i + 1)) C t v) : callChain call (C + 1) s v := by
  obtain ⟨m, u, hm, rfl, rfl, hsteps, hend⟩ := hrest
  refine ⟨m + 1, fun | 0 => s | i + 1 => u i, by omega, rfl, rfl, fun i hi => ?_, ?_⟩
  · cases i with
    | zero => exact ⟨hs, hcall⟩
    | succ i => exact hsteps i (by omega)
  · exact hend.imp (congrArg (· + 1)) id

/-- A chain whose calls all return has its full length, and its calls are the handler calls it adds. -/
theorem callChain_returns {P : State → Prop} {handlerCall : Nat → OwnerCall}
    (hcall : ∀ i u v, P u → call i u v → P v ∧ v.request = u.request ∧
      v.handlerCalls = u.handlerCalls ++ [handlerCall i])
    (hP : P s) (hs : s.request ≠ .hung) (h : callChain call C s t) :
    t.request ≠ .hung ∧ t.handlerCalls = s.handlerCalls ++ (List.range C).map handlerCall := by
  obtain ⟨m, u, -, rfl, rfl, hsteps, hend⟩ := h
  have hprefix : ∀ i ≤ m, P (u i) ∧ (u i).request = (u 0).request ∧
      (u i).handlerCalls = (u 0).handlerCalls ++ (List.range i).map handlerCall := by
    intro i hi
    induction i with
    | zero => exact ⟨hP, rfl, by simp⟩
    | succ i ih =>
      obtain ⟨hPi, hmode, hcalls⟩ := ih (by omega)
      obtain ⟨hPv, hmode', hcalls'⟩ := hcall i _ _ hPi (hsteps i (by omega)).2
      refine ⟨hPv, hmode'.trans hmode, ?_⟩
      rw [hcalls', hcalls, List.range_succ, List.map_append, List.append_assoc]
      rfl
  obtain ⟨-, hmode, hcalls⟩ := hprefix m le_rfl
  have hgoes : (u m).request ≠ .hung := hmode ▸ hs
  obtain rfl : m = C := hend.resolve_right hgoes
  exact ⟨hgoes, hcalls⟩

end

/-! ### The transfers of a command with N = 0 (R164, R293) -/

section
variable {E : Env} {r : Region} {idx a n : Nat} {s t : State}

/-- A transfer leaves the region table and the end test, which decide who serves the next one. -/
theorem State.readTransfer_resolve (E : Env) (s : State) (a n b m : Nat) :
    resolve (s.readTransfer E a n).strictEnd (s.readTransfer E a n).regions b m =
      resolve s.strictEnd s.regions b m := by
  obtain ⟨hregions, hstrict, -⟩ := State.busEffect_fields
    (State.readTransfer_effect (E := E) (s := s) (Bus.kept_true _ _) trivial a n)
  rw [hregions, hstrict]

theorem State.writeTransfer_resolve (E : Env) (s : State) (a b m : Nat) (d : List Byte) :
    resolve (s.writeTransfer E a d).strictEnd (s.writeTransfer E a d).regions b m =
      resolve s.strictEnd s.regions b m := by
  obtain ⟨hregions, hstrict, -⟩ := State.busEffect_fields (State.busEffect_of_write
    (State.writeTransfer_effect (E := E) (s := s) (Bus.kept_true _ _) trivial a d
      fun _ _ _ _ _ => trivial))
  rw [hregions, hstrict]

/-- One read transfer per unit is a chain of calls of the read handler that serves it. -/
theorem State.readTransfers_callChain (hread : r.read = true) (C : Nat) (hs : s.request ≠ .hung)
    (hres : resolve s.strictEnd s.regions a n = some (r, idx)) :
    callChain (fun _ => State.servedRead E r idx a n) C s (State.readTransfers E a n C s) := by
  induction C generalizing s with
  | zero => exact callChain_zero
  | succ C ih =>
    have hserved := State.readTransfer_served (E := E) hres hread
    rw [State.readTransfers]
    split
    · next hhung => exact callChain_hung hs hserved hhung
    · next hgoes =>
      exact callChain_succ hs hserved (ih hgoes ((State.readTransfer_resolve ..).trans hres))

theorem unit_succ (d : List Byte) (B i : Nat) :
    ((d.drop B).drop (i * B)).take B = (d.drop ((i + 1) * B)).take B := by
  rw [List.drop_drop, Nat.succ_mul, Nat.add_comm]

/-- One write transfer per unit is a chain of calls of the write handler that serves it, each with its
unit's words. -/
theorem State.writeTransfers_callChain {B : Nat} (hB : B = 4 * n) (hwrite : r.write = true) (C : Nat)
    {d : List Byte} (hd : d.length = C * B) (hs : s.request ≠ .hung)
    (hres : resolve s.strictEnd s.regions a n = some (r, idx)) :
    callChain (fun i => State.servedWrite E r idx a ((d.drop (i * B)).take B)) C s
      (State.writeTransfers E a B C d s) := by
  induction C generalizing s d with
  | zero => exact callChain_zero
  | succ C ih =>
    rw [Nat.succ_mul] at hd
    have hwords : (wordsOf (d.take B)).length = n := wordsOf_length n _ (by simp; omega)
    have hserved := State.writeTransfer_served (E := E) (d := d.take B) (hwords ▸ hres) hwrite
    have hfirst : State.servedWrite E r idx a ((d.drop (0 * B)).take B) s
        (s.writeTransfer E a (d.take B)) := by simpa using hserved
    rw [State.writeTransfers]
    split
    · next hhung => exact callChain_hung hs hfirst hhung
    · next hgoes =>
      refine callChain_succ hs hfirst ?_
      simp only [← unit_succ]
      exact ih (by simp; omega) hgoes ((State.writeTransfer_resolve ..).trans hres)

/-! ### Handlers that return -/

/-- A call whose run returns leaves the request context going, and the region table. -/
theorem State.servedRead.of_returns (h : State.servedRead E r idx a n s t)
    (hret : (s.readHandlerRun E r idx a n).1.isSome = true) :
    t.regions = s.regions ∧ t.request = s.request := by
  obtain ⟨-, -, hreturned, -⟩ := h
  obtain ⟨⟨words, st⟩, hrun⟩ := Option.isSome_iff_exists.1 hret
  rw [(hreturned words st hrun).1]
  exact ⟨rfl, rfl⟩

theorem State.servedWrite.of_returns {d : List Byte} (h : State.servedWrite E r idx a d s t)
    (hret : (s.writeHandlerRun E r idx a (wordsOf d)).1.isSome = true) :
    t.regions = s.regions ∧ t.request = s.request := by
  obtain ⟨-, -, hreturned, -⟩ := h
  obtain ⟨⟨_, st⟩, hrun⟩ := Option.isSome_iff_exists.1 hret
  rw [(hreturned st hrun).1]
  exact ⟨rfl, rfl⟩

variable {C : Nat} (hs : s.request ≠ .hung)
include hs

/-- A chain of calls of a read handler that returns. -/
theorem servedRead_chain_returns
    (hret : ∀ draw b,
      (Bus.runRead E s.regions idx r draw (a - r.base.toNat) n b).1.isSome = true)
    (h : callChain (fun _ => State.servedRead E r idx a n) C s t) :
    t.request ≠ .hung ∧ t.handlerCalls =
      s.handlerCalls ++ List.replicate C (.read idx (a - r.base.toNat) n) := by
  rw [← List.length_range (n := C), ← List.map_const']
  refine callChain_returns (P := fun u => u.regions = s.regions) (fun _ u v hu hserved => ?_) rfl hs h
  have hrun : (u.readHandlerRun E r idx a n).1.isSome = true := by
    rw [State.readHandlerRun, hu]; exact hret _ _
  obtain ⟨hregions, hmode⟩ := hserved.of_returns hrun
  exact ⟨hregions.trans hu, hmode, hserved.2.1⟩

/-- A chain of calls of a write handler that returns. -/
theorem servedWrite_chain_returns {unit : Nat → List Byte}
    (hret : ∀ draw words b,
      (Bus.runWrite E s.regions idx r draw (a - r.base.toNat) words b).1.isSome = true)
    (h : callChain (fun i => State.servedWrite E r idx a (unit i)) C s t) :
    t.handlerCalls = s.handlerCalls ++
      (List.range C).map fun i => .write idx (a - r.base.toNat) (wordsOf (unit i)) := by
  refine (callChain_returns (P := fun u => u.regions = s.regions) (fun i u v hu hserved => ?_)
    rfl hs h).2
  have hrun : (u.writeHandlerRun E r idx a (wordsOf (unit i))).1.isSome = true := by
    rw [State.writeHandlerRun, hu]; exact hret _ _ _
  obtain ⟨hregions, hmode⟩ := hserved.of_returns hrun
  exact ⟨hregions.trans hu, hmode, hserved.2.1⟩

end

/-- Settles O43: with N = 0 a command is one transfer per unit, and those are a chain of calls of the handler
that serves them. -/
theorem repeatedUnitsCallHandlerCTimes : Obligations.RepeatedUnitsCallHandlerCTimes := by
  intro E s a z c d r idx start off n unit hz hwf h hs hres
  obtain ⟨-, hd⟩ := write_operands hwf
  have hB : z.bytes = 4 * n := (busUnit_bytes hz).symm
  refine ⟨fun hread => ?_, fun hwrite => ?_, rfl, rfl⟩
  · have hchain := State.readTransfers_callChain (E := E) hread c.toNat hs hres
    rw [← State.read0_eq_readTransfers hz h] at hchain
    refine ⟨hchain, fun hret => ?_⟩
    obtain ⟨hgoes, hcalls⟩ := servedRead_chain_returns hs hret hchain
    refine ⟨hcalls, ?_⟩
    rw [State.read0_inRange h] at hgoes ⊢
    exact (State.space0Read_length E s start z false c).1 hgoes
  · have hchain := State.writeTransfers_callChain (E := E) hB hwrite c.toNat hd hs hres
    rw [← State.write0_eq_writeTransfers hz h] at hchain
    exact ⟨hchain, fun hret => servedWrite_chain_returns hs hret hchain⟩

end Sys2Proof.Machine
end

section
/-! Proofs of the statements about registration at boot and about the module, pin and IDROM bytes boot writes
(40_bus.md section 1, 44_descriptors.md). -/

namespace Sys2Proof.Machine

/-! ### Registration (R100, R101) -/

theorem registerRegion_of_full {table : List Region} (h : table.length = Config.maxRegions)
    (r : Region) : registerRegion table r = none := if_pos h

theorem registerRegion_of_lt {table : List Region} (h : table.length < Config.maxRegions)
    (r : Region) : registerRegion table r = some (table ++ [r]) := if_neg h.ne

/-- The owners that boot registers, beside the regions of `registerAll_fst`. -/
theorem registerAll_snd (ds : List RegionDecl) (table : List Region) (owners : List (List Byte))
    (h : table.length ≤ Config.maxRegions) :
    (registerAll ds table owners).2 =
      owners ++ (ds.map (·.owned)).take (Config.maxRegions - table.length) := by
  induction ds generalizing table owners with
  | nil => simp [registerAll]
  | cons d ds ih =>
    rcases h.lt_or_eq with hlt | hfull
    · have hroom : Config.maxRegions - table.length =
          Config.maxRegions - (table ++ [d.region]).length + 1 := by
        rw [List.length_append, List.length_singleton]; omega
      rw [registerAll, registerRegion_of_lt hlt, hroom, List.map_cons, List.take_succ_cons]
      simpa using ih (table ++ [d.region]) (owners ++ [d.owned]) (by simpa using hlt)
    · rw [registerAll, registerRegion_of_full hfull]
      simpa [hfull] using ih table owners h

/-- Settles O50: one registration by its two cases, and boot's by `registerAll_fst` and
`registerAll_snd`. -/
theorem bootRegistersTheFirstEight : Obligations.BootRegistersTheFirstEight := by
  refine ⟨fun table r => ⟨fun h => registerRegion_of_full h r, fun h => registerRegion_of_lt h r⟩,
    fun c => ⟨?_, ?_⟩⟩
  · rw [State.boot_regions]; exact registerAll_fst c.regions [] [] (Nat.zero_le _)
  · rw [State.boot_bus_owners]; exact registerAll_snd c.regions [] [] (Nat.zero_le _)

/-! ### Fields and entries of a byte run -/

theorem State.rfByte_of_holdsBytes {s : State} {a k : Nat} {bytes : List Byte} {v : Byte}
    (h : s.holdsBytes a bytes) (hk : bytes[k]? = some v) : s.rfByte (a + k) = v := by
  obtain ⟨hlt, -⟩ := List.getElem?_eq_some_iff.1 hk
  rw [State.holdsBytes] at h
  rw [← h] at hk
  simpa [hlt] using hk

/-- An entry of an array whose entries have n bytes each. -/
theorem State.holdsBytes_entry {α : Type} {f : α → List Byte} {n : Nat} (hf : ∀ x, (f x).length = n)
    {s : State} {a k : Nat} {xs : List α} {x : α} (h : s.holdsBytes a (xs.flatMap f))
    (hk : xs[k]? = some x) : s.holdsBytes (a + n * k) (f x) := by
  refine State.holdsBytes_of_getD fun j hj => ?_
  have hget := flatMap_const_getElem? hf hk (hf x ▸ hj)
  rw [List.getElem?_eq_getElem hj] at hget
  rw [Nat.add_assoc, State.rfByte_of_holdsBytes h hget, List.getD_eq_getElem _ _ hj]

/-! ### The IDROM header (R212) -/

/-- Settles O52: the header that boot places, read field by field. -/
theorem bootWritesIdromHeader : Obligations.BootWritesIdromHeader := by
  intro c w
  have h := State.boot_holds_idrom c
  simp only [idromBytes, List.append_assoc, State.holdsBytes_append, wordBytes_length,
    Vector.length_toList] at h
  obtain ⟨htype, hmodules, hpins, hname, hsize, hfpgaPins, hports, hwidth, hportWidth, hlow, hhigh,
    hinstance0, hinstance1, hregister0, hregister1⟩ := h
  exact ⟨State.rfWord_of_holdsBytes htype, State.rfWord_of_holdsBytes hmodules,
    State.rfWord_of_holdsBytes hpins, fun k hk => State.rfByte_of_holdsBytes hname (by simp [hk]),
    State.rfWord_of_holdsBytes hsize, State.rfWord_of_holdsBytes hfpgaPins,
    State.rfWord_of_holdsBytes hports, State.rfWord_of_holdsBytes hwidth,
    State.rfWord_of_holdsBytes hportWidth, State.rfWord_of_holdsBytes hlow,
    State.rfWord_of_holdsBytes hhigh, State.rfWord_of_holdsBytes hinstance0,
    State.rfWord_of_holdsBytes hinstance1, State.rfWord_of_holdsBytes hregister0,
    State.rfWord_of_holdsBytes hregister1⟩

/-! ### The module descriptors (R216 to R219) -/

/-- With at most 36 modules the array and its sentinel end below the pins. -/
theorem State.boot_holds_modules {c : BootParams} (hc : c.modules.length ≤ 36) :
    (State.boot c).holdsBytes 0x0440 (moduleArrayBytes c.modules) := by
  refine State.holdsBytes_of_getD fun k hk => ?_
  have hlt : k < 12 * (c.modules.length + 1) := by rwa [moduleArrayBytes_length] at hk
  have hrf : 0x0440 + k < Config.rfSize := by rw [Config.rfSize]; omega
  rw [State.rfByte, State.boot_bus_rf, bootRegisterFile_read c hrf,
    lastCell_place_below _ (by omega), lastCell_place_inside hk]
  rfl

/-- The fields of a module descriptor (R217). -/
theorem State.module_fields_of_holdsBytes {s : State} {a : Nat} {m : ModuleDesc}
    (h : s.holdsBytes a (moduleBytes m)) :
    s.rfByte a = m.gtag ∧ s.rfByte (a + 1) = m.version ∧ s.rfByte (a + 2) = m.clockTag ∧
      s.rfByte (a + 3) = m.instances ∧ le16 (s.rfByte (a + 4)) (s.rfByte (a + 5)) = m.base ∧
      s.rfByte (a + 6) = m.registers ∧ s.rfByte (a + 7) = m.strides ∧
      s.rfWord (a + 8) = m.multRegs := by
  have hbase : le16 (s.rfByte (a + 4)) (s.rfByte (a + 5)) = m.base := by
    rw [State.rfByte_of_holdsBytes (k := 4) (v := byteOf m.base 0) h rfl,
      State.rfByte_of_holdsBytes (k := 5) (v := byteOf m.base 1) h rfl, le16_byteOf]
  have hmult : s.holdsBytes (a + 8) (wordBytes m.multRegs) :=
    ((State.holdsBytes_append s a _ _).1 h).2
  exact ⟨State.rfByte_of_holdsBytes (k := 0) h rfl, State.rfByte_of_holdsBytes (k := 1) h rfl,
    State.rfByte_of_holdsBytes (k := 2) h rfl, State.rfByte_of_holdsBytes (k := 3) h rfl, hbase,
    State.rfByte_of_holdsBytes (k := 6) h rfl, State.rfByte_of_holdsBytes (k := 7) h rfl,
    State.rfWord_of_holdsBytes hmult⟩

/-- Settles O53: module k is entry k of the array that boot places, and the sentinel follows the last. -/
theorem bootWritesModuleDescriptors : Obligations.BootWritesModuleDescriptors := by
  intro c hchecks
  obtain ⟨hcount, -⟩ := (bootChecksPass_iff c).1 hchecks
  obtain ⟨hmodules, hsentinel⟩ :=
    (State.holdsBytes_append _ _ _ _).1 (State.boot_holds_modules hcount)
  rw [flatMap_const_length moduleBytes_length, Nat.mul_comm] at hsentinel
  refine ⟨fun k m hk => ?_, fun off hoff => ?_⟩
  · exact State.module_fields_of_holdsBytes (State.holdsBytes_entry moduleBytes_length hmodules hk)
  · exact State.rfByte_of_holdsBytes hsentinel (by rw [List.getElem?_replicate, if_pos hoff])

/-! ### The pin descriptors (R220, R221) -/

/-- The pins are the last block that boot places: no other covers them. -/
theorem State.boot_pin_byte {c : BootParams} {k j : Nat} {p : PinDesc} {v : Byte}
    (hk : c.pins[k]? = some p) (hj : (pinBytes p)[j]? = some v)
    (hrf : 0x0600 + 4 * k + j < Config.rfSize) : (State.boot c).rfByte (0x0600 + 4 * k + j) = v := by
  obtain ⟨hj4, -⟩ := List.getElem?_eq_some_iff.1 hj
  have hget : (c.pins.flatMap pinBytes)[4 * k + j]? = some v :=
    (flatMap_const_getElem? pinBytes_length hk hj4).trans hj
  obtain ⟨hlt, hv⟩ := List.getElem?_eq_some_iff.1 hget
  rw [Nat.add_assoc] at hrf ⊢
  rw [State.rfByte, State.boot_bus_rf, bootRegisterFile_read c hrf, lastCell_place_inside hlt,
    List.getD_eq_getElem _ _ hlt, hv]
  rfl

/-- Settles O54: byte by byte, by `State.boot_pin_byte`. -/
theorem bootWritesPinDescriptors : Obligations.BootWritesPinDescriptors := by
  intro c k p hk hrf
  have hin (j : Nat) (hj : j < 4) : 0x0600 + 4 * k + j < Config.rfSize := by
    rw [Config.rfSize]; omega
  exact ⟨State.boot_pin_byte (j := 0) hk rfl (hin 0 (by decide)),
    State.boot_pin_byte (j := 1) hk rfl (hin 1 (by decide)),
    State.boot_pin_byte (j := 2) hk rfl (hin 2 (by decide)),
    State.boot_pin_byte (j := 3) hk rfl (hin 3 (by decide))⟩

/-! ### The rest of the register file (R21, R210) -/

theorem lastCell_place_outside {a x : Nat} {bs : List Byte} (hx : ¬ (a ≤ x ∧ x < a + bs.length)) :
    lastCell (place a bs) x = none := by
  rw [lastCell_place, if_neg hx]

theorem bootRegisterFile_read_past (c : BootParams) {x : Nat} (hx : Config.rfSize ≤ x) :
    Memory.read (bootRegisterFile c) x = 0#8 := by
  refine (Memory.read_writeAll_of_notMem fun hmem => ?_).trans (Memory.read_nil x)
  obtain ⟨cell, hcell, rfl⟩ := List.mem_map.1 hmem
  exact absurd (of_decide_eq_true (List.mem_filter.1 hcell).2) (Nat.not_lt.2 hx)

/-- Settles O55: a byte outside the four blocks is in none of them (`lastCell_place_outside`), and the
blocks of an accepted configuration end at 0x05FC and 0x0840. -/
theorem bootLeavesTheRestZero : Obligations.BootLeavesTheRestZero := by
  intro c
  have hrest : ∀ x, ¬ (0x0100 ≤ x ∧ x ≤ 0x010F) → ¬ (0x0400 ≤ x ∧ x ≤ 0x043F) →
      ¬ (0x0440 ≤ x ∧ x < 0x0440 + 12 * (c.modules.length + 1)) →
      ¬ (0x0600 ≤ x ∧ x < 0x0600 + 4 * c.pins.length) → (State.boot c).rfByte x = 0#8 := by
    intro x hid hidrom hmodules hpins
    rw [State.rfByte, State.boot_bus_rf]
    rcases Nat.lt_or_ge x Config.rfSize with hx | hx
    · rw [bootRegisterFile_read c hx, lastCell_place_outside (by rw [pinArray_length]; omega),
        lastCell_place_outside (by rw [moduleArrayBytes_length]; omega),
        lastCell_place_outside (by rw [idromBytes_length]; omega),
        lastCell_place_outside (by rw [idBlockBytes_length]; omega)]
      rfl
    · exact bootRegisterFile_read_past c hx
  refine ⟨hrest, fun hchecks => ?_⟩
  obtain ⟨hmodules, -, -, hpins, -⟩ := (bootChecksPass_iff c).1 hchecks
  exact ⟨fun x _ => hrest x (by omega) (by omega) (by omega) (by omega),
    fun x _ => hrest x (by omega) (by omega) (by omega) (by omega)⟩

end Sys2Proof.Machine
end

section
/-! Proof of the statement about the interleavings of the two contexts (20_memory.md section 6,
45_update_scheduler.md). -/

namespace Sys2Proof.Machine

section
variable {steps : Nat → Nat} (hfair : ∀ d, ∃ d', d ≤ d' ∧ 0 < steps d')

/-- The first point from d on at which a fair sequence of steps moves. -/
def nextMove (hfair : ∀ d, ∃ d', d ≤ d' ∧ 0 < steps d') (d : Nat) : Nat := Nat.find (hfair d)

theorem nextMove_spec (d : Nat) : d ≤ nextMove hfair d ∧ 0 < steps (nextMove hfair d) :=
  Nat.find_spec (hfair d)

theorem lt_nextMove {d : Nat} (h : steps d = 0) : d < nextMove hfair d := by
  obtain ⟨hle, hpos⟩ := nextMove_spec hfair d
  refine lt_of_le_of_ne hle fun heq => ?_
  rw [← heq, h] at hpos
  exact absurd hpos (Nat.lt_irrefl 0)

theorem nextMove_succ {d : Nat} (h : steps d = 0) : nextMove hfair (d + 1) = nextMove hfair d := by
  refine Nat.find_congr' fun {n} =>
    ⟨fun ⟨hle, hpos⟩ => ⟨by omega, hpos⟩, fun ⟨hle, hpos⟩ => ⟨?_, hpos⟩⟩
  have hne : d ≠ n := by rintro rfl; omega
  omega

/-- With the distance to the next move as its patience, the update context's patience never runs out before
that move. -/
theorem patienceLeft_nextMove (E : Env) (d : Nat) :
    patienceLeft { E with updateSteps := steps, updatePatience := fun k => nextMove hfair k - k } d =
      nextMove hfair d - d := by
  induction d with
  | zero => rfl
  | succ d ih =>
    rw [patienceLeft, ih]
    by_cases h : steps d = 0
    · have hlt := lt_nextMove hfair h
      rw [if_pos ⟨h, by omega⟩, nextMove_succ hfair h]
      omega
    · rw [if_neg fun hpatient => h hpatient.1]

theorem stepsAt_nextMove (E : Env) (d : Nat) :
    stepsAt { E with updateSteps := steps, updatePatience := fun k => nextMove hfair k - k } d =
      steps d := by
  rw [stepsAt, patienceLeft_nextMove]
  refine if_neg fun ⟨h, hout⟩ => ?_
  have hlt := lt_nextMove hfair h
  omega

end

/-- Settles O59: a point's steps by `Bus.interleave_turns`, fairness by `exists_stepsAt_pos`, and a fair
sequence by the patience that lasts until its next move (`stepsAt_nextMove`). -/
theorem interleavingsAreTheFairOnes : Obligations.InterleavingsAreTheFairOnes := by
  refine ⟨fun E regions b => ⟨rfl, Bus.interleave_turns E regions b⟩, fun E d => ?_,
    fun E steps hfair => ⟨_, stepsAt_nextMove hfair E⟩⟩
  obtain ⟨k, -, hpos⟩ := exists_stepsAt_pos E d
  exact ⟨d + k, Nat.le_add_right d k, hpos⟩

end Sys2Proof.Machine
end

section
/-! Proof of the statement about the progress of both contexts (45_update_scheduler.md). -/

namespace Sys2Proof.Machine

/-! ### The update context keeps pace with the interleaving points (R72, R245) -/

/-- How many steps the update context takes at the first p interleaving points. -/
def stepsBefore (E : Env) (p : Nat) : Nat := ∑ d ∈ Finset.range p, stepsAt E d

theorem stepsBefore_succ (E : Env) (p : Nat) :
    stepsBefore E (p + 1) = stepsBefore E p + stepsAt E p := Finset.sum_range_succ _ _

theorem stepsBefore_mono (E : Env) {p q : Nat} (h : p ≤ q) : stepsBefore E p ≤ stepsBefore E q :=
  Finset.sum_le_sum_of_subset (Finset.range_mono h)

/-- Fairness: the steps at the interleaving points grow without bound. -/
theorem exists_le_stepsBefore (E : Env) (N : Nat) : ∃ p, N ≤ stepsBefore E p := by
  induction N with
  | zero => exact ⟨0, Nat.zero_le _⟩
  | succ N ih =>
    obtain ⟨p, hp⟩ := ih
    obtain ⟨k, -, hpos⟩ := exists_stepsAt_pos E p
    have hle := stepsBefore_mono E (Nat.le_add_right p k)
    exact ⟨p + k + 1, by rw [stepsBefore_succ]; omega⟩

/-- From b to b' the update context took at least its steps at the interleaving points passed. -/
structure Bus.Paced (E : Env) (b b' : Bus) : Prop where
  points : b.points ≤ b'.points
  turns  : b.turns + stepsBefore E b'.points ≤ b'.turns + stepsBefore E b.points

section
variable {E : Env} {regions : List Region} {b b' b'' : Bus}

theorem Bus.Paced.refl (b : Bus) : Bus.Paced E b b := ⟨le_rfl, le_rfl⟩

theorem Bus.Paced.trans (h : Bus.Paced E b b') (h' : Bus.Paced E b' b'') : Bus.Paced E b b'' :=
  ⟨h.points.trans h'.points, by have := h.turns; have := h'.turns; omega⟩

theorem Bus.Paced.turns_le (h : Bus.Paced E b b') : b.turns ≤ b'.turns := by
  have hsteps := stepsBefore_mono E h.points
  have hturns := h.turns
  omega

/-- A change of neither count keeps pace. -/
theorem Bus.Paced.of_counts_eq (h : Bus.Paced E b b') (hp : b''.points = b'.points)
    (ht : b''.turns = b'.turns) : Bus.Paced E b b'' :=
  ⟨hp ▸ h.points, by rw [hp, ht]; exact h.turns⟩

theorem Bus.Paced.interleave (h : Bus.Paced E b b') : Bus.Paced E b (b'.interleave E regions) := by
  refine h.trans ⟨by simp, ?_⟩
  rw [Bus.interleave_points, Bus.interleave_turns, stepsBefore_succ]
  omega

theorem Bus.Paced.updateStep (h : Bus.Paced E b b') : Bus.Paced E b (b'.updateStep E regions) := by
  refine h.trans ⟨by simp, ?_⟩
  rw [Bus.updateStep_points, Bus.updateStep_turns]
  omega

end

theorem Bus.kept_paced (E : Env) (regions : List Region) (b : Bus) :
    Bus.Kept E regions (Bus.Paced E b) where
  interleave := fun _ h => h.interleave
  call := fun _ _ h => h.of_counts_eq rfl rfl
  act := fun r _ idx b' a h => h.of_counts_eq (Bus.act_points idx r b' a) (Bus.act_turns idx r b' a)

/-- A command keeps pace. -/
theorem exec_paced {i : Instr} {s t : State} (hwf : i.wf = true) (h : exec i s = .next t) :
    Bus.Paced Config.env s.bus t.bus := by
  have hkept := Bus.kept_paced Config.env s.regions s.bus
  cases exec_effect_of_next h with
  | read0 a z n c hi =>
    obtain ⟨b, bs, k, q, hb, -, ht⟩ :=
      State.space0Read_effect hkept (.refl _) (s.startAddress .s0 a) z n c
    rw [ht]; exact hb
  | write0 a z n c d hi =>
    subst hi
    obtain ⟨b, k, q, hb, -, ht⟩ :=
      State.space0Write_effect hkept (.refl _) (s.startAddress .s0 a) z n c d
        (Instr.data_length hwf) fun _ _ _ _ _ h => h.of_counts_eq rfl rfl
    rw [ht]; exact hb
  | _ => exact .refl _

/-- Every step keeps pace, and passes an interleaving point or is a step of the update context. -/
theorem step_paced {s t : State} (h : step s = .next t) :
    Bus.Paced Config.env s.bus t.bus ∧
      s.bus.points + s.bus.turns < t.bus.points + t.bus.turns := by
  have hpaced : Bus.Paced Config.env s.bus (s.bus.interleave Config.env s.regions) :=
    (Bus.Paced.refl _).interleave
  have hpoint : ∀ b, Bus.Paced Config.env (s.bus.interleave Config.env s.regions) b →
      Bus.Paced Config.env s.bus b ∧ s.bus.points + s.bus.turns < b.points + b.turns := by
    intro b hb
    have hpoints := hb.points
    have hturns := hpaced.turns_le.trans hb.turns_le
    rw [Bus.interleave_points] at hpoints
    exact ⟨hpaced.trans hb, by omega⟩
  obtain ⟨-, -, rfl⟩ | ⟨p, rest, -, -, -, rfl⟩ |
    ⟨-, -, -, ⟨-, rfl⟩ | ⟨e, -, -, rfl⟩ | ⟨i, len, -, hwf, hexec⟩⟩ := step_cases h
  · exact ⟨(Bus.Paced.refl _).updateStep, by simp⟩
  · exact hpoint _ (.refl _)
  · rw [State.finishPayload_bus]; exact hpoint _ (.refl _)
  · rw [State.stop, State.finishPayload_bus]; exact hpoint _ (.refl _)
  · exact hpoint _ (exec_paced hwf hexec)

/-! ### Runs (R140, R250) -/

section
variable {arrive : Nat → List (List Byte)} {k : Nat} {s t u : State}

theorem State.runFor_succ (hrun : State.runFor arrive k s = some t)
    (hstep : step (t.deliver (arrive k)) = .next u) : State.runFor arrive (k + 1) s = some u := by
  simp only [State.runFor, hrun, hstep]

theorem State.Inv.deliver (h : s.Inv) (payloads : List (List Byte)) : (s.deliver payloads).Inv :=
  { h with }

/-- A booted run goes on for ever, and the update context keeps pace in it. -/
theorem State.Inv.exists_run (h : s.Inv) (hq : s.request ≠ .unbooted) (k : Nat) :
    ∃ t, State.runFor arrive k s = some t ∧ t.Inv ∧ t.request ≠ .unbooted ∧
      Bus.Paced Config.env s.bus t.bus ∧
      s.bus.points + s.bus.turns + k ≤ t.bus.points + t.bus.turns := by
  induction k with
  | zero => exact ⟨s, rfl, h, hq, .refl _, le_rfl⟩
  | succ k ih =>
    obtain ⟨t, hrun, hinv, hboot, hpaced, hcount⟩ := ih
    obtain ⟨u, hstep, hinv', hboot'⟩ :=
      bootedMachineNeverStops (t.deliver (arrive k)) (hinv.deliver _) hboot
    obtain ⟨hpaced', hcount'⟩ := step_paced hstep
    exact ⟨u, State.runFor_succ hrun hstep, hinv', hboot', hpaced.trans hpaced',
      Nat.lt_of_le_of_lt hcount hcount'⟩

/-! ### The end of a payload (R140) -/

/-- A step of the request context ends the payload, gets stuck in a handler, or moves the cursor. -/
theorem step_busy_progress (h : s.Inv) (hq : s.request = .busy) (hstep : step s = .next t) :
    (t.request = .idle ∨ t.request = .hung) ∨
      t.request = .busy ∧ t.payload = s.payload ∧ s.cursor < t.cursor := by
  have hr := (h.running hq).1
  obtain ⟨-, hwait, -⟩ | ⟨p, rest, hidle, -, -, -⟩ |
    ⟨-, -, -, ⟨-, rfl⟩ | ⟨e, -, -, rfl⟩ | ⟨i, len, hd, -, hexec⟩⟩ := step_cases hstep
  · have hidle := (hwait (by rw [hq]; decide) hr).2
    exact absurd (hq.symm.trans hidle) (by decide)
  · exact absurd (hq.symm.trans hidle) (by decide)
  · exact .inl (.inl (State.finishPayload_request _))
  · exact .inl (.inl (State.finishPayload_request _))
  · have hpos := decode_length_pos hd
    obtain ⟨hpayload, hcursor, -, hmode⟩ | ⟨-, -, -, -, hidle⟩ := exec_payload hexec
    · rcases hmode with hmode | hmode
      · have hcur : t.cursor = s.cursor + len := hcursor
        exact .inr ⟨hmode.trans hq, hpayload, by omega⟩
      · exact .inl (.inr hmode)
    · exact .inl (.inl hidle)

/-- Within k steps the payload is at its end, or at least k of its remaining bytes are consumed. -/
theorem State.Inv.payload_progress (h : s.Inv) (hq : s.request = .busy) (k : Nat) :
    (∃ j ≤ k, ∃ t, State.runFor arrive j s = some t ∧ (t.request = .idle ∨ t.request = .hung)) ∨
      ∃ t, State.runFor arrive k s = some t ∧ t.Inv ∧ t.request = .busy ∧
        t.payload = s.payload ∧ s.cursor + k ≤ t.cursor := by
  induction k with
  | zero => exact .inr ⟨s, rfl, h, hq, rfl, le_rfl⟩
  | succ k ih =>
    obtain ⟨j, hj, hend⟩ | ⟨t, hrun, hinv, hbusy, hpayload, hcursor⟩ := ih
    · exact .inl ⟨j, Nat.le_succ_of_le hj, hend⟩
    · obtain ⟨u, hstep, hinv', -⟩ := bootedMachineNeverStops (t.deliver (arrive k)) (hinv.deliver _)
        (by rw [show (t.deliver (arrive k)).request = .busy from hbusy]; decide)
      obtain hend | ⟨hbusy', hpayload', hcursor'⟩ := step_busy_progress (hinv.deliver _) hbusy hstep
      · exact .inl ⟨k + 1, le_rfl, u, State.runFor_succ hrun hstep, hend⟩
      · exact .inr ⟨u, State.runFor_succ hrun hstep, hinv', hbusy', hpayload'.trans hpayload,
          Nat.lt_of_le_of_lt hcursor hcursor'⟩

end

/-- Settles O60: the update context keeps pace with the interleaving points, of which there are unboundedly
many unless it moves by itself (`State.Inv.exists_run`); and each step consumes bytes of the payload or ends
it (`State.Inv.payload_progress`). -/
theorem bothContextsMakeProgress : Obligations.BothContextsMakeProgress := by
  intro s arrive h hq
  refine ⟨fun N => ?_, fun hbusy => ?_⟩
  · obtain ⟨p, hp⟩ := exists_le_stepsBefore Config.env (N + stepsBefore Config.env s.bus.points)
    obtain ⟨t, hrun, -, -, hpaced, hcount⟩ := h.exists_run (arrive := arrive) hq (p + N)
    refine ⟨p + N, t, hrun, ?_⟩
    rcases Nat.lt_or_ge t.bus.points p with hlt | hge
    · omega
    · have hsteps := stepsBefore_mono Config.env hge
      have hturns := hpaced.turns
      omega
  · obtain ⟨j, hj, t, hend⟩ | ⟨t, -, hinv, -, hpayload, hcursor⟩ :=
      h.payload_progress (arrive := arrive) hbusy (s.payload.length - s.cursor + 1)
    · exact ⟨j, t, hj, hend⟩
    · have hinside := hinv.cursor
      have hinside' := h.cursor
      rw [hpayload] at hinside
      omega

end Sys2Proof.Machine
end

section
/-! Proofs of the two statements that torn accesses are possible (20_memory.md section 6, 70_reset_and_hazards.md
section 2). Each gives a run of a board whose only region is the status register with an update hook. -/

namespace Sys2Proof.Machine

/-! ### The board and its environments (R43, R241, R284) -/

/-- The status register with an update hook. -/
def hookedStatus : Region := ⟨"status", 0x0200, 4, true, false, false⟩

/-- Just after a boot that registers the hooked status register alone. -/
def hookedState : State := State.boot { (default : BootParams) with regions := [⟨hookedStatus, []⟩] }

/-- Every hook makes the given access for each of its four bytes in order and returns; the update context
takes the given numbers of steps at the interleaving points. -/
def fourByteHookEnv (access : Nat → SliceAct) (steps : Nat → Nat) : Env :=
  { (default : Env) with
    updateHook := fun _ _ seen =>
      if seen.length < 4 then .act (access seen.length) else .finish () 0
    updateSteps := steps
    updatePatience := fun _ => 4 }

/-- A hook that fills the register with FF; between the read's first and second byte it is called and writes
two bytes. -/
def fillingEnv : Env := fourByteHookEnv (.write · 0xFF) fun p => if p = 1 then 3 else 0

/-- A hook that reads the register; before the write's first byte it is called and reads one byte, between
the second and the third it reads the other three. -/
def readingEnv : Env :=
  fourByteHookEnv .read fun p => if p = 0 then 2 else if p = 2 then 3 else 0

/-- Settles O48: the read's first byte precedes the hook's first write, its second byte follows the second
write, and the hook's other writes come after the read. -/
theorem tornReadIsPossible : Obligations.TornReadIsPossible :=
  ⟨fillingEnv, hookedState, rfl, rfl, by decide +kernel, rfl, fun _ _ => rfl, by decide +kernel⟩

/-- Settles O58: the hook reads its first byte before the write's first byte is stored, and its other three
between the write's second and third byte. -/
theorem tornHookReadIsPossible : Obligations.TornHookReadIsPossible :=
  ⟨readingEnv, hookedState, rfl, by decide +kernel, rfl, fun _ _ => rfl, _, 0, rfl,
    by decide +kernel, by decide +kernel⟩

end Sys2Proof.Machine
end
